-- ==== Sys2Proof/Word.lean ====
section
/-! DEFINITION. The word types of the AudioQAM CORE: 64-bit interface words, bytes of a serialised packet, and
binary64 bit patterns. -/

namespace Sys2Proof

/-- One word of the command port (`30_encoding.md` R90). -/
abbrev Word := BitVec 64

/-- One byte of a serialised packet (`20_memory.md` R74, R75). -/
abbrev Byte := BitVec 8

/-- A binary64 value as its bit pattern (`00_scope.md` R11, `20_memory.md` R74): sign in bit 63, biased exponent in
bits 62:52, fraction in bits 51:0. `+0.0` and `-0.0` are distinct, and a copied NaN keeps its payload (R305). -/
abbrev F64 := BitVec 64

/-- A command packet as the transport delivers it: its bytes, least significant byte of each word first
(`20_memory.md` R74, `30_encoding.md` R90). Its length need not be a multiple of 8 (R75). -/
abbrev Packet := List Byte

end Sys2Proof
end

