-- ==== Sys2Proof/Syntax.lean ====
section
/-! DEFINITION. The commands of the AudioQAM CORE as syntax: one constructor of Instr per row of the opcode table,
its operands decoded to what they name. -/

namespace Sys2Proof

/-- The two audio channels, L = 0 and R = 1 (`00_scope.md` R16). -/
inductive Chan where
  | left
  | right
deriving DecidableEq, Repr

/-- The four band-limiting stages (`10_state.md` R42). -/
inductive Stage where
  | inHpf
  | inLpf
  | outHpf
  | outLpf
deriving DecidableEq, Repr

/-- High-pass or low-pass: the kind of a biquad (R42), and the two FIR instances (R38). -/
inductive FilterKind where
  | lpf
  | hpf
deriving DecidableEq, Repr

/-- The kind of a stage (`10_state.md` R42: stages 0 and 2 are high-pass, 1 and 3 low-pass). -/
def Stage.kind : Stage → FilterKind
  | .inHpf => .hpf
  | .inLpf => .lpf
  | .outHpf => .hpf
  | .outLpf => .lpf

/-- One thing per channel. -/
structure Stereo (α : Type) where
  left : α
  right : α
deriving DecidableEq, Repr

/-- One thing per band-limiting stage. -/
structure Staged (α : Type) where
  inHpf : α
  inLpf : α
  outHpf : α
  outLpf : α
deriving DecidableEq, Repr

/-- One thing per FIR instance (`10_state.md` R38). -/
structure PerKind (α : Type) where
  lpf : α
  hpf : α
deriving DecidableEq, Repr

def Stereo.get {α : Type} (p : Stereo α) : Chan → α
  | .left => p.left
  | .right => p.right

def Stereo.set {α : Type} (p : Stereo α) (c : Chan) (v : α) : Stereo α :=
  match c with
  | .left => { p with left := v }
  | .right => { p with right := v }

def Staged.get {α : Type} (p : Staged α) : Stage → α
  | .inHpf => p.inHpf
  | .inLpf => p.inLpf
  | .outHpf => p.outHpf
  | .outLpf => p.outLpf

def Staged.set {α : Type} (p : Staged α) (s : Stage) (v : α) : Staged α :=
  match s with
  | .inHpf => { p with inHpf := v }
  | .inLpf => { p with inLpf := v }
  | .outHpf => { p with outHpf := v }
  | .outLpf => { p with outLpf := v }

def PerKind.get {α : Type} (p : PerKind α) : FilterKind → α
  | .lpf => p.lpf
  | .hpf => p.hpf

def PerKind.set {α : Type} (p : PerKind α) (k : FilterKind) (v : α) : PerKind α :=
  match k with
  | .lpf => { p with lpf := v }
  | .hpf => { p with hpf := v }

/-- The opcodes (`30_encoding.md` R96), one per command. -/
inductive Op where
  | nop
  | configure
  | setCarrier
  | setCutoff
  | setMix
  | processFrame
  | reset
  | readState
  | udlEnqueue
  | udlRead
  | udlReset
  | uddsSetup
  | uddsProcess
  | uddsReset
  | uddsRead
  | uhtProcess
  | uhtReset
  | uiirSetup
  | uiirProcess
  | uiirReset
  | ufirSetup
  | ufirProcess
  | ufirReset
  | umix
deriving DecidableEq, Repr

/-- The status codes of a response (`60_exceptions.md` R301). -/
inductive Status where
  | ok
  | illegalOpcode
  | reservedBits
  | illegalUnit
  | illegalLength
  | operandRange
deriving DecidableEq, Repr

/-- A command with its operands (`30_encoding.md` R96). Unit ids are decoded to the channel, stage or FIR kind they
name (R94) and immediates to what they mean (R95, R100), so every term is a legal command. -/
inductive Instr where
  /-- NOP (`45_pipeline.md` R261). -/
  | nop
  /-- CONFIGURE (R262): sample rate in Hz. -/
  | configure (fs : F64)
  /-- SET_CARRIER (R263): waveform selector and signed frequency in Hz. -/
  | setCarrier (wave : BitVec 8) (f : F64)
  /-- SET_CUTOFF (R264): stage and cutoff in Hz. -/
  | setCutoff (stage : Stage) (hz : F64)
  /-- SET_MIX (R265): wet fraction. -/
  | setMix (wet : F64)
  /-- PROCESS_FRAME (R266): bypass request, input silence flags, and one sample per channel. -/
  | processFrame (bypass silL silR : Bool) (inL inR : F64)
  /-- RESET (R267). -/
  | reset
  /-- READ_STATE (R268). -/
  | readState
  /-- UDL_ENQUEUE (`40_delay_line.md` R124). -/
  | udlEnqueue (chan : Chan) (x : F64)
  /-- UDL_READ (R125): unsigned offset. -/
  | udlRead (chan : Chan) (i : Word)
  /-- UDL_RESET (R126). -/
  | udlReset (chan : Chan)
  /-- UDDS_SETUP (`41_dds.md` R153): rate and frequency. -/
  | uddsSetup (fs f : F64)
  /-- UDDS_PROCESS (R154): waveform selector. -/
  | uddsProcess (wave : BitVec 8)
  /-- UDDS_RESET (R155). -/
  | uddsReset
  /-- UDDS_READ (R156). -/
  | uddsRead
  /-- UHT_PROCESS (`42_hilbert.md` R184). -/
  | uhtProcess (chan : Chan) (x : F64)
  /-- UHT_RESET (R185). -/
  | uhtReset (chan : Chan)
  /-- UIIR_SETUP (`43_filters.md` R210): rate and cutoff. -/
  | uiirSetup (stage : Stage) (chan : Chan) (fs fc : F64)
  /-- UIIR_PROCESS (R211). -/
  | uiirProcess (stage : Stage) (chan : Chan) (x : F64)
  /-- UIIR_RESET (R212). -/
  | uiirReset (stage : Stage) (chan : Chan)
  /-- UFIR_SETUP (R213): rate and cutoff. -/
  | ufirSetup (kind : FilterKind) (fs fc : F64)
  /-- UFIR_PROCESS (R214). -/
  | ufirProcess (kind : FilterKind) (x : F64)
  /-- UFIR_RESET (R215). -/
  | ufirReset (kind : FilterKind)
  /-- UMIX (`44_mixer.md` R246): 1 for the lower-sideband formula, then `z, zH, x, xH`. -/
  | umix (lower : Bool) (z zH x xH : F64)
deriving DecidableEq, Repr

end Sys2Proof
end

