-- ==== Sys2Proof/Config.lean ====
section
/-! DEFINITION. What an implementation fixes: the open parameters of `00_scope.md` R7, the contents of the two ROMs and the
coefficient functions (R9), and the free values the model leaves open. Every opaque constant here has no body, so no proof
can see its value. -/

namespace Sys2Proof

/-- A finite binary64 value: its sign and the low 63 bits of its pattern, below those of infinity. The free constants of
the configuration range over this type, since every ROM entry and coefficient is finite (`41_dds.md` R151,
`42_hilbert.md` R180, `92_eei_decisions.md` section 1). -/
structure FiniteF64 where
  neg : Bool
  mag : Fin 9218868437227405312
deriving DecidableEq, Repr, Inhabited

/-- The bit pattern of a finite value. -/
def FiniteF64.bits (v : FiniteF64) : F64 := BitVec.ofNat 64 (v.mag.val + v.neg.toNat * 2 ^ 63)

/-- The five coefficients of a biquad (`10_state.md` R37). -/
structure IirCoefs where
  b0 : F64
  b1 : F64
  b2 : F64
  a1 : F64
  a2 : F64
deriving DecidableEq, Repr

/-- Five free finite coefficients. -/
structure FiniteIirCoefs where
  b0 : FiniteF64
  b1 : FiniteF64
  b2 : FiniteF64
  a1 : FiniteF64
  a2 : FiniteF64
deriving DecidableEq, Repr, Inhabited

/-- The sign and payload of a quiet NaN: everything but its exponent and its quiet bit, which are all ones
(`60_exceptions.md` R305). -/
structure NanBits where
  neg : Bool
  payload : BitVec 51
deriving DecidableEq, Repr, Inhabited

/-- Which operation a NaN comes from: the operation's place inside its command, innermost number first, and the number of
the command (`60_exceptions.md` R305; DESIGN CHOICE, log 9). -/
abbrev NanTag := List Nat

/-- Which `IIR_COEF` and `FIR_COEF` functions the block is built with (`00_scope.md` R9): the reference definitions of
`43_filters.md` R200, R205, R206, or functions of the implementation's own. -/
inductive CoefSource where
  | reference
  | implementation
deriving DecidableEq, Repr

/-- One configuration of the block: the open parameters (R7), the ROM contents (R39, R71, R72) and the coefficient
functions (R9). It is plain data; no command writes it. -/
structure Config where
  /-- `WT_LEN`. -/
  wtLen : Nat
  /-- `HT_LEN`. -/
  htLen : Nat
  /-- `FIR_LEN`. -/
  firLen : Nat
  /-- `FIR_PASS_HZ`. -/
  firPassHz : F64
  /-- `DRY_ALIGN`. -/
  dryAlign : Nat
  /-- `WT_D[w]`, for `w` in 0..3. -/
  wtD : List (List F64)
  /-- `WT_H[w]`, for `w` in 0..3. -/
  wtH : List (List F64)
  /-- `HT_G`. -/
  htG : List F64
  coefs : CoefSource
deriving DecidableEq, Repr

/-! ## Free values: the open parameters of the hardware (`00_scope.md` R7, log 3)

Each is free over exactly the values R7 and `92_eei_decisions.md` D20 admit: `WT_LEN = 4(q+1) <= 2^52`,
`HT_LEN = 4q+3`, `FIR_LEN = 2q+3`, `FIR_PASS_HZ` any positive finite value. -/

opaque freeWtQ : Fin (2 ^ 50)

opaque freeHtQ : Nat

opaque freeFirQ : Nat

/-- The pattern of `FIR_PASS_HZ` less one. -/
opaque freeFirPass : Fin 9218868437227405311

opaque freeDryAlign : Nat

/-! ## Free values: ROM contents and coefficient functions (R9, logs 4 and 5) -/

/-- Direct table entries, by waveform and index. -/
opaque freeWtD : Nat → Nat → FiniteF64

/-- Companion table entries. -/
opaque freeWtH : Nat → Nat → FiniteF64

opaque freeHtG : Nat → FiniteF64

/-- `IIR_COEF(kind, fs, fc)` of an implementation. -/
opaque freeIirCoef : FilterKind → F64 → F64 → FiniteIirCoefs

/-- Tap `j` of `FIR_COEF(kind, fs, fc)` of an implementation with `FIR_LEN` taps. -/
opaque freeFirCoef : Nat → FilterKind → F64 → F64 → Nat → FiniteF64

/-! ## Free values: NaN results (`60_exceptions.md` R305, log 9) -/

/-- The sign and payload of a NaN that an operation on two operands produces. -/
opaque freeNan : NanTag → F64 → F64 → NanBits

end Sys2Proof
end

