-- ==== Sys2Proof/Machine/Float.lean ====
section
/-! DEFINITION. Binary64 arithmetic (`00_scope.md` R11, R13, R14): exact integer arithmetic on values counted in units of
`2^-1074`, then one rounding to nearest with ties to even. -/

namespace Sys2Proof.Machine

open Sys2Proof

/-! ## Layout (`20_memory.md` R74) -/

/-- The pattern of `+∞`: every larger magnitude is a NaN. -/
def infMag : Nat := 0x7FF0000000000000

/-- Bit 63. -/
def fNegBit (a : F64) : Bool := 2 ^ 63 ≤ a.toNat

/-- Bits 62:0. -/
def fMag (a : F64) : Nat := a.toNat % 2 ^ 63

def fIsNan (a : F64) : Bool := infMag < fMag a

def fIsInf (a : F64) : Bool := fMag a == infMag

def fFinite (a : F64) : Bool := fMag a < infMag

/-- A quiet NaN: exponent all ones and bit 51 set. -/
def fQuiet (a : F64) : Bool := 0x7FF8000000000000 ≤ fMag a

/-- `+0.0`. -/
def posZero : F64 := 0x0000000000000000#64

/-- `1.0`. -/
def fOne : F64 := 0x3FF0000000000000#64

/-- A pattern from a sign and a magnitude below `2^63`. -/
def fPack (neg : Bool) (mag : Nat) : F64 := BitVec.ofNat 64 (mag + neg.toNat * 2 ^ 63)

/-- Negation flips the sign bit only (R11). -/
def fNeg (a : F64) : F64 := fPack (!fNegBit a) (fMag a)

/-- Absolute value clears the sign bit only (R11). -/
def fAbs (a : F64) : F64 := fPack false (fMag a)

/-! ## Exact values -/

/-- The magnitude of a finite value in units of `2^-1074`, exactly. -/
def fUnits (a : F64) : Nat :=
  let e := fMag a / 2 ^ 52
  let f := fMag a % 2 ^ 52
  if e = 0 then f else (2 ^ 52 + f) * 2 ^ (e - 1)

/-- A finite value in units of `2^-1074`, with its sign. -/
def fInt (a : F64) : Int := if fNegBit a then -(fUnits a : Int) else (fUnits a : Int)

/-! ## Rounding (R11, R12) -/

/-- The integer nearest to `n / d`, ties to even. -/
def roundQuot (n d : Nat) : Nat :=
  let q := n / d
  let r := n % d
  if 2 * r < d then q else if d < 2 * r then q + 1 else if q % 2 = 0 then q else q + 1

/-- The magnitude of the binary64 value nearest to `(n / d) · 2^-1074`, ties to even. With `sh` the distance of the
leading bit above bit 52, the mantissa `m` rounded at `2^sh` units has the pattern `sh · 2^52 + m`, also where `m` is
subnormal or carries into the next binade; from infinity's pattern up the result is infinity. -/
def roundMag (n d : Nat) : Nat :=
  let q := n / d
  let sh := if q < 2 ^ 53 then 0 else Nat.log2 q - 52
  min (sh * 2 ^ 52 + roundQuot n (d * 2 ^ sh)) infMag

/-- `RN` of a signed rational `±n/d` (R12): `RN(0) = +0.0`. R12 does not say what a value past the binary64 range rounds to,
nor which zero a non-zero value rounds to: the first gives an infinity of its sign, from the same bound as R11's operators
on, and the second `+0.0` (DESIGN CHOICE, log 14). -/
def fOfRat (neg : Bool) (n d : Nat) : F64 :=
  let m := roundMag (n * 2 ^ 1074) d
  fPack (neg && m != 0) m

/-- The binary64 value of an integer (exact up to `2^53`). -/
def fOfNat (n : Nat) : F64 := fPack false (roundMag (n * 2 ^ 1074) 1)

/-! ## Operators (R11); NaN results are free (`60_exceptions.md` R305) -/

/-- A quiet NaN with the given sign and payload. -/
def quietNan (b : NanBits) : F64 := fPack b.neg (0x7FF8000000000000 + b.payload.toNat)

/-- The NaN an operation produces: quiet, its sign and payload free. -/
def nanResult (t : NanTag) (a b : F64) : F64 := quietNan (freeNan t a b)

/-- `a ⊕ b`. An exact zero sum is `+0.0`, unless both operands are negative zeros. -/
def fAdd (t : NanTag) (a b : F64) : F64 :=
  if fIsNan a || fIsNan b then nanResult t a b
  else if fIsInf a then
    if fIsInf b && fNegBit a != fNegBit b then nanResult t a b else a
  else if fIsInf b then b
  else
    let k := fInt a + fInt b
    if k = 0 then fPack (fNegBit a && fNegBit b) 0
    else fPack (k < 0) (roundMag k.natAbs 1)

/-- `a ⊖ b`: the sum with `b`'s sign bit flipped. -/
def fSub (t : NanTag) (a b : F64) : F64 :=
  if fIsNan a || fIsNan b then nanResult t a b else fAdd t a (fNeg b)

/-- `a ⊗ b`. The sign is the exclusive or of the signs, zeros included. -/
def fMul (t : NanTag) (a b : F64) : F64 :=
  if fIsNan a || fIsNan b then nanResult t a b
  else if fIsInf a || fIsInf b then
    if fMag a = 0 || fMag b = 0 then nanResult t a b else fPack (fNegBit a != fNegBit b) infMag
  else fPack (fNegBit a != fNegBit b) (roundMag (fUnits a * fUnits b) (2 ^ 1074))

/-! ## Comparisons (R11): IEEE, false on NaN, the two zeros equal -/

/-- An order-preserving integer of a value that is no NaN. -/
def fKey (a : F64) : Int := if fNegBit a then -(fMag a : Int) else (fMag a : Int)

def fLt (a b : F64) : Bool := !fIsNan a && !fIsNan b && decide (fKey a < fKey b)

def fLe (a b : F64) : Bool := !fIsNan a && !fIsNan b && decide (fKey a ≤ fKey b)

def fEq (a b : F64) : Bool := !fIsNan a && !fIsNan b && decide (fKey a = fKey b)

/-! ## Conversion to integers -/

/-- `round(v)` (R14): the nearest integer of a finite value, halves away from zero. -/
def fRound (a : F64) : Int :=
  let m : Nat := (fUnits a + 2 ^ 1073) / 2 ^ 1074
  if fNegBit a then -(m : Int) else (m : Int)

end Sys2Proof.Machine
end

