-- ==== Sys2Proof/Machine/Params.lean ====
section
/-! DEFINITION. Derived sizes (`00_scope.md` R8), the constraints on a configuration (R7, `41_dds.md` R151, `42_hilbert.md`
R180), ROM reads (`20_memory.md` R71, R72), and the hardware's configuration built from the free constants. -/

namespace Sys2Proof

/-- `Q4 = WT_LEN/4`, the quadrant length. -/
def Config.q4 (c : Config) : Nat := c.wtLen / 4

/-- `HALF = WT_LEN/2`. -/
def Config.half (c : Config) : Nat := c.wtLen / 2

/-- `C_H = (HT_LEN-1)/2`, the Hilbert centre tap. -/
def Config.centreH (c : Config) : Nat := (c.htLen - 1) / 2

/-- `NG = C_H + 1`, the number of stored Hilbert taps. -/
def Config.ng (c : Config) : Nat := c.centreH + 1

/-- `C_F = (FIR_LEN-1)/2`, the FIR centre tap and group delay. -/
def Config.centreF (c : Config) : Nat := (c.firLen - 1) / 2

/-- `D_DRY = C_H + DRY_ALIGN`, the dry-path delay. -/
def Config.dDry (c : Config) : Nat := c.centreH + c.dryAlign

/-- `DRY_CAP = D_DRY + 1`, the dry delay-line capacity. -/
def Config.dryCap (c : Config) : Nat := c.dDry + 1

/-- The table length of waveform `w`: `Q4 + 1` entries for sine, triangle and square, `HALF + 1` for the sawtooth
(`20_memory.md` R71). -/
def Config.tableLen (c : Config) (w : Nat) : Nat := if w = 3 then c.half + 1 else c.q4 + 1

/-- `ROM_D(w, i)` (R71). -/
def Config.romD (c : Config) (w i : Nat) : F64 := (c.wtD.getD w []).getD i 0#64

/-- `ROM_H(w, i)` (R71). -/
def Config.romH (c : Config) (w i : Nat) : F64 := (c.wtH.getD w []).getD i 0#64

/-- `HT_G[m]` (R72). -/
def Config.tapG (c : Config) (m : Nat) : F64 := c.htG.getD m 0#64

/-- The constraints on the sizes (`00_scope.md` R7, `92_eei_decisions.md` D20). -/
def Config.sizesOk (c : Config) : Bool :=
  decide (4 ≤ c.wtLen) && decide (c.wtLen % 4 = 0) && decide (c.wtLen ≤ 2 ^ 52)
    && decide (3 ≤ c.htLen) && decide (c.htLen % 4 = 3)
    && decide (3 ≤ c.firLen) && decide (c.firLen % 2 = 1)
    && Machine.fFinite c.firPassHz && Machine.fLt Machine.posZero c.firPassHz

/-- The properties every ROM has (`41_dds.md` R151: finite entries, the clamp, the lengths of `20_memory.md` R71;
`42_hilbert.md` R180: finite entries, R72: `NG` of them). -/
def Config.romsOk (c : Config) : Bool :=
  decide (c.wtD.map List.length = [c.q4 + 1, c.q4 + 1, c.q4 + 1, c.half + 1])
    && decide (c.wtH.map List.length = [c.q4 + 1, c.q4 + 1, c.q4 + 1, c.half + 1])
    && c.wtD.all (fun t => t.all Machine.fFinite) && c.wtH.all (fun t => t.all Machine.fFinite)
    && c.romH 2 0 == c.romH 2 1 && c.romH 3 0 == c.romH 3 1
    && decide (c.htG.length = c.ng) && c.htG.all Machine.fFinite

/-- A configuration the spec admits. -/
def Config.valid (c : Config) : Bool := c.sizesOk && c.romsOk

/-- A table of `n` free finite entries. -/
def freeTable (f : Nat → FiniteF64) (n : Nat) : List F64 := (List.range n).map fun i => (f i).bits

/-- The same with entry 0 clamped to entry 1 (R151). -/
def clampedTable (f : Nat → FiniteF64) (n : Nat) : List F64 := (List.range n).map fun i => (f (max i 1)).bits

/-- The hardware's configuration: every open parameter and every ROM entry free within its constraints, and the
implementation's own coefficient functions (logs 3, 4, 5). -/
def Config.hardware : Config :=
  let q4 := freeWtQ.val + 1
  let ng := 2 * freeHtQ + 2
  { wtLen := 4 * q4
    htLen := 4 * freeHtQ + 3
    firLen := 2 * freeFirQ + 3
    firPassHz := BitVec.ofNat 64 (freeFirPass.val + 1)
    dryAlign := freeDryAlign
    wtD := [freeTable (freeWtD 0) (q4 + 1), freeTable (freeWtD 1) (q4 + 1), freeTable (freeWtD 2) (q4 + 1),
      freeTable (freeWtD 3) (2 * q4 + 1)]
    wtH := [freeTable (freeWtH 0) (q4 + 1), freeTable (freeWtH 1) (q4 + 1), clampedTable (freeWtH 2) (q4 + 1),
      clampedTable (freeWtH 3) (2 * q4 + 1)]
    htG := freeTable freeHtG ng
    coefs := .implementation }

end Sys2Proof
end

