-- ==== Sys2Proof/Machine/Coef.lean ====
section
/-! DEFINITION. The coefficient functions `IIR_COEF` and `FIR_COEF` (`00_scope.md` R9). The reference definitions of
`43_filters.md` R200, R205, R206 are correctly rounded values of exact real formulas: they are evaluated here by enclosing
the exact value between two rationals and rounding both ends, an answer being given only where the two roundings agree
(UNVERIFIED, log 6). A configuration with functions of its own uses the free ones of Config.lean (log 5). -/

namespace Sys2Proof.Machine

open Sys2Proof

/-! ## Fixed-point enclosures of non-negative reals

An enclosure `⟨lo, hi⟩` holds a real `x` with `lo ≤ x · 2^precBits ≤ hi`. -/

/-- Fraction bits of the enclosures. The smallest non-zero binary64 value is `2^-1074`. -/
def precBits : Nat := 1400

/-- `1.0` in fixed point. -/
def fxOne : Nat := 2 ^ precBits

/-- An enclosure of a non-negative real. -/
structure Encl where
  lo : Nat
  hi : Nat
deriving DecidableEq, Repr

/-- `⌈n / d⌉`. -/
def ceilDiv (n d : Nat) : Nat := (n + d - 1) / d

/-- The enclosure of a rational `n/d`. -/
def enclRat (n d : Nat) : Encl := ⟨n * fxOne / d, ceilDiv (n * fxOne) d⟩

def enclAdd (x y : Encl) : Encl := ⟨x.lo + y.lo, x.hi + y.hi⟩

/-- The difference of a real and one that does not exceed it. -/
def enclSub (x y : Encl) : Encl := ⟨x.lo - y.hi, x.hi - y.lo⟩

def enclMul (x y : Encl) : Encl := ⟨x.lo * y.lo / fxOne, ceilDiv (x.hi * y.hi) fxOne⟩

/-- A real times a non-negative rational `n/d`. -/
def enclScale (x : Encl) (n d : Nat) : Encl := ⟨x.lo * n / d, ceilDiv (x.hi * n) d⟩

/-- `x / (n + 1)`. -/
def enclDivNat (x : Encl) (n : Nat) : Encl := ⟨x.lo / n, ceilDiv x.hi n⟩

/-- `⌊π · 2^precBits⌋`. -/
def piLo : Nat := 
  0x3243f6a8885a308d313198a2e03707344a4093822299f31d0082efa98ec4e6c89452821e638d01377be5466cf34e90c6cc0ac29b7c97c50dd3f84d5b5b54709179216d5d98979fb1bd1310ba698dfb5ac2ffd72dbd01adfb7b8e1afed6a267e96ba7c9045f12c7f9924a19947b3916cf70801f2e2858efc16636920d871574e69a458fea3f4933d7e0d95748f728eb658718bcd5882154aee7b54a41dc25a59b59c30d5392af26013c5d1b023286085

def enclPi : Encl := ⟨piLo, piLo + 1⟩

/-- `√2`. -/
def enclSqrt2 : Encl := let r := Nat.sqrt (2 * fxOne * fxOne); ⟨r, r + 1⟩

/-- `2π · n/d`. -/
def enclTurn (n d : Nat) : Encl := enclScale enclPi (2 * n) d

/-! ## Sine and cosine

Terms of the alternating series in `z = y²`: term `k` is the one before it times `z / ((a+2k-1)(a+2k))`, with `a = 0` for
`cos y` and `a = 1` for `sin y / y`. With `0 ≤ y ≤ π/4` they decrease, and the ones after `seriesTerms` are below the
fixed point's last place. -/

def seriesTerms : Nat := 120

/-- The sums of the terms added and of the terms taken away, from term `k` on. -/
def seriesLoop (z : Encl) (a : Nat) : Nat → Nat → Encl → Encl → Encl → Encl × Encl
  | 0, _, term, pos, neg => (⟨pos.lo, pos.hi + term.hi⟩, ⟨neg.lo, neg.hi + term.hi⟩)
  | fuel + 1, k, term, pos, neg =>
    let pos' := if k % 2 = 0 then enclAdd pos term else pos
    let neg' := if k % 2 = 0 then neg else enclAdd neg term
    let next := enclDivNat (enclMul term z) ((a + 2 * k + 1) * (a + 2 * k + 2))
    seriesLoop z a fuel (k + 1) next pos' neg'

/-- `cos y` (`a = 0`) or `sin y / y` (`a = 1`), for `y` with square `z`. -/
def enclSeries (z : Encl) (a : Nat) : Encl :=
  let r := seriesLoop z a seriesTerms 0 ⟨fxOne, fxOne⟩ ⟨0, 0⟩ ⟨0, 0⟩
  enclSub r.1 r.2

/-- `cos(2π n/d)` for `0 ≤ n/d ≤ 1/8`. -/
def enclCosSmall (n d : Nat) : Encl := let y := enclTurn n d; enclSeries (enclMul y y) 0

/-- `sin(y)/y` at `y = 2π n/d`, for `0 ≤ n/d ≤ 1/8`. -/
def enclSincSmall (n d : Nat) : Encl := let y := enclTurn n d; enclSeries (enclMul y y) 1

/-- `sin(2π n/d)` for `0 ≤ n/d ≤ 1/8`. -/
def enclSinSmall (n d : Nat) : Encl := enclMul (enclTurn n d) (enclSincSmall n d)

/-- `sin(2π n/d)` for `0 ≤ n/d ≤ 1/4`; above an eighth turn, the cosine of the complement. -/
def enclSinQuarter (n d : Nat) : Encl :=
  if 8 * n ≤ d then enclSinSmall n d else enclCosSmall (d - 4 * n) (4 * d)

/-- A real of either sign: whether it is negative, and an enclosure of its magnitude. -/
structure SignedEncl where
  neg : Bool
  mag : Encl
deriving DecidableEq, Repr

/-- `sin(2π n/d)` for any `n/d ≥ 0`, reduced to a quarter turn exactly: the sine changes sign over a half turn and is
symmetric about a quarter turn. -/
def enclSin (n d : Nat) : SignedEncl :=
  let r := n % d
  let neg := d ≤ 2 * r
  let h := if neg then 2 * r - d else 2 * r
  ⟨neg, enclSinQuarter (if 2 * h ≤ d then h else d - h) (2 * d)⟩

/-- `cos(2π n/d)`: the sine a quarter turn on. -/
def enclCos (n d : Nat) : SignedEncl := enclSin (4 * n + d) (4 * d)

/-- `x / y`, for `y` above zero. -/
def enclDiv (x y : Encl) : Encl := ⟨x.lo * fxOne / y.hi, ceilDiv (x.hi * fxOne) y.lo⟩

/-- `sin(y)/y` at `y = 2π n/d`, and 1 at `y = 0`. -/
def enclSinc (n d : Nat) : SignedEncl :=
  if 8 * n ≤ d then ⟨false, enclSincSmall n d⟩
  else let s := enclSin n d; ⟨s.neg, enclDiv s.mag (enclTurn n d)⟩

/-! ## Rounding an enclosed quotient -/

/-- A signed enclosure as two integers. -/
def SignedEncl.lo (x : SignedEncl) : Int := if x.neg then -(x.mag.hi : Int) else (x.mag.lo : Int)

def SignedEncl.hi (x : SignedEncl) : Int := if x.neg then -(x.mag.lo : Int) else (x.mag.hi : Int)

/-- `RN(x / y)` (R12) for `x` between the integers `lo` and `hi` and `y` in a positive enclosure, both in fixed point: the
common rounding of the two ends, where they agree. A value whose rounding is a zero gives `+0.0`. -/
def roundEncl (lo hi : Int) (y : Encl) : Option F64 :=
  let a := fOfRat (lo < 0) lo.natAbs (if lo < 0 then y.lo else y.hi)
  let b := fOfRat (hi < 0) hi.natAbs (if hi < 0 then y.hi else y.lo)
  if y.lo ≠ 0 ∧ a = b then some a else none

/-! ## `IIR_COEF` (R200)

With `s` and `c` the sine and cosine of `π fc/fs`, multiplying R200's quotients through by `c²` gives
`a0 c² = 1 + √2 s c`, `b0 = s²/a0` (low-pass) or `c²/a0` (high-pass), `a1 = 2(s² - c²)/a0`, `a2 = (1 - √2 s c)/a0`. -/

/-- The reference coefficients, where the enclosures settle all five; `fs > 0` and `0 ≤ 2 fc < fs`, both finite. -/
def refIirCoef (kind : FilterKind) (fs fc : F64) : Option IirCoefs :=
  let n := fUnits fc
  let d := 2 * fUnits fs
  let s := enclSinQuarter n d
  let c := enclSinQuarter (d - 4 * n) (4 * d)
  let s2 := enclMul s s
  let c2 := enclMul c c
  let p := enclMul enclSqrt2 (enclMul s c)
  let one : Encl := ⟨fxOne, fxOne⟩
  let a0 := enclAdd one p
  let top := match kind with
    | .lpf => s2
    | .hpf => c2
  let mid : SignedEncl := ⟨decide (kind = .hpf), enclAdd top top⟩
  let dif : SignedEncl := if 8 * n ≤ d then ⟨true, enclSub c2 s2⟩ else ⟨false, enclSub s2 c2⟩
  let a2 := enclSub one p
  match roundEncl top.lo top.hi a0, roundEncl mid.lo mid.hi a0, roundEncl (2 * dif.lo) (2 * dif.hi) a0,
    roundEncl a2.lo a2.hi a0 with
  | some b0, some b1, some a1, some a2 => some ⟨b0, b1, b0, a1, a2⟩
  | _, _, _, _ => none

/-- `IIR_COEF(kind, fs, fc)` of a configuration (`00_scope.md` R9). -/
def iirCoef (cfg : Config) (kind : FilterKind) (fs fc : F64) : IirCoefs :=
  let f := freeIirCoef kind fs fc
  let own : IirCoefs := ⟨f.b0.bits, f.b1.bits, f.b2.bits, f.a1.bits, f.a2.bits⟩
  match cfg.coefs with
  | .implementation => own
  | .reference => (refIirCoef kind fs fc).getD own

/-! ## `FIR_COEF` (R205, R206)

Every `v_j` and their sum `S` are taken divided by `ωc/π`, which is above zero: `sinc_j` becomes `sin(y)/y` at
`y = ωc (j - C_F)`, and 1 at the centre. The quotients `v_j / S` do not change. -/

/-- The Hamming window `wH(j)` of `len` taps. -/
def hamming (len j : Nat) : Encl :=
  let c := enclCos j (len - 1)
  let k := enclScale c.mag 46 100
  if c.neg then enclAdd (enclRat 54 100) k else enclSub (enclRat 54 100) k

/-- `v_j / (ωc/π)` for `j` up to the centre tap. -/
def firTerm (len : Nat) (fs fc : F64) (j : Nat) : SignedEncl :=
  let x := enclSinc (((len - 1) / 2 - j) * fUnits fc) (fUnits fs)
  ⟨x.neg, enclMul x.mag (hamming len j)⟩

/-- The terms `j = 0 .. C_F`; the others are their mirrors. -/
def firTerms (len : Nat) (fs fc : F64) : List SignedEncl :=
  (List.range ((len - 1) / 2 + 1)).map (firTerm len fs fc)

/-- The sum of the terms below the centre and their mirrors, between two integers. -/
def firSides (len : Nat) (ts : List SignedEncl) : Int × Int :=
  let half := ts.take ((len - 1) / 2)
  (2 * (half.map SignedEncl.lo).sum, 2 * (half.map SignedEncl.hi).sum)

/-- The sum `S` of all terms, between two integers. -/
def firSum (len : Nat) (ts : List SignedEncl) : Int × Int :=
  let c := ts.getD ((len - 1) / 2) ⟨false, ⟨0, 0⟩⟩
  let b := firSides len ts
  (b.1 + c.lo, b.2 + c.hi)

/-- Whether `S(fs, fc) > 0` (R205, R207), where `fs > 0` and `2 |fc| < fs`: there the exact sum has the sign of the cutoff,
whatever the number of taps and the rate, so the comparison with zero is one of the cutoff (DEDUCED, log 7; proved as
`firSumPositive_iff` in Laws/FirSum.lean). -/
def firSumPositive (_len : Nat) (_fs fc : F64) : Bool := fLt posZero fc

/-- The reference taps `FIR_COEF(kind, fs, fc)[0 .. len-1]`, where the enclosures settle all of them. -/
def refFirCoef (len : Nat) (kind : FilterKind) (fs fc : F64) : Option (List F64) :=
  let ts := firTerms len fs fc
  let s := firSum len ts
  let y : Encl := ⟨s.1.toNat, s.2.toNat⟩
  let sides := firSides len ts
  let tap := fun j : Nat =>
    let v := ts.getD j ⟨false, ⟨0, 0⟩⟩
    match kind with
    | .lpf => roundEncl v.lo v.hi y
    | .hpf => if j = (len - 1) / 2 then roundEncl sides.1 sides.2 y else roundEncl (-v.hi) (-v.lo) y
  let half := (List.range ((len - 1) / 2 + 1)).mapM tap
  half.map fun h => h ++ (h.take ((len - 1) / 2)).reverse

/-- `FIR_COEF(kind, fs, fc)` of a configuration (`00_scope.md` R9). -/
def firCoef (cfg : Config) (kind : FilterKind) (fs fc : F64) : List F64 :=
  let own := (List.range cfg.firLen).map fun j => (freeFirCoef cfg.firLen kind fs fc j).bits
  match cfg.coefs with
  | .implementation => own
  | .reference => (refFirCoef cfg.firLen kind fs fc).getD own

end Sys2Proof.Machine
end

