-- ==== Sys2Proof/Decode.lean ====
section
/-! DEFINITION. Decoding a command packet in the check order of `30_encoding.md` R97, total on any bytes, and after it the
encoder, written from the same encoding tables (R90-R96). -/

namespace Sys2Proof

/-! ## Words and bytes -/

/-- The eight bytes of a word, byte `k` being bits `8k+7 : 8k` (`20_memory.md` R74). -/
def wordToBytes (w : Word) : List Byte :=
  (List.range 8).map fun k => BitVec.ofNat 8 (w.toNat / 2 ^ (8 * k))

/-- The word of eight bytes, least significant first (R74). -/
def bytesToWord (b0 b1 b2 b3 b4 b5 b6 b7 : Byte) : Word :=
  BitVec.ofNat 64 (b0.toNat + 2 ^ 8 * b1.toNat + 2 ^ 16 * b2.toNat + 2 ^ 24 * b3.toNat + 2 ^ 32 * b4.toNat
    + 2 ^ 40 * b5.toNat + 2 ^ 48 * b6.toNat + 2 ^ 56 * b7.toNat)

/-- The whole words of a byte list; up to seven bytes left over at the end are dropped. -/
def wordsOf : List Byte → List Word
  | b0 :: b1 :: b2 :: b3 :: b4 :: b5 :: b6 :: b7 :: rest => bytesToWord b0 b1 b2 b3 b4 b5 b6 b7 :: wordsOf rest
  | _ => []

/-- The bytes of a list of words, first word first. -/
def bytesOf (ws : List Word) : List Byte := ws.flatMap wordToBytes

/-! ## Header fields (`30_encoding.md` R91) -/

/-- `H[7:0]`. -/
def opcField (h : Word) : Byte := BitVec.ofNat 8 h.toNat

/-- `H[15:8]`. -/
def unitField (h : Word) : Byte := BitVec.ofNat 8 (h.toNat / 2 ^ 8)

/-- `H[23:16]`. -/
def immField (h : Word) : Byte := BitVec.ofNat 8 (h.toNat / 2 ^ 16)

/-- `H[63:24]`, which must be zero. -/
def rsvField (h : Word) : Nat := h.toNat / 2 ^ 24

/-- The header word of an opcode, unit and immediate, with `RSV = 0`. -/
def headerWord (opc unit imm : Byte) : Word :=
  BitVec.ofNat 64 (opc.toNat + 2 ^ 8 * unit.toNat + 2 ^ 16 * imm.toNat)

/-! ## The opcode map (R96) -/

/-- The `OPC` value of a command. -/
def opCode : Op → Byte
  | .nop => 0x00
  | .configure => 0x01
  | .setCarrier => 0x02
  | .setCutoff => 0x03
  | .setMix => 0x04
  | .processFrame => 0x05
  | .reset => 0x06
  | .readState => 0x07
  | .udlEnqueue => 0x20
  | .udlRead => 0x21
  | .udlReset => 0x22
  | .uddsSetup => 0x28
  | .uddsProcess => 0x29
  | .uddsReset => 0x2A
  | .uddsRead => 0x2B
  | .uhtProcess => 0x30
  | .uhtReset => 0x31
  | .uiirSetup => 0x38
  | .uiirProcess => 0x39
  | .uiirReset => 0x3A
  | .ufirSetup => 0x40
  | .ufirProcess => 0x41
  | .ufirReset => 0x42
  | .umix => 0x48

/-- Every command, in opcode order. -/
def allOps : List Op :=
  [.nop, .configure, .setCarrier, .setCutoff, .setMix, .processFrame, .reset, .readState, .udlEnqueue, .udlRead,
    .udlReset, .uddsSetup, .uddsProcess, .uddsReset, .uddsRead, .uhtProcess, .uhtReset, .uiirSetup, .uiirProcess,
    .uiirReset, .ufirSetup, .ufirProcess, .ufirReset, .umix]

/-- The command an `OPC` byte names; none for the reserved and custom spaces (R98). -/
def opOfCode (b : Byte) : Option Op := allOps.find? fun op => opCode op == b

/-- The legal `UNIT` values of a command (R94, R96). -/
def legalUnits : Op → List Byte
  | .udlEnqueue | .udlRead | .udlReset => [0x20, 0x21]
  | .uhtProcess | .uhtReset => [0x10, 0x11]
  | .uiirSetup | .uiirProcess | .uiirReset => [0x30, 0x31, 0x32, 0x33, 0x34, 0x35, 0x36, 0x37]
  | .ufirSetup | .ufirProcess | .ufirReset => [0x40, 0x41]
  | _ => [0x00]

/-- The reserved bits of a command's `IMM8` (R95). -/
def reservedImm : Op → Byte
  | .setCarrier | .uddsProcess => 0x00
  | .setCutoff => 0xFC
  | .processFrame => 0xF8
  | .umix => 0xFE
  | _ => 0xFF

/-- The payload word count `k` of a command (R96). -/
def payloadCount : Op → Nat
  | .configure | .setCarrier | .setCutoff | .setMix => 1
  | .processFrame => 2
  | .udlEnqueue | .udlRead => 1
  | .uddsSetup => 2
  | .uhtProcess => 1
  | .uiirSetup => 2
  | .uiirProcess => 1
  | .ufirSetup => 2
  | .ufirProcess => 1
  | .umix => 4
  | _ => 0

/-! ## Operand assembly (R94, R95, R100) -/

/-- The channel of a Hilbert, dry or IIR unit id: `UNIT[0]`. -/
def chanOfUnit (u : Byte) : Chan := if u.getLsbD 0 then .right else .left

/-- The FIR instance of a FIR unit id: `UNIT[0]`, 0 low-pass, 1 high-pass. -/
def kindOfUnit (u : Byte) : FilterKind := if u.getLsbD 0 then .hpf else .lpf

/-- The stage of a number 0..3 (`10_state.md` R42). -/
def stageOfNat : Nat → Stage
  | 0 => .inHpf
  | 1 => .inLpf
  | 2 => .outHpf
  | _ => .outLpf

/-- The stage of an IIR unit id: `(UNIT - 0x30) div 2`. -/
def stageOfUnit (u : Byte) : Stage := stageOfNat ((u.toNat - 0x30) / 2)

/-- SET_CUTOFF's stage: `IMM8[1:0]`. -/
def stageOfImm (imm : Byte) : Stage := stageOfNat (imm.toNat % 4)

/-- The command with its operands, from a header's unit and immediate and the payload words. The decoder calls it only
when the checks of R97 have passed, so every payload word it reads is present. -/
def assemble (op : Op) (unit imm : Byte) (ps : List Word) : Instr :=
  let p := fun n => ps.getD n 0
  match op with
  | .nop => .nop
  | .configure => .configure (p 0)
  | .setCarrier => .setCarrier imm (p 0)
  | .setCutoff => .setCutoff (stageOfImm imm) (p 0)
  | .setMix => .setMix (p 0)
  | .processFrame => .processFrame (imm.getLsbD 0) (imm.getLsbD 1) (imm.getLsbD 2) (p 0) (p 1)
  | .reset => .reset
  | .readState => .readState
  | .udlEnqueue => .udlEnqueue (chanOfUnit unit) (p 0)
  | .udlRead => .udlRead (chanOfUnit unit) (p 0)
  | .udlReset => .udlReset (chanOfUnit unit)
  | .uddsSetup => .uddsSetup (p 0) (p 1)
  | .uddsProcess => .uddsProcess imm
  | .uddsReset => .uddsReset
  | .uddsRead => .uddsRead
  | .uhtProcess => .uhtProcess (chanOfUnit unit) (p 0)
  | .uhtReset => .uhtReset (chanOfUnit unit)
  | .uiirSetup => .uiirSetup (stageOfUnit unit) (chanOfUnit unit) (p 0) (p 1)
  | .uiirProcess => .uiirProcess (stageOfUnit unit) (chanOfUnit unit) (p 0)
  | .uiirReset => .uiirReset (stageOfUnit unit) (chanOfUnit unit)
  | .ufirSetup => .ufirSetup (kindOfUnit unit) (p 0) (p 1)
  | .ufirProcess => .ufirProcess (kindOfUnit unit) (p 0)
  | .ufirReset => .ufirReset (kindOfUnit unit)
  | .umix => .umix (imm.getLsbD 0) (p 0) (p 1) (p 2) (p 3)

/-! ## The decoder (R97, R98, `60_exceptions.md` R301, R302) -/

/-- Why a packet is illegal: the status of the first failing check, and the opcode byte its response echoes (R301). -/
structure DecodeError where
  status : Status
  echo : Byte
deriving DecidableEq, Repr

/-- Checks 2 to 6 of R97 on a header word and its payload words. -/
def decodeWords (h : Word) (ps : List Word) : Except DecodeError Instr :=
  match opOfCode (opcField h) with
  | none => .error ⟨.illegalOpcode, opcField h⟩
  | some op =>
    if rsvField h ≠ 0 then .error ⟨.reservedBits, opcField h⟩
    else if unitField h ∉ legalUnits op then .error ⟨.illegalUnit, opcField h⟩
    else if immField h &&& reservedImm op ≠ 0 then .error ⟨.reservedBits, opcField h⟩
    else if ps.length ≠ payloadCount op then .error ⟨.illegalLength, opcField h⟩
    else .ok (assemble op (unitField h) (immField h) ps)

/-- The opcode a framing error echoes: the low byte of the first complete word, 0 where there is none (R301). -/
def framingEcho (bs : Packet) : Byte := if bs.length < 8 then 0 else bs.headD 0

/-- Decode a packet: check 1 of R97 on its bytes, then the rest on its words. Check 7 (operand range) needs the size of
the addressed line and stands in UDL_READ's meaning. -/
def decode (bs : Packet) : Except DecodeError Instr :=
  if bs.length % 8 ≠ 0 then .error ⟨.illegalLength, framingEcho bs⟩
  else
    match wordsOf bs with
    | [] => .error ⟨.illegalLength, 0⟩
    | h :: ps => decodeWords h ps

/-! ## The encoder -/

def chanBit : Chan → Nat
  | .left => 0
  | .right => 1

def kindBit : FilterKind → Nat
  | .lpf => 0
  | .hpf => 1

def stageNum : Stage → Nat
  | .inHpf => 0
  | .inLpf => 1
  | .outHpf => 2
  | .outLpf => 3

/-- `0x10`, `0x11` (R94). -/
def htUnit (c : Chan) : Byte := BitVec.ofNat 8 (0x10 + chanBit c)

/-- `0x20`, `0x21` (R94). -/
def dryUnit (c : Chan) : Byte := BitVec.ofNat 8 (0x20 + chanBit c)

/-- `0x30 + 2s + c` (R94). -/
def iirUnit (s : Stage) (c : Chan) : Byte := BitVec.ofNat 8 (0x30 + 2 * stageNum s + chanBit c)

/-- `0x40`, `0x41` (R94). -/
def firUnit (k : FilterKind) : Byte := BitVec.ofNat 8 (0x40 + kindBit k)

/-- PROCESS_FRAME's immediate (R95). -/
def frameImm (bypass silL silR : Bool) : Byte :=
  BitVec.ofNat 8 (bypass.toNat + 2 * silL.toNat + 4 * silR.toNat)

/-- The header word of a command addressed to a unit. -/
def opHeader (op : Op) (unit imm : Byte) : Word := headerWord (opCode op) unit imm

/-- The words of a command (R90, R96). -/
def encodeWords : Instr → List Word
  | .nop => [opHeader .nop 0 0]
  | .configure fs => [opHeader .configure 0 0, fs]
  | .setCarrier wave f => [opHeader .setCarrier 0 wave, f]
  | .setCutoff s hz => [opHeader .setCutoff 0 (BitVec.ofNat 8 (stageNum s)), hz]
  | .setMix wet => [opHeader .setMix 0 0, wet]
  | .processFrame bypass silL silR inL inR => [opHeader .processFrame 0 (frameImm bypass silL silR), inL, inR]
  | .reset => [opHeader .reset 0 0]
  | .readState => [opHeader .readState 0 0]
  | .udlEnqueue c x => [opHeader .udlEnqueue (dryUnit c) 0, x]
  | .udlRead c i => [opHeader .udlRead (dryUnit c) 0, i]
  | .udlReset c => [opHeader .udlReset (dryUnit c) 0]
  | .uddsSetup fs f => [opHeader .uddsSetup 0 0, fs, f]
  | .uddsProcess wave => [opHeader .uddsProcess 0 wave]
  | .uddsReset => [opHeader .uddsReset 0 0]
  | .uddsRead => [opHeader .uddsRead 0 0]
  | .uhtProcess c x => [opHeader .uhtProcess (htUnit c) 0, x]
  | .uhtReset c => [opHeader .uhtReset (htUnit c) 0]
  | .uiirSetup s c fs fc => [opHeader .uiirSetup (iirUnit s c) 0, fs, fc]
  | .uiirProcess s c x => [opHeader .uiirProcess (iirUnit s c) 0, x]
  | .uiirReset s c => [opHeader .uiirReset (iirUnit s c) 0]
  | .ufirSetup k fs fc => [opHeader .ufirSetup (firUnit k) 0, fs, fc]
  | .ufirProcess k x => [opHeader .ufirProcess (firUnit k) 0, x]
  | .ufirReset k => [opHeader .ufirReset (firUnit k) 0]
  | .umix lower z zH x xH => [opHeader .umix 0 (BitVec.ofNat 8 lower.toNat), z, zH, x, xH]

/-- The packet of a command, serialised (R74, R90). -/
def encode (i : Instr) : Packet := bytesOf (encodeWords i)

/-! ## Words numbered as the opcode table numbers them -/

/-- The packet of an instruction whose bits are `w`, bit 0 the least significant bit of the header word, word `j` being
bits `64j+63 : 64j`. Bits at `nbits` and above are zero. It has the header and as many payload words as the header's
opcode asks for (R96), more if `nbits` reaches further. -/
def tablePacket (nbits w : Nat) : Packet :=
  let bits := w % 2 ^ nbits
  let k := match opOfCode (opcField (BitVec.ofNat 64 bits)) with
    | some op => payloadCount op
    | none => 0
  bytesOf ((List.range (max (1 + k) ((nbits + 63) / 64))).map fun j => BitVec.ofNat 64 (bits / 2 ^ (64 * j)))

/-- The instruction the decoder reads from an instruction whose bits are `w`. -/
def decodeTableWord (nbits w : Nat) : Option Instr :=
  match decode (tablePacket nbits w) with
  | .ok i => some i
  | .error _ => none

end Sys2Proof
end

