-- ==== Sys2Proof/Machine/State.lean ====
section
/-! DEFINITION. The state of the AudioQAM CORE (`10_state.md` R30-R39) as plain data, its faults and refusals, and the
state at power-on. -/

namespace Sys2Proof.Machine

open Sys2Proof

/-- A delay-line instance (`40_delay_line.md` R120): `BUF`, whose length is the capacity, and `WP`, the slot of the most
recent enqueue. -/
structure DelayLine where
  buf : List F64
  wp : Nat
deriving DecidableEq, Repr

/-- The DDS registers (`10_state.md` R35). They are mathematical integers (`00_scope.md` R13). -/
structure Dds where
  /-- `PHASE`. -/
  phase : Nat
  /-- `T`, the nominal step. -/
  step : Nat
  /-- `E`, the doubled error term. -/
  err : Int
  /-- `INC_S`. -/
  incS : Int
  /-- `INC_F`. -/
  incF : Int
  /-- `SRC`; none is `INVALID`. -/
  src : Option F64
  /-- `DDS_V`. -/
  valid : Bool
deriving DecidableEq, Repr

/-- A biquad instance (`10_state.md` R37): coefficients with their valid bit, and the previous two inputs and outputs. -/
structure Iir where
  b0 : F64
  b1 : F64
  b2 : F64
  a1 : F64
  a2 : F64
  coefV : Bool
  x1 : F64
  x2 : F64
  y1 : F64
  y2 : F64
deriving DecidableEq, Repr

/-- A FIR instance (`10_state.md` R38). -/
structure Fir where
  h : List F64
  pass : Bool
  fs : F64
  fc : F64
  coefV : Bool
  dl : DelayLine
deriving DecidableEq, Repr

/-- A response packet (`30_encoding.md` R90, R92): the status word and the result words. -/
structure Response where
  status : Word
  results : List Word
deriving DecidableEq, Repr

/-- The whole state. The fields down to `fir` are the spec's (R32-R39); `cmds` and `resp` are the command port (R70);
`nanCount` is the model's own. -/
structure State where
  /-- The configuration: sizes and read-only tables (R7, R39). No command writes it. -/
  cfg : Config
  /-- `SR` and `SR_V` (R32). -/
  sr : F64
  srV : Bool
  /-- `CF`, `WF` and `CF_V` (R32). -/
  cf : F64
  wf : BitVec 8
  cfV : Bool
  /-- `FC[s]` and `FC_V[s]` (R32, R42). -/
  fc : Staged F64
  fcV : Staged Bool
  /-- `WET`, `DRYG` and `MIX_V` (R32). -/
  wet : F64
  dryg : F64
  mixV : Bool
  /-- `RESET_PENDING` (R33). -/
  resetPending : Bool
  /-- `SW` (R34): true is SWITCHING. -/
  sw : Bool
  /-- The DDS (R35). -/
  dds : Dds
  /-- `DRY[c]` (R36). -/
  dry : Stereo DelayLine
  /-- `HT[c].DL` (R36). -/
  ht : Stereo DelayLine
  /-- `IIR[s][c]` (R37). -/
  iir : Staged (Stereo Iir)
  /-- `FIR[k]` (R38). -/
  fir : PerKind Fir
  /-- The model's count of commands that did sample arithmetic; it numbers the free NaN results (R305, log 9). -/
  nanCount : Nat
  /-- Command packets delivered and not yet executed, next first (R70, R90, log 1). -/
  cmds : List Packet
  /-- The response of the last command (R90, log 1). -/
  resp : Option Response
deriving DecidableEq, Repr

/-- The block has no exceptions and no traps (`60_exceptions.md` R300): nothing raises a fault, so there is none. -/
inductive Fault where
deriving DecidableEq, Repr

/-- Why the model gives a command no meaning: the reasons of `60_exceptions.md` R304, each raised where that rule says.
All are safe: a refused command has no next state, so nothing is claimed of what hardware does with it. -/
inductive Refusal where
  /-- No meaning is written yet; raised by no instruction of this model. Safe. -/
  | notModelled (mnemonic : String)
  /-- CONFIGURE, UDDS_SETUP, UIIR_SETUP, UFIR_SETUP: a rate outside the domain. Safe. -/
  | domainRate
  /-- SET_CARRIER, UDDS_SETUP: a frequency outside the domain. Safe. -/
  | domainFreq
  /-- SET_CUTOFF, CONFIGURE, UIIR_SETUP, UFIR_SETUP: a cutoff outside the domain. Safe. -/
  | domainCutoff
  /-- SET_MIX: a wet fraction outside `[0, 1]`. Safe. -/
  | domainMix
  /-- UFIR_SETUP, CONFIGURE: the windowed sinc sum is not positive, which no cutoff of the domain gives (log 7). Safe. -/
  | firDegenerate
  /-- UDDS_PROCESS: the DDS was never set up. Safe. -/
  | ddsNotSetUp
  /-- UIIR_PROCESS: the biquad was never set up. Safe. -/
  | iirNotSetUp
  /-- UFIR_PROCESS: the FIR was never set up. Safe. -/
  | firNotSetUp
  /-- PROCESS_FRAME, not bypass: a parameter holds no value. Safe. -/
  | notConfigured
  /-- PROCESS_FRAME, not bypass: a rate change with no RESET after it (R324). Safe. -/
  | resetPending
deriving DecidableEq, Repr

/-- What a command answers. -/
abbrev Result := Host.Outcome State Fault Refusal

/-- A delay line of `cap` words at power-on (R36): every word `+0.0`, `WP = 0`. -/
def DelayLine.powerOn (cap : Nat) : DelayLine := { buf := List.replicate cap 0#64, wp := 0 }

/-- The DDS at power-on (R35). -/
def Dds.powerOn : Dds :=
  { phase := 0, step := 0, err := 0, incS := 0, incF := 0, src := none, valid := false }

/-- A biquad at power-on (R37); the coefficients hold no value (`+0.0`, DESIGN CHOICE, log 8). -/
def Iir.powerOn : Iir :=
  { b0 := 0#64, b1 := 0#64, b2 := 0#64, a1 := 0#64, a2 := 0#64, coefV := false
    x1 := 0#64, x2 := 0#64, y1 := 0#64, y2 := 0#64 }

/-- A FIR at power-on (R38); `H`, `FS`, `FC` hold no value (`+0.0`, DESIGN CHOICE, log 8). -/
def Fir.powerOn (len : Nat) : Fir :=
  { h := List.replicate len 0#64, pass := false, fs := 0#64, fc := 0#64, coefV := false
    dl := DelayLine.powerOn len }

/-- The block at power-on, built with configuration `c` (`70_reset_and_hazards.md` R320). The parameter registers hold no
value (`+0.0` and 0, DESIGN CHOICE, log 8); no command waits and none has answered (log 1). -/
def State.powerOn (c : Config) : State :=
  { cfg := c
    sr := 0#64, srV := false
    cf := 0#64, wf := 0#8, cfV := false
    fc := ⟨0#64, 0#64, 0#64, 0#64⟩, fcV := ⟨false, false, false, false⟩
    wet := 0#64, dryg := 0#64, mixV := false
    resetPending := false
    sw := false
    dds := Dds.powerOn
    dry := ⟨DelayLine.powerOn c.dryCap, DelayLine.powerOn c.dryCap⟩
    ht := ⟨DelayLine.powerOn c.htLen, DelayLine.powerOn c.htLen⟩
    iir := ⟨⟨Iir.powerOn, Iir.powerOn⟩, ⟨Iir.powerOn, Iir.powerOn⟩, ⟨Iir.powerOn, Iir.powerOn⟩,
      ⟨Iir.powerOn, Iir.powerOn⟩⟩
    fir := ⟨Fir.powerOn c.firLen, Fir.powerOn c.firLen⟩
    nanCount := 0
    cmds := []
    resp := none }

/-- The block at power-on, with the hardware's configuration (R320, logs 3, 4, 5). -/
def State.reset : State := State.powerOn Config.hardware

end Sys2Proof.Machine
end

