-- ==== Sys2Proof/Machine/Flags.lean ====
section
/-! DEFINITION. Status words, the READ_STATE word, and the sideband-switching flag `SW`: every bit the block reports or
tests. -/

namespace Sys2Proof.Machine

open Sys2Proof

/-! ## Status words (`30_encoding.md` R92, `60_exceptions.md` R301) -/

/-- The code of a status (R301). -/
def statusCode : Status → Nat
  | .ok => 0x00
  | .illegalOpcode => 0x01
  | .reservedBits => 0x02
  | .illegalUnit => 0x03
  | .illegalLength => 0x04
  | .operandRange => 0x05

/-- The status word (R92): `STATUS` in bits 7:0, `OPC_ECHO` in 15:8, `SIL_OUT_L` in 16, `SIL_OUT_R` in 17. -/
def statusWord (st : Status) (echo : Byte) (silL silR : Bool) : Word :=
  BitVec.ofNat 64 (statusCode st + 2 ^ 8 * echo.toNat + 2 ^ 16 * silL.toNat + 2 ^ 17 * silR.toNat)

/-! ## The observation word (`45_pipeline.md` R268) -/

/-- READ_STATE's result word. -/
def stateWord (s : State) : Word :=
  BitVec.ofNat 64 (s.sw.toNat
    + 2 ^ 1 * s.resetPending.toNat
    + 2 ^ 2 * s.srV.toNat
    + 2 ^ 3 * s.cfV.toNat
    + 2 ^ 4 * s.fcV.inHpf.toNat
    + 2 ^ 5 * s.fcV.inLpf.toNat
    + 2 ^ 6 * s.fcV.outHpf.toNat
    + 2 ^ 7 * s.fcV.outLpf.toNat
    + 2 ^ 8 * s.mixV.toNat
    + 2 ^ 9 * s.dds.valid.toNat
    + 2 ^ 10 * s.fir.lpf.coefV.toNat
    + 2 ^ 11 * s.fir.hpf.coefV.toNat
    + 2 ^ 12 * s.fir.lpf.pass.toNat
    + 2 ^ 13 * s.fir.hpf.pass.toNat)

/-! ## The switching flag (`44_mixer.md` R241-R243) -/

/-- `SW_THRESH = RN(0.01)` (`00_scope.md` R7, `92_eei_decisions.md` D45). -/
def swThresh : F64 := 0x3F847AE147AE147B#64

/-- `f < 0`: the sign class of a carrier frequency; `-0.0` is not negative (R241, R242). -/
def carrierNeg (f : F64) : Bool := fLt f posZero

/-- `SW` after SET_CARRIER's flip test (R242): a change of the sign class toggles it, if there is a previous value. -/
def swAfterCarrier (sw cfV : Bool) (cf f : F64) : Bool :=
  if cfV && carrierNeg cf != carrierNeg f then !sw else sw

/-- `SW` after a frame's clear test on its carrier quadrature sample (R243). -/
def swAfterFrame (sw : Bool) (xH : F64) : Bool :=
  if sw && fLt (fAbs xH) swThresh then false else sw

/-- The selection predicate (R241): true picks the lower-sideband formula. -/
def selectLower (sw : Bool) (cf : F64) : Bool :=
  (!sw && carrierNeg cf) || (sw && !carrierNeg cf)

end Sys2Proof.Machine
end

