-- ==== Sys2Proof/Machine/Operands.lean ====
section
/-! DEFINITION. The operand domains of the commands (`60_exceptions.md` R304): what a rate, a frequency, a cutoff and a wet
fraction must satisfy, with the comparisons the rules call exact made on exact values. -/

namespace Sys2Proof.Machine

open Sys2Proof

/-- `0.5`. -/
def fHalf : F64 := 0x3FE0000000000000#64

/-- `2^53`. -/
def fTwo53 : F64 := 0x4340000000000000#64

/-- `fs finite and 0.5 <= fs < 2^53` (`41_dds.md` R141, `45_pipeline.md` R262). -/
def rateOk (fs : F64) : Bool := fFinite fs && fLe fHalf fs && fLt fs fTwo53

/-- `fs finite and fs > 0` (`43_filters.md` R202, R207). -/
def filterRateOk (fs : F64) : Bool := fFinite fs && fLt posZero fs

/-- `2 × fc < fs`, compared exactly (R202, R207, R262, R264). -/
def twiceBelow (fc fs : F64) : Bool := fFinite fc && fFinite fs && decide (2 * fInt fc < fInt fs)

/-- `fc finite and fc >= 0` (R202, R264). -/
def cutoffOk (fc : F64) : Bool := fFinite fc && fLe posZero fc

/-- `fc finite and fc > 0` (R207). -/
def firCutoffOk (fc : F64) : Bool := fFinite fc && fLt posZero fc

/-- `f ⊗ WT_LEN` (R141). Neither operand is a NaN or an infinity where it is used, so no NaN results. -/
def freqProduct (cfg : Config) (f : F64) : F64 := fMul [] f (fOfNat cfg.wtLen)

/-- `f finite and (|f| ⊗ WT_LEN) < 2^53` (`45_pipeline.md` R263). -/
def carrierOk (cfg : Config) (f : F64) : Bool := fFinite f && fLt (freqProduct cfg (fAbs f)) fTwo53

/-- `f finite and f >= 0 and (f ⊗ WT_LEN) < 2^53` (R141). -/
def ddsFreqOk (cfg : Config) (f : F64) : Bool :=
  fFinite f && fLe posZero f && fLt (freqProduct cfg f) fTwo53

/-- `0 <= wet and wet <= 1`; a NaN fails (`45_pipeline.md` R265). -/
def wetOk (wet : F64) : Bool := fLe posZero wet && fLe wet fOne

end Sys2Proof.Machine
end

