-- ==== Sys2Proof/Machine/Ops.lean ====
section
/-! DEFINITION. The operations the commands share: responses and refusals, the delay line, the DDS, the Hilbert
transformer, the filters, the mixing law, and the frame datapath of one channel. The block takes no traps (`60_exceptions.md`
R300), so there is no exception entry and no return from one. -/

namespace Sys2Proof.Machine

open Sys2Proof

/-! ## Ending a command (`00_scope.md` R15) -/

/-- `respond(OK, q...)`: the state with the response packet (R92). -/
def respond (s : State) (op : Op) (qs : List Word) : State :=
  { s with resp := some ⟨statusWord .ok (opCode op) false false, qs⟩ }

/-- A response whose silence bits are given, which only PROCESS_FRAME sends (R92). -/
def respondSilence (s : State) (op : Op) (silL silR : Bool) (qs : List Word) : State :=
  { s with resp := some ⟨statusWord .ok (opCode op) silL silR, qs⟩ }

/-- `status <Code>`: a non-OK status, no result words and no other change (`60_exceptions.md` R301, R303). -/
def respondStatus (s : State) (st : Status) (echo : Byte) : State :=
  { s with resp := some ⟨statusWord st echo false false, []⟩ }

/-- The command's answer, from what its setups answer. -/
def finish (op : Op) (r : Except Refusal State) : Result :=
  match r with
  | .ok s => .next (respond s op [])
  | .error e => .refused e

/-- The place of a command's NaN results (log 9). -/
def nanTag (s : State) : NanTag := [s.nanCount]

/-- The next command's NaN results are free anew (log 9). -/
def bumpNan (s : State) : State := { s with nanCount := s.nanCount + 1 }

/-! ## Delay line (`40_delay_line.md` R121-R123) -/

/-- `DL_ENQ(u, v)`. -/
def dlEnq (u : DelayLine) (v : F64) : DelayLine :=
  let w := (u.wp + 1) % u.buf.length
  { buf := u.buf.set w v, wp := w }

/-- `DL_READ(u, i)`. Inside the model's invariant the index is always in the buffer (log 12). -/
def dlRead (u : DelayLine) (i : Nat) : F64 :=
  u.buf.getD ((u.wp + u.buf.length - i) % u.buf.length) posZero

/-- `DL_CLEAR(u)`. -/
def dlClear (u : DelayLine) : DelayLine := { buf := List.replicate u.buf.length posZero, wp := 0 }

/-! ## DDS (`41_dds.md` R141-R143, R146) -/

/-- A sample-rate change (R141): `SRC = INVALID or fs ≠ SRC`. -/
def rateChanged (src : Option F64) (fs : F64) : Bool :=
  match src with
  | none => true
  | some r => !fEq fs r

/-- `N = round(f ⊗ WT_LEN)` (R141). -/
def ddsN (cfg : Config) (f : F64) : Nat := (fRound (freqProduct cfg f)).toNat

/-- `M = round(fs)` (R141). -/
def ddsM (fs : F64) : Nat := (fRound fs).toNat

/-- The register writes of `DDS_SETUP(fs, f)` (R141), inside its domain. -/
def ddsLoad (cfg : Config) (d : Dds) (fs f : F64) : Dds :=
  let n := ddsN cfg f
  let m := ddsM fs
  let r : Int := (n % m : Nat)
  let d' := { d with step := n / m, incS := 2 * r, incF := 2 * r - 2 * (m : Int), valid := true }
  if rateChanged d.src fs then { d' with phase := 0, err := 2 * r - (m : Int), src := some fs } else d'

/-- `DDS_SETUP(fs, f)` (R141). -/
def ddsSetup (cfg : Config) (d : Dds) (fs f : F64) : Except Refusal Dds :=
  if !rateOk fs then .error .domainRate
  else if !ddsFreqOk cfg f then .error .domainFreq
  else .ok (ddsLoad cfg d fs f)

/-- `LOOKUP(w, p)` (R146): quarter-wave symmetry for sine, triangle and square, half-wave for the sawtooth, a zero pair
for the unsupported waveforms. -/
def lookup (cfg : Config) (w : BitVec 8) (p : Nat) : F64 × F64 :=
  let w := w.toNat
  if w < 3 then
    let k := p / cfg.q4
    let r := p % cfg.q4
    if k = 0 then (cfg.romD w r, cfg.romH w r)
    else if k = 1 then (cfg.romD w (cfg.q4 - r), fNeg (cfg.romH w (cfg.q4 - r)))
    else if k = 2 then (fNeg (cfg.romD w r), fNeg (cfg.romH w r))
    else (fNeg (cfg.romD w (cfg.q4 - r)), cfg.romH w (cfg.q4 - r))
  else if w = 3 then
    if p ≤ cfg.half then (cfg.romD 3 p, cfg.romH 3 p)
    else (fNeg (cfg.romD 3 (cfg.wtLen - p)), cfg.romH 3 (cfg.wtLen - p))
  else (posZero, posZero)

/-- The register writes of `DDS_PROCESS` (R142): a slow step where `E < 0`, a fast step otherwise. -/
def ddsAdvance (cfg : Config) (d : Dds) : Dds :=
  if d.err < 0 then { d with phase := (d.phase + d.step) % cfg.wtLen, err := d.err + d.incS }
  else { d with phase := (d.phase + d.step + 1) % cfg.wtLen, err := d.err + d.incF }

/-- `DDS_RESET` (R143). -/
def ddsReset (d : Dds) : Dds := { d with phase := 0, err := (d.incS + d.incF) / 2, src := none }

/-! ## Hilbert transformer (`42_hilbert.md` R181) -/

/-- The quadrature sum: taps in ascending offset, starting from the product of tap 0. -/
def htSum (t : NanTag) (cfg : Config) (u : DelayLine) : F64 :=
  (List.range' 1 cfg.centreH).foldl
    (fun q m => fAdd ((2 * m + 1) :: t) q (fMul ((2 * m) :: t) (cfg.tapG m) (dlRead u (2 * m))))
    (fMul (0 :: t) (cfg.tapG 0) (dlRead u 0))

/-- `HT_PROCESS(u, x)`: the line after the enqueue, and the pair `(i, q)`. -/
def htProcess (t : NanTag) (cfg : Config) (u : DelayLine) (x : F64) : DelayLine × F64 × F64 :=
  let u := dlEnq u x
  (u, dlRead u cfg.centreH, htSum t cfg u)

/-! ## Biquad (`43_filters.md` R201-R203) -/

/-- The output of `IIR_PROCESS(u, x)`, in the order R201 evaluates it. -/
def iirOut (t : NanTag) (u : Iir) (x : F64) : F64 :=
  let y := fAdd (2 :: t) (fMul (0 :: t) u.b0 x) (fMul (1 :: t) u.b1 u.x1)
  let y := fAdd (4 :: t) y (fMul (3 :: t) u.b2 u.x2)
  let y := fSub (6 :: t) y (fMul (5 :: t) u.a1 u.y1)
  fSub (8 :: t) y (fMul (7 :: t) u.a2 u.y2)

/-- The state registers after an input and its output. -/
def iirShift (u : Iir) (x y : F64) : Iir := { u with x2 := u.x1, x1 := x, y2 := u.y1, y1 := y }

/-- `IIR_PROCESS(u, x)`, for an instance whose `COEF_V` is 1. -/
def iirProcess (t : NanTag) (u : Iir) (x : F64) : Iir × F64 :=
  let y := iirOut t u x
  (iirShift u x y, y)

/-- The register writes of `IIR_SETUP(u, fs, fc)`: the coefficients and their valid bit, the state kept (R202). -/
def iirLoad (cfg : Config) (kind : FilterKind) (u : Iir) (fs fc : F64) : Iir :=
  let k := iirCoef cfg kind fs fc
  { u with b0 := k.b0, b1 := k.b1, b2 := k.b2, a1 := k.a1, a2 := k.a2, coefV := true }

/-- `IIR_SETUP(u, fs, fc)` (R202). -/
def iirSetup (cfg : Config) (kind : FilterKind) (u : Iir) (fs fc : F64) : Except Refusal Iir :=
  if !filterRateOk fs then .error .domainRate
  else if !(cutoffOk fc && twiceBelow fc fs) then .error .domainCutoff
  else .ok (iirLoad cfg kind u fs fc)

/-- `IIR_RESET(u)` (R203). -/
def iirReset (u : Iir) : Iir := { u with x1 := posZero, x2 := posZero, y1 := posZero, y2 := posZero }

/-- `IIR_SETUP` on both channels of a stage. -/
def iirSetupPair (cfg : Config) (st : Stage) (p : Stereo Iir) (fs fc : F64) : Except Refusal (Stereo Iir) :=
  match iirSetup cfg st.kind p.left fs fc, iirSetup cfg st.kind p.right fs fc with
  | .ok l, .ok r => .ok ⟨l, r⟩
  | .error e, _ => .error e
  | _, .error e => .error e

/-! ## FIR (`43_filters.md` R207-R209) -/

/-- The register writes of `FIR_SETUP(u, fs, fc)`: the delay line is kept (R207). -/
def firLoad (cfg : Config) (kind : FilterKind) (u : Fir) (fs fc : F64) : Fir :=
  { u with
    h := firCoef cfg kind fs fc
    fs := fs
    fc := fc
    pass := kind == .lpf && fLe cfg.firPassHz fc
    coefV := true }

/-- `FIR_SETUP(u, fs, fc)` (R207). -/
def firSetup (cfg : Config) (kind : FilterKind) (u : Fir) (fs fc : F64) : Except Refusal Fir :=
  if !filterRateOk fs then .error .domainRate
  else if !(firCutoffOk fc && twiceBelow fc fs) then .error .domainCutoff
  else if !firSumPositive cfg.firLen fs fc then .error .firDegenerate
  else .ok (firLoad cfg kind u fs fc)

/-- Tap `H[j]`. -/
def firTap (u : Fir) (j : Nat) : F64 := u.h.getD j posZero

/-- The convolution by mirrored taps: the centre product, then the pairs from the outermost in (R208). -/
def firSumOut (t : NanTag) (cfg : Config) (u : Fir) (dl : DelayLine) : F64 :=
  (List.range cfg.centreF).foldl
    (fun acc j => fAdd ((3 * j + 3) :: t) acc (fMul ((3 * j + 2) :: t) (firTap u j)
      (fAdd ((3 * j + 1) :: t) (dlRead dl j) (dlRead dl (cfg.firLen - 1 - j)))))
    (fMul (0 :: t) (firTap u cfg.centreF) (dlRead dl cfg.centreF))

/-- `FIR_PROCESS(u, x)` (R208), for an instance whose `COEF_V` is 1. -/
def firProcess (t : NanTag) (cfg : Config) (u : Fir) (x : F64) : Fir × F64 :=
  let dl := dlEnq u.dl x
  ({ u with dl := dl }, if u.pass then dlRead dl cfg.centreF else firSumOut t cfg u dl)

/-- `FIR_RESET(u)` (R209). -/
def firReset (u : Fir) : Fir := { u with dl := dlClear u.dl }

/-! ## Mixer (`44_mixer.md` R240) -/

/-- `MIX(lower, z, zH, x, xH)`: each product rounded, then the sum or the difference. -/
def mix (t : NanTag) (lower : Bool) (z zH x xH : F64) : F64 :=
  if lower then fAdd (2 :: t) (fMul (0 :: t) z x) (fMul (1 :: t) zH xH)
  else fSub (2 :: t) (fMul (0 :: t) z x) (fMul (1 :: t) zH xH)

/-! ## The frame datapath of one channel (`45_pipeline.md` R260) -/

/-- What one channel owns. -/
structure ChanUnits where
  dry : DelayLine
  ht : DelayLine
  inHpf : Iir
  inLpf : Iir
  outHpf : Iir
  outLpf : Iir
deriving DecidableEq, Repr

/-- The units of channel `c`. -/
def chanUnits (s : State) (c : Chan) : ChanUnits :=
  { dry := s.dry.get c
    ht := s.ht.get c
    inHpf := s.iir.inHpf.get c
    inLpf := s.iir.inLpf.get c
    outHpf := s.iir.outHpf.get c
    outLpf := s.iir.outLpf.get c }

/-- The state with channel `c`'s units replaced. -/
def setChanUnits (s : State) (c : Chan) (u : ChanUnits) : State :=
  { s with
    dry := s.dry.set c u.dry
    ht := s.ht.set c u.ht
    iir := ⟨s.iir.inHpf.set c u.inHpf, s.iir.inLpf.set c u.inLpf, s.iir.outHpf.set c u.outHpf,
      s.iir.outLpf.set c u.outLpf⟩ }

/-- Every biquad of the channel is set up. -/
def chanReady (u : ChanUnits) : Bool := u.inHpf.coefV && u.inLpf.coefV && u.outHpf.coefV && u.outLpf.coefV

/-- `FRAME_CHANNEL(c, a, lower, x, xH)` (R260) on the channel's units: the units after it, and the output sample. -/
def frameChannel (t : NanTag) (cfg : Config) (wet dryg : F64) (u : ChanUnits) (a : F64) (lower : Bool)
    (x xH : F64) : ChanUnits × F64 :=
  let dry := dlEnq u.dry a
  let dd := dlRead dry cfg.dDry
  let f0 := iirProcess (0 :: t) u.inHpf a
  let f1 := iirProcess (1 :: t) u.inLpf f0.2
  let h := htProcess (2 :: t) cfg u.ht f1.2
  let m := mix (3 :: t) lower h.2.1 h.2.2 x xH
  let f2 := iirProcess (4 :: t) u.outHpf m
  let f3 := iirProcess (5 :: t) u.outLpf f2.2
  ({ dry := dry, ht := h.1, inHpf := f0.1, inLpf := f1.1, outHpf := f2.1, outLpf := f3.1 },
    fAdd (8 :: t) (fMul (6 :: t) wet f3.2) (fMul (7 :: t) dryg dd))

end Sys2Proof.Machine
end

