-- ==== Sys2Proof/Machine/Delay.lean ====
section
/-! DEFINITION. The three commands on the dry delay lines (`40_delay_line.md` R124-R126). -/

namespace Sys2Proof.Machine

open Sys2Proof

/-- UDL_ENQUEUE (R124). -/
def execUdlEnqueue (c : Chan) (x : F64) (s : State) : Result :=
  .next (respond { s with dry := s.dry.set c (dlEnq (s.dry.get c) x) } .udlEnqueue [])

/-- UDL_READ (R125). Its offset check is check 7 of `30_encoding.md` R97. -/
def execUdlRead (c : Chan) (i : Word) (s : State) : Result :=
  if s.cfg.dryCap ≤ i.toNat then .next (respondStatus s .operandRange (opCode .udlRead))
  else .next (respond s .udlRead [dlRead (s.dry.get c) i.toNat])

/-- UDL_RESET (R126). -/
def execUdlReset (c : Chan) (s : State) : Result :=
  .next (respond { s with dry := s.dry.set c (dlClear (s.dry.get c)) } .udlReset [])

end Sys2Proof.Machine
end

