-- ==== Sys2Proof/Machine/Filters.lean ====
section
/-! DEFINITION. The commands on the biquads and the FIRs (`43_filters.md` R210-R215). -/

namespace Sys2Proof.Machine

open Sys2Proof

/-- The biquad `IIR[st][c]`. -/
def getIir (s : State) (st : Stage) (c : Chan) : Iir := (s.iir.get st).get c

/-- The state with the biquad `IIR[st][c]` replaced. -/
def setIir (s : State) (st : Stage) (c : Chan) (u : Iir) : State :=
  { s with iir := s.iir.set st ((s.iir.get st).set c u) }

/-- UIIR_SETUP (R210). -/
def execUiirSetup (st : Stage) (c : Chan) (fs fc : F64) (s : State) : Result :=
  finish .uiirSetup (do
    let u ← iirSetup s.cfg st.kind (getIir s st c) fs fc
    return setIir s st c u)

/-- UIIR_PROCESS (R211). -/
def execUiirProcess (st : Stage) (c : Chan) (x : F64) (s : State) : Result :=
  if !(getIir s st c).coefV then .refused .iirNotSetUp
  else
    let r := iirProcess (nanTag s) (getIir s st c) x
    .next (respond (bumpNan (setIir s st c r.1)) .uiirProcess [r.2])

/-- UIIR_RESET (R212). -/
def execUiirReset (st : Stage) (c : Chan) (s : State) : Result :=
  .next (respond (setIir s st c (iirReset (getIir s st c))) .uiirReset [])

/-- UFIR_SETUP (R213). -/
def execUfirSetup (k : FilterKind) (fs fc : F64) (s : State) : Result :=
  finish .ufirSetup (do
    let u ← firSetup s.cfg k (s.fir.get k) fs fc
    return { s with fir := s.fir.set k u })

/-- UFIR_PROCESS (R214). -/
def execUfirProcess (k : FilterKind) (x : F64) (s : State) : Result :=
  if !(s.fir.get k).coefV then .refused .firNotSetUp
  else
    let r := firProcess (nanTag s) s.cfg (s.fir.get k) x
    .next (respond (bumpNan { s with fir := s.fir.set k r.1 }) .ufirProcess [r.2])

/-- UFIR_RESET (R215). -/
def execUfirReset (k : FilterKind) (s : State) : Result :=
  .next (respond { s with fir := s.fir.set k (firReset (s.fir.get k)) } .ufirReset [])

end Sys2Proof.Machine
end

