-- ==== Sys2Proof/Machine/Hilbert.lean ====
section
/-! DEFINITION. The two commands on the Hilbert transformers (`42_hilbert.md` R184, R185). -/

namespace Sys2Proof.Machine

open Sys2Proof

/-- UHT_PROCESS (R184). -/
def execUhtProcess (c : Chan) (x : F64) (s : State) : Result :=
  let r := htProcess (nanTag s) s.cfg (s.ht.get c) x
  .next (respond (bumpNan { s with ht := s.ht.set c r.1 }) .uhtProcess [r.2.1, r.2.2])

/-- UHT_RESET (R185, R182). -/
def execUhtReset (c : Chan) (s : State) : Result :=
  .next (respond { s with ht := s.ht.set c (dlClear (s.ht.get c)) } .uhtReset [])

end Sys2Proof.Machine
end

