-- ==== Sys2Proof/Machine/Mixer.lean ====
section
/-! DEFINITION. The command on the mixing law (`44_mixer.md` R246). -/

namespace Sys2Proof.Machine

open Sys2Proof

/-- UMIX (R246). -/
def execUmix (lower : Bool) (z zH x xH : F64) (s : State) : Result :=
  .next (respond (bumpNan s) .umix [mix (nanTag s) lower z zH x xH])

end Sys2Proof.Machine
end

