-- ==== Sys2Proof/Machine/Oscillator.lean ====
section
/-! DEFINITION. The four commands on the DDS (`41_dds.md` R153-R156). -/

namespace Sys2Proof.Machine

open Sys2Proof

/-- UDDS_SETUP (R153). -/
def execUddsSetup (fs f : F64) (s : State) : Result :=
  finish .uddsSetup (do
    let d ← ddsSetup s.cfg s.dds fs f
    return { s with dds := d })

/-- UDDS_PROCESS (R154): the pair at the phase before the step. -/
def execUddsProcess (wave : BitVec 8) (s : State) : Result :=
  if !s.dds.valid then .refused .ddsNotSetUp
  else
    let x := lookup s.cfg wave s.dds.phase
    .next (respond { s with dds := ddsAdvance s.cfg s.dds } .uddsProcess [x.1, x.2])

/-- UDDS_RESET (R155). -/
def execUddsReset (s : State) : Result := .next (respond { s with dds := ddsReset s.dds } .uddsReset [])

/-- The result words of UDDS_READ (R156): `PHASE, T, E, INC_S, INC_F, SRC_VALID, SRC`. -/
def ddsWords (d : Dds) : List Word :=
  [BitVec.ofNat 64 d.phase, BitVec.ofNat 64 d.step, BitVec.ofInt 64 d.err, BitVec.ofInt 64 d.incS,
    BitVec.ofInt 64 d.incF, BitVec.ofNat 64 d.src.isSome.toNat, d.src.getD posZero]

/-- UDDS_READ (R156). -/
def execUddsRead (s : State) : Result := .next (respond s .uddsRead (ddsWords s.dds))

end Sys2Proof.Machine
end

