-- ==== Sys2Proof/Machine/Pipeline.lean ====
section
/-! DEFINITION. The eight commands addressed to the core as a whole (`45_pipeline.md` R261-R268). -/

namespace Sys2Proof.Machine

open Sys2Proof

/-- NOP (R261). -/
def execNop (s : State) : Result := .next (respond s .nop [])

/-! ## CONFIGURE (R262) -/

/-- The check on one stage's cutoff against the new rate. -/
def stageFits (s : State) (fs : F64) (st : Stage) : Bool := !s.fcV.get st || twiceBelow (s.fc.get st) fs

/-- The checks CONFIGURE makes before its first write, in order. -/
def configureChecks (s : State) (fs : F64) : Except Refusal Unit :=
  if !rateOk fs then .error .domainRate
  else if !(stageFits s fs .inHpf && stageFits s fs .inLpf && stageFits s fs .outHpf && stageFits s fs .outLpf) then
    .error .domainCutoff
  else if s.fir.lpf.coefV && !twiceBelow s.fir.lpf.fc fs then .error .domainCutoff
  else if s.fir.lpf.coefV && !firSumPositive s.cfg.firLen fs s.fir.lpf.fc then .error .firDegenerate
  else if s.fir.hpf.coefV && !twiceBelow s.fir.hpf.fc fs then .error .domainCutoff
  else if s.fir.hpf.coefV && !firSumPositive s.cfg.firLen fs s.fir.hpf.fc then .error .firDegenerate
  else .ok ()

/-- The rate registers after CONFIGURE: `RESET_PENDING` is set where the rate changes or is set for the first time
(R262, `10_state.md` R33). -/
def configureRate (s : State) (fs : F64) : State :=
  { s with resetPending := s.resetPending || !s.srV || !fEq fs s.sr, sr := fs, srV := true }

/-- One stage's setup on both channels, where its cutoff holds a value. -/
def configureStage (s : State) (fs : F64) (st : Stage) : Except Refusal (Stereo Iir) :=
  if s.fcV.get st then iirSetupPair s.cfg st (s.iir.get st) fs (s.fc.get st) else .ok (s.iir.get st)

/-- The DDS setup, where a carrier is set. -/
def configureDds (s : State) (fs : F64) : Except Refusal Dds :=
  if s.cfV then ddsSetup s.cfg s.dds fs (fAbs s.cf) else .ok s.dds

/-- One FIR's setup with the new rate, where it is set up. -/
def configureFir (s : State) (fs : F64) (k : FilterKind) : Except Refusal Fir :=
  if (s.fir.get k).coefV then firSetup s.cfg k (s.fir.get k) fs (s.fir.get k).fc else .ok (s.fir.get k)

/-- Every setup CONFIGURE runs, in the order of R262. -/
def configureUnits (s : State) (fs : F64) : Except Refusal State := do
  let i0 ← configureStage s fs .inHpf
  let i1 ← configureStage s fs .inLpf
  let i2 ← configureStage s fs .outHpf
  let i3 ← configureStage s fs .outLpf
  let d ← configureDds s fs
  let l ← configureFir s fs .lpf
  let h ← configureFir s fs .hpf
  return { s with iir := ⟨i0, i1, i2, i3⟩, dds := d, fir := ⟨l, h⟩ }

/-- CONFIGURE (R262). -/
def execConfigure (fs : F64) (s : State) : Result :=
  finish .configure (do configureChecks s fs; configureUnits (configureRate s fs) fs)

/-! ## The other setters -/

/-- The parameter writes of SET_CARRIER, with the flip test of `44_mixer.md` R242 (R263). -/
def carrierRegs (s : State) (wave : BitVec 8) (f : F64) : State :=
  { s with sw := swAfterCarrier s.sw s.cfV s.cf f, cf := f, wf := wave, cfV := true }

/-- SET_CARRIER (R263). -/
def execSetCarrier (wave : BitVec 8) (f : F64) (s : State) : Result :=
  if !carrierOk s.cfg f then .refused .domainFreq
  else if s.cfV && fEq f s.cf && wave == s.wf then .next (respond s .setCarrier [])
  else if (!s.cfV || !fEq f s.cf) && s.srV then
    finish .setCarrier (do
      let d ← ddsSetup s.cfg s.dds s.sr (fAbs f)
      return { carrierRegs s wave f with dds := d })
  else .next (respond (carrierRegs s wave f) .setCarrier [])

/-- The parameter writes of SET_CUTOFF (R264). -/
def cutoffRegs (s : State) (st : Stage) (hz : F64) : State :=
  { s with fc := s.fc.set st hz, fcV := s.fcV.set st true }

/-- SET_CUTOFF (R264). -/
def execSetCutoff (st : Stage) (hz : F64) (s : State) : Result :=
  if !cutoffOk hz then .refused .domainCutoff
  else if s.srV && !twiceBelow hz s.sr then .refused .domainCutoff
  else if s.fcV.get st && fEq hz (s.fc.get st) then .next (respond s .setCutoff [])
  else if s.srV then
    finish .setCutoff (do
      let p ← iirSetupPair s.cfg st (s.iir.get st) s.sr hz
      return { cutoffRegs s st hz with iir := s.iir.set st p })
  else .next (respond (cutoffRegs s st hz) .setCutoff [])

/-- SET_MIX (R265). No NaN results from `1 ⊖ wet` inside the domain. -/
def execSetMix (wet : F64) (s : State) : Result :=
  if !wetOk wet then .refused .domainMix
  else if s.mixV && fEq wet s.wet then .next (respond s .setMix [])
  else .next (respond { s with wet := wet, dryg := fSub [] fOne wet, mixV := true } .setMix [])

/-! ## PROCESS_FRAME (R266) -/

/-- A channel's input sample: `+0.0` where it is flagged silent (R266). -/
def frameInput (sil : Bool) (x : F64) : F64 := if sil then posZero else x

/-- Every parameter register holds a value (R266). -/
def configured (s : State) : Bool :=
  s.srV && s.cfV && (s.fcV.inHpf && s.fcV.inLpf && s.fcV.outHpf && s.fcV.outLpf) && s.mixV

/-- A non-bypass frame, once every requirement holds: one DDS step, the clear test, the predicate, then channel L and
channel R. -/
def runFrame (s : State) (aL aR : F64) : State × F64 × F64 :=
  let x := lookup s.cfg s.wf s.dds.phase
  let sw := swAfterFrame s.sw x.2
  let lower := selectLower sw s.cf
  let l := frameChannel (0 :: nanTag s) s.cfg s.wet s.dryg (chanUnits s .left) aL lower x.1 x.2
  let r := frameChannel (1 :: nanTag s) s.cfg s.wet s.dryg (chanUnits s .right) aR lower x.1 x.2
  let s' := { s with dds := ddsAdvance s.cfg s.dds, sw := sw }
  (bumpNan (setChanUnits (setChanUnits s' .left l.1) .right r.1), l.2, r.2)

/-- PROCESS_FRAME (R266). The units' own requirements (`41_dds.md` R142, `43_filters.md` R201) come after those the rule
lists; no state a run reaches fails them there (log 13). -/
def execProcessFrame (bypass silL silR : Bool) (inL inR : F64) (s : State) : Result :=
  let aL := frameInput silL inL
  let aR := frameInput silR inR
  if bypass then .next (respondSilence s .processFrame silL silR [aL, aR])
  else if !configured s then .refused .notConfigured
  else if s.resetPending then .refused .resetPending
  else if !s.dds.valid then .refused .ddsNotSetUp
  else if !(chanReady (chanUnits s .left) && chanReady (chanUnits s .right)) then .refused .iirNotSetUp
  else
    let r := runFrame s aL aR
    .next (respondSilence r.1 .processFrame false false [r.2.1, r.2.2])

/-! ## RESET and READ_STATE -/

/-- The state RESET leaves (R267). -/
def resetAll (s : State) : State :=
  { s with
    dry := ⟨dlClear s.dry.left, dlClear s.dry.right⟩
    ht := ⟨dlClear s.ht.left, dlClear s.ht.right⟩
    iir := ⟨⟨iirReset s.iir.inHpf.left, iirReset s.iir.inHpf.right⟩,
      ⟨iirReset s.iir.inLpf.left, iirReset s.iir.inLpf.right⟩,
      ⟨iirReset s.iir.outHpf.left, iirReset s.iir.outHpf.right⟩,
      ⟨iirReset s.iir.outLpf.left, iirReset s.iir.outLpf.right⟩⟩
    fir := ⟨firReset s.fir.lpf, firReset s.fir.hpf⟩
    dds := ddsReset s.dds
    sw := false
    resetPending := false }

/-- RESET (R267). -/
def execReset (s : State) : Result := .next (respond (resetAll s) .reset [])

/-- READ_STATE (R268). -/
def execReadState (s : State) : Result := .next (respond s .readState [stateWord s])

end Sys2Proof.Machine
end

