-- ==== Sys2Proof/Machine/Dispatch.lean ====
section
/-! DEFINITION. The meaning of each command: one arm per constructor of Instr. -/

namespace Sys2Proof.Machine

open Sys2Proof

def exec (i : Instr) (s : State) : Host.Outcome State Fault Refusal :=
  match i with
  | .nop => Sys2Proof.Machine.execNop s
  | .configure fs => Sys2Proof.Machine.execConfigure fs s
  | .setCarrier wave f => Sys2Proof.Machine.execSetCarrier wave f s
  | .setCutoff stage hz => Sys2Proof.Machine.execSetCutoff stage hz s
  | .setMix wet => Sys2Proof.Machine.execSetMix wet s
  | .processFrame bypass silL silR inL inR => Sys2Proof.Machine.execProcessFrame bypass silL silR inL inR s
  | .reset => Sys2Proof.Machine.execReset s
  | .readState => Sys2Proof.Machine.execReadState s
  | .udlEnqueue chan x => Sys2Proof.Machine.execUdlEnqueue chan x s
  | .udlRead chan offset => Sys2Proof.Machine.execUdlRead chan offset s
  | .udlReset chan => Sys2Proof.Machine.execUdlReset chan s
  | .uddsSetup fs f => Sys2Proof.Machine.execUddsSetup fs f s
  | .uddsProcess wave => Sys2Proof.Machine.execUddsProcess wave s
  | .uddsReset => Sys2Proof.Machine.execUddsReset s
  | .uddsRead => Sys2Proof.Machine.execUddsRead s
  | .uhtProcess chan x => Sys2Proof.Machine.execUhtProcess chan x s
  | .uhtReset chan => Sys2Proof.Machine.execUhtReset chan s
  | .uiirSetup stage chan fs fc => Sys2Proof.Machine.execUiirSetup stage chan fs fc s
  | .uiirProcess stage chan x => Sys2Proof.Machine.execUiirProcess stage chan x s
  | .uiirReset stage chan => Sys2Proof.Machine.execUiirReset stage chan s
  | .ufirSetup kind fs fc => Sys2Proof.Machine.execUfirSetup kind fs fc s
  | .ufirProcess kind x => Sys2Proof.Machine.execUfirProcess kind x s
  | .ufirReset kind => Sys2Proof.Machine.execUfirReset kind s
  | .umix lower z zH x xH => Sys2Proof.Machine.execUmix lower z zH x xH s

end Sys2Proof.Machine
end

