-- ==== Sys2Proof/Machine/Step.lean ====
section
/-! DEFINITION. One step: take the next command packet, decode it, execute it. -/

namespace Sys2Proof.Machine

open Sys2Proof

/-- One command is one atomic step (`20_memory.md` R76). The packet is consumed whatever its status (`60_exceptions.md`
R303); an illegal one answers its status and changes nothing else. With no packet waiting, nothing happens (R306, log 2). -/
def step (s : State) : Host.Outcome State Fault Refusal :=
  match s.cmds with
  | [] => .next s
  | p :: rest =>
    match decode p with
    | .ok i => exec i { s with cmds := rest }
    | .error e => .next (respondStatus { s with cmds := rest } e.status e.echo)

/-- The state whose next packet is the instruction with bits `w`, numbered as the opcode table numbers them: the packet
stands in place of the next one waiting, so that the next step runs it. This is the host delivering a command (log 1). -/
def State.withFetchWord (s : State) (nbits w : Nat) : State := { s with cmds := tablePacket nbits w :: s.cmds.tail }

end Sys2Proof.Machine
end

