-- ==== Sys2Proof/Machine/Reference.lean ====
section
/-! DEFINITION. The reference definitions of the tables and coefficient functions, over the real numbers (`00_scope.md` R9,
R12): `41_dds.md` R147-R150, `42_hilbert.md` R180, `43_filters.md` R200, R205, R206. They are predicates on a configuration's
contents; nothing here is evaluated by a step. -/

namespace Sys2Proof.Machine

open Sys2Proof

/-- The exact value of a finite pattern. -/
def fVal (a : F64) : ℚ := (fInt a : ℚ) / 2 ^ 1074

/-- `v` is a finite binary64 value nearest to the real `r`, its fraction even where two values are as near (R12). -/
def Nearest (r : ℝ) (v : F64) : Prop :=
  fFinite v = true ∧ ∀ w : F64, fFinite w = true →
    |((fVal v : ℚ) : ℝ) - r| ≤ |((fVal w : ℚ) : ℝ) - r|
      ∧ (|((fVal v : ℚ) : ℝ) - r| = |((fVal w : ℚ) : ℝ) - r| → fVal v ≠ fVal w → fMag v % 2 = 0)

/-- `v = RN(r)` (R12): the nearest value, ties to even, with `RN(0) = +0.0`. Which zero a non-zero real rounds to is not
said by R12, and either fits. -/
def IsRN (r : ℝ) (v : F64) : Prop := Nearest r v ∧ (r = 0 → v = posZero)

/-- `θ_i = 2πi/WT_LEN`. -/
def AtAngle (c : Config) (i : Nat) (p : ℝ → Prop) : Prop := p (2 * Real.pi * i / c.wtLen)

/-- The sine tables (R147). -/
def SineRomIsReference (c : Config) : Prop :=
  ∀ i ≤ c.q4, AtAngle c i fun θ => IsRN (Real.sin θ) (c.romD 0 i) ∧ IsRN (-Real.cos θ) (c.romH 0 i)

/-- The triangle tables (R148). -/
def TriangleRomIsReference (c : Config) : Prop :=
  ∀ i ≤ c.q4, IsRN ((i : ℝ) / c.q4) (c.romD 1 i) ∧
    AtAngle c i fun θ =>
      IsRN (-(8 / Real.pi ^ 2) * ∑' n : ℕ, (-1) ^ n * Real.cos ((2 * n + 1) * θ) / (2 * n + 1) ^ 2) (c.romH 1 i)

/-- The square tables, with the boundary clamp (R149). -/
def SquareRomIsReference (c : Config) : Prop :=
  (∀ i ≤ c.q4, c.romD 2 i = fOne) ∧ c.romH 2 0 = c.romH 2 1 ∧
    ∀ i, 1 ≤ i → i ≤ c.q4 →
      AtAngle c i fun θ => IsRN (2 / Real.pi * Real.log (Real.tan (θ / 2))) (c.romH 2 i)

/-- The sawtooth tables, with the boundary clamp (R150). -/
def SawtoothRomIsReference (c : Config) : Prop :=
  (∀ i ≤ c.half, IsRN (1 - (i : ℝ) / c.half) (c.romD 3 i)) ∧ c.romH 3 0 = c.romH 3 1 ∧
    ∀ i, 1 ≤ i → i ≤ c.half →
      AtAngle c i fun θ => IsRN (2 / Real.pi * Real.log (2 * Real.sin (θ / 2))) (c.romH 3 i)

/-- The Blackman window `wB(j)` takes the value `x` (R180). -/
def BlackmanIs (c : Config) (j : Nat) (x : ℝ) : Prop :=
  x = 0.42 - 0.5 * Real.cos (2 * Real.pi * j / ((c.htLen : ℝ) - 1))
    + 0.08 * Real.cos (4 * Real.pi * j / ((c.htLen : ℝ) - 1))

/-- The Hilbert coefficient ROM (R180). -/
def HilbertRomIsReference (c : Config) : Prop :=
  ∀ m ≤ c.centreH, ∀ w : ℝ, BlackmanIs c (2 * m) w →
    IsRN (2 / (Real.pi * (2 * m - c.centreH : ℝ)) * w) (c.tapG m)

/-- The biquad coefficients of a kind, rate and cutoff (R200). -/
def IirIsReference (kind : FilterKind) (fs fc : F64) (k : IirCoefs) : Prop :=
  ∀ K Q a0 : ℝ, K = Real.tan (Real.pi * (fVal fc : ℚ) / (fVal fs : ℚ)) → Q = 1 / Real.sqrt 2 →
    a0 = 1 + K / Q + K ^ 2 →
    (match kind with
      | .lpf => IsRN (K ^ 2 / a0) k.b0 ∧ IsRN (2 * K ^ 2 / a0) k.b1 ∧ IsRN (K ^ 2 / a0) k.b2
      | .hpf => IsRN (1 / a0) k.b0 ∧ IsRN (-2 / a0) k.b1 ∧ IsRN (1 / a0) k.b2)
    ∧ IsRN (2 * (K ^ 2 - 1) / a0) k.a1 ∧ IsRN ((1 - K / Q + K ^ 2) / a0) k.a2

/-- `v` lists the windowed sinc terms `v_j` of R205, for `len` taps. -/
def FirTermsAre (len : Nat) (fs fc : F64) (v : Nat → ℝ) : Prop :=
  ∀ wc : ℝ, wc = 2 * Real.pi * (fVal fc : ℚ) / (fVal fs : ℚ) → ∀ j < len, ∀ n : ℝ, n = j - ((len - 1) / 2 : Nat) →
    v j = (if n = 0 then wc / Real.pi else Real.sin (wc * n) / (Real.pi * n))
      * (0.54 - 0.46 * Real.cos (2 * Real.pi * j / ((len : ℝ) - 1)))

/-- The FIR taps of a kind, rate and cutoff (R205, R206). -/
def FirIsReference (len : Nat) (kind : FilterKind) (fs fc : F64) (h : List F64) : Prop :=
  h.length = len ∧ ∀ v : Nat → ℝ, FirTermsAre len fs fc v → ∀ S : ℝ, S = ∑ j ∈ Finset.range len, v j →
    ∀ j < len, match kind with
      | .lpf => IsRN (v j / S) (h.getD j 0#64)
      | .hpf => IsRN (if j = (len - 1) / 2 then 1 - v j / S else -v j / S) (h.getD j 0#64)

/-- The reference configuration for its sizes: its ROMs hold the reference contents, and its coefficient functions are the
reference ones. -/
def Config.IsReference (c : Config) : Prop :=
  c.valid = true ∧ SineRomIsReference c ∧ TriangleRomIsReference c ∧ SquareRomIsReference c
    ∧ SawtoothRomIsReference c ∧ HilbertRomIsReference c ∧ c.coefs = .reference

end Sys2Proof.Machine
end

