-- ==== Sys2Proof/Safety.lean ====
section
/-! DEFINITION. What counts as a safe run, the invariants of the machine, and the terms the statements use. -/

namespace Sys2Proof.Machine

open Sys2Proof

/-! ## Safe runs (`60_exceptions.md` R304) -/

/-- The next command, if any waits, is not refused. -/
def notRefused (s : State) : Bool :=
  match step s with
  | .refused _ => false
  | _ => true

/-- The first `n` steps from `s` meet no refusal: the premise R304 lets a proof about a command stream take. -/
def runNotRefused : Nat → State → Bool
  | 0, _ => true
  | n + 1, s =>
    match step s with
    | .next t => runNotRefused n t
    | _ => false

/-! ## Structural invariant: sizes (`10_state.md` R36, R38; `40_delay_line.md` R120) -/

/-- A delay line of capacity `cap`: that many words, and `0 ≤ WP < cap`. -/
def lineOk (cap : Nat) (u : DelayLine) : Bool := u.buf.length == cap && decide (u.wp < cap)

/-- A FIR's delay line and taps have `FIR_LEN` entries. -/
def firSized (cfg : Config) (u : Fir) : Bool := lineOk cfg.firLen u.dl && u.h.length == cfg.firLen

/-- The configuration meets R7 and R151, and every line and tap list has its size. -/
def sized (s : State) : Bool :=
  s.cfg.valid
    && lineOk s.cfg.dryCap s.dry.left && lineOk s.cfg.dryCap s.dry.right
    && lineOk s.cfg.htLen s.ht.left && lineOk s.cfg.htLen s.ht.right
    && firSized s.cfg s.fir.lpf && firSized s.cfg s.fir.hpf

/-! ## DDS invariant (`10_state.md` R35, `00_scope.md` R13) -/

/-- An integer inside `[-2^62, 2^62)` (R13). -/
def inRange (x : Int) : Bool := decide (-(2 ^ 62) ≤ x) && decide (x < 2 ^ 62)

/-- `0 ≤ PHASE < WT_LEN`; every integer inside R13's range; the increments on their sides of zero; the power-on zeros while
`DDS_V = 0`; a valid cache holds a rate of the domain and only after a setup. -/
def ddsOk (cfg : Config) (d : Dds) : Bool :=
  decide (d.phase < cfg.wtLen) && decide (d.step < 2 ^ 62)
    && inRange d.err && inRange d.incS && inRange d.incF && decide (0 ≤ d.incS) && decide (d.incF ≤ 0)
    && (d.valid || (d.step == 0 && d.err == 0 && d.incS == 0 && d.incF == 0))
    && (match d.src with
      | none => true
      | some r => rateOk r && d.valid)

/-! ## Parameter invariant: every register that holds a value holds one of its domain, and what it implies is set up -/

/-- One stage: its cutoff is in the domain, below half the rate, and its two biquads are set up once both the rate and the
cutoff hold a value (`45_pipeline.md` R262, R264, R266). -/
def stageOk (s : State) (st : Stage) : Bool :=
  !s.fcV.get st || (cutoffOk (s.fc.get st)
    && (!s.srV || (twiceBelow (s.fc.get st) s.sr
      && ((s.iir.get st).get .left).coefV && ((s.iir.get st).get .right).coefV)))

/-- One FIR: set up with a cutoff of the domain; only the low-pass has the pass-through (`43_filters.md` R207). -/
def firOk (k : FilterKind) (u : Fir) : Bool :=
  (!u.coefV || (filterRateOk u.fs && firCutoffOk u.fc && twiceBelow u.fc u.fs))
    && (!u.pass || (u.coefV && k == .lpf))

/-- The parameter registers and the readiness they imply (R262-R266). -/
def paramsOk (s : State) : Bool :=
  (!s.srV || rateOk s.sr)
    && (!s.cfV || carrierOk s.cfg s.cf)
    && (!(s.srV && s.cfV) || s.dds.valid)
    && stageOk s .inHpf && stageOk s .inLpf && stageOk s .outHpf && stageOk s .outLpf
    && (!s.mixV || (wetOk s.wet && s.dryg == fSub [] fOne s.wet))
    && firOk .lpf s.fir.lpf && firOk .hpf s.fir.hpf

/-- The machine's invariant: it holds at power-on, and every step keeps it. -/
def State.Inv (s : State) : Prop := sized s = true ∧ ddsOk s.cfg s.dds = true ∧ paramsOk s = true

/-! ## Terms of the statements: one rounded operation, whatever NaN it may give (`60_exceptions.md` R305) -/

/-- `r = a ⊕ b`. -/
def IsSum (a b r : F64) : Prop := ∃ t, r = fAdd t a b

/-- `r = a ⊖ b`. -/
def IsDiff (a b r : F64) : Prop := ∃ t, r = fSub t a b

/-- `r = a ⊗ b`. -/
def IsProd (a b r : F64) : Prop := ∃ t, r = fMul t a b

/-- `y` is the output of `IIR_PROCESS(u, x)`, every operation of R201 in its order. -/
def IsIirOut (u : Iir) (x y : F64) : Prop :=
  ∃ p0 p1 p2 p3 p4 s0 s1 s2,
    IsProd u.b0 x p0 ∧ IsProd u.b1 u.x1 p1 ∧ IsProd u.b2 u.x2 p2 ∧ IsProd u.a1 u.y1 p3 ∧ IsProd u.a2 u.y2 p4
      ∧ IsSum p0 p1 s0 ∧ IsSum s0 p2 s1 ∧ IsDiff s1 p3 s2 ∧ IsDiff s2 p4 y

/-- `q` is the quadrature sum of `HT_PROCESS` on the line `u` (R181): partial sums in ascending offset. -/
def IsHtSum (cfg : Config) (u : DelayLine) (q : F64) : Prop :=
  ∃ p acc : Nat → F64,
    (∀ m ≤ cfg.centreH, IsProd (cfg.tapG m) (dlRead u (2 * m)) (p m))
      ∧ acc 0 = p 0 ∧ (∀ m < cfg.centreH, IsSum (acc m) (p (m + 1)) (acc (m + 1))) ∧ q = acc cfg.centreH

/-- `y` is the mirrored convolution of `FIR_PROCESS` on the line `dl` (R208): the centre product, then the pairs from the
outermost in. -/
def IsFirSum (cfg : Config) (u : Fir) (dl : DelayLine) (y : F64) : Prop :=
  ∃ b p acc : Nat → F64,
    IsProd (u.h.getD cfg.centreF posZero) (dlRead dl cfg.centreF) (acc 0)
      ∧ (∀ j < cfg.centreF, IsSum (dlRead dl j) (dlRead dl (cfg.firLen - 1 - j)) (b j)
        ∧ IsProd (u.h.getD j posZero) (b j) (p j) ∧ IsSum (acc j) (p j) (acc (j + 1)))
      ∧ y = acc cfg.centreF

/-- `m = MIX(lower, z, zH, x, xH)` (R240). -/
def IsMix (lower : Bool) (z zH x xH m : F64) : Prop :=
  ∃ p q, IsProd z x p ∧ IsProd zH xH q ∧ (if lower then IsSum p q m else IsDiff p q m)

/-- The state of an IIR after an input and its output (R201). -/
def iirAfter (u : Iir) (x y : F64) : Iir := { u with x2 := u.x1, x1 := x, y2 := u.y1, y1 := y }

/-- `out` and the units `v` are what `FRAME_CHANNEL` (`45_pipeline.md` R260) gives on the units `u` and the input `a`. -/
def IsFrameChannel (s : State) (u v : ChanUnits) (a : F64) (lower : Bool) (x xH out : F64) : Prop :=
  ∃ u0 u1 q m e0 e1 w d : F64,
    v.dry = dlEnq u.dry a
      ∧ IsIirOut u.inHpf a u0 ∧ v.inHpf = iirAfter u.inHpf a u0
      ∧ IsIirOut u.inLpf u0 u1 ∧ v.inLpf = iirAfter u.inLpf u0 u1
      ∧ v.ht = dlEnq u.ht u1 ∧ IsHtSum s.cfg v.ht q
      ∧ IsMix lower (dlRead v.ht s.cfg.centreH) q x xH m
      ∧ IsIirOut u.outHpf m e0 ∧ v.outHpf = iirAfter u.outHpf m e0
      ∧ IsIirOut u.outLpf e0 e1 ∧ v.outLpf = iirAfter u.outLpf e0 e1
      ∧ IsProd s.wet e1 w ∧ IsProd s.dryg (dlRead v.dry s.cfg.dDry) d ∧ IsSum w d out

/-! ## Terms of the statements: runs -/

/-- Bits `hi` down to `lo` of a word (`00_scope.md` R10). -/
def bitsOf (w : Word) (hi lo : Nat) : Nat := w.toNat / 2 ^ lo % 2 ^ (hi + 1 - lo)

/-- From this magnitude on a result rounds to infinity (`00_scope.md` R11). -/
def overflowBound : ℚ := 2 ^ 1024 - 2 ^ 970

/-- The commands in order, from `s`; a refusal ends the run (R304). -/
def execAll : List Instr → State → Result
  | [], s => .next s
  | i :: is, s =>
    match exec i s with
    | .next t => execAll is t
    | .fault e => .fault e
    | .refused e => .refused e

/-- Nothing but the response packet and the model's NaN count differs. -/
def SameBlock (s t : State) : Prop := t = { s with resp := t.resp, nanCount := t.nanCount }

/-! ## Terms of the statements: refusals (`60_exceptions.md` R302, R304)

The requirements of each command, in the order its rule lists them. They are written from the command rules, apart from the
meanings. -/

/-- One stage's cutoff is unset or below half the rate. -/
def stageBelow (s : State) (fs : F64) (st : Stage) : Bool := !s.fcV.get st || twiceBelow (s.fc.get st) fs

/-- What CONFIGURE requires of a FIR that is set up (`45_pipeline.md` R262). -/
def firRequires (s : State) (fs : F64) (k : FilterKind) : List (Bool × Refusal) :=
  let u := s.fir.get k
  [(!u.coefV || twiceBelow u.fc fs, .domainCutoff), (!u.coefV || firSumPositive s.cfg.firLen fs u.fc, .firDegenerate)]

/-- The `require` lines of a command's rule. -/
def requires (s : State) : Instr → List (Bool × Refusal)
  | .configure fs =>
    (rateOk fs, .domainRate)
      :: [Stage.inHpf, .inLpf, .outHpf, .outLpf].map (fun st => (stageBelow s fs st, Refusal.domainCutoff))
      ++ firRequires s fs .lpf ++ firRequires s fs .hpf
  | .setCarrier _ f => [(carrierOk s.cfg f, .domainFreq)]
  | .setCutoff _ hz => [(cutoffOk hz, .domainCutoff), (!s.srV || twiceBelow hz s.sr, .domainCutoff)]
  | .setMix wet => [(wetOk wet, .domainMix)]
  | .processFrame bypass _ _ _ _ =>
    [(bypass || (s.srV && s.cfV && s.fcV.inHpf && s.fcV.inLpf && s.fcV.outHpf && s.fcV.outLpf && s.mixV),
        .notConfigured),
      (bypass || !s.resetPending, .resetPending)]
  | .uddsSetup fs f => [(rateOk fs, .domainRate), (ddsFreqOk s.cfg f, .domainFreq)]
  | .uddsProcess _ => [(s.dds.valid, .ddsNotSetUp)]
  | .uiirSetup _ _ fs fc => [(filterRateOk fs, .domainRate), (cutoffOk fc && twiceBelow fc fs, .domainCutoff)]
  | .uiirProcess st c _ => [(((s.iir.get st).get c).coefV, .iirNotSetUp)]
  | .ufirSetup _ fs fc =>
    [(filterRateOk fs, .domainRate), (firCutoffOk fc && twiceBelow fc fs, .domainCutoff),
      (firSumPositive s.cfg.firLen fs fc, .firDegenerate)]
  | .ufirProcess k _ => [((s.fir.get k).coefV, .firNotSetUp)]
  | .nop | .reset | .readState | .udlEnqueue _ _ | .udlRead _ _ | .udlReset _ | .uddsReset | .uddsRead
  | .uhtProcess _ _ | .uhtReset _ | .uiirReset _ _ | .ufirReset _ | .umix _ _ _ _ _ => []

/-- The first requirement that fails. -/
def refusalOf (s : State) (i : Instr) : Option Refusal := ((requires s i).find? fun r => !r.1).map fun r => r.2

/-! ## Terms of the statements: the DDS -/

/-- The stepping registers of a ratio with remainder `R` and rate `M` (`41_dds.md` R141). -/
def IsStepping (d : Dds) (R M : Nat) : Prop := R < M ∧ d.incS = 2 * (R : Int) ∧ d.incF = 2 * (R : Int) - 2 * (M : Int)

/-- `INC_F ≤ E < INC_S` (R144). -/
def errInRange (d : Dds) : Prop := d.incF ≤ d.err ∧ d.err < d.incS

/-- How many of the next `n` steps are fast (R142). -/
def fastSteps (cfg : Config) : Nat → Dds → Nat
  | 0, _ => 0
  | n + 1, d => (if d.err < 0 then 0 else 1) + fastSteps cfg n (ddsAdvance cfg d)

/-! ## Terms of the statements: the filters -/

/-- A biquad with new coefficients: the state registers are kept (`43_filters.md` R202). -/
def iirWith (u : Iir) (k : IirCoefs) : Iir :=
  { b0 := k.b0, b1 := k.b1, b2 := k.b2, a1 := k.a1, a2 := k.a2, coefV := true
    x1 := u.x1, x2 := u.x2, y1 := u.y1, y2 := u.y2 }

/-- A biquad at rest: the coefficients are kept (R203). -/
def iirAtRest (u : Iir) : Iir :=
  { b0 := u.b0, b1 := u.b1, b2 := u.b2, a1 := u.a1, a2 := u.a2, coefV := u.coefV
    x1 := posZero, x2 := posZero, y1 := posZero, y2 := posZero }

/-- A delay line of the same capacity holding zeros (`40_delay_line.md` R123). -/
def lineAtRest (cap : Nat) : DelayLine := { buf := List.replicate cap posZero, wp := 0 }

/-- A FIR set up with taps, rate and cutoff: its delay line is kept (`43_filters.md` R207). -/
def firWith (cfg : Config) (k : FilterKind) (u : Fir) (fs fc : F64) : Fir :=
  { h := firCoef cfg k fs fc
    pass := decide (k = .lpf) && decide (fVal cfg.firPassHz ≤ fVal fc)
    fs := fs, fc := fc, coefV := true, dl := u.dl }

/-- The stage's two biquads after CONFIGURE with rate `fs` (`45_pipeline.md` R262). -/
def stageAfter (s : State) (fs : F64) (st : Stage) : Stereo Iir :=
  if s.fcV.get st then
    ⟨iirWith (s.iir.get st).left (iirCoef s.cfg st.kind fs (s.fc.get st)),
      iirWith (s.iir.get st).right (iirCoef s.cfg st.kind fs (s.fc.get st))⟩
  else s.iir.get st

/-- A FIR after CONFIGURE with rate `fs` (R262). -/
def firAfter (s : State) (fs : F64) (k : FilterKind) : Fir :=
  if (s.fir.get k).coefV then firWith s.cfg k (s.fir.get k) fs (s.fir.get k).fc else s.fir.get k

/-! ## Terms of the statements: RESET (`70_reset_and_hazards.md` R322) -/

/-- The registers RESET keeps: the parameters, and what setups write. -/
def SameSetup (s t : State) : Prop :=
  s.cfg = t.cfg ∧ s.sr = t.sr ∧ s.srV = t.srV ∧ s.cf = t.cf ∧ s.wf = t.wf ∧ s.cfV = t.cfV ∧ s.fc = t.fc
    ∧ s.fcV = t.fcV ∧ s.wet = t.wet ∧ s.dryg = t.dryg ∧ s.mixV = t.mixV
    ∧ s.dds.step = t.dds.step ∧ s.dds.incS = t.dds.incS ∧ s.dds.incF = t.dds.incF ∧ s.dds.valid = t.dds.valid
    ∧ (∀ st c, iirAtRest ((s.iir.get st).get c) = iirAtRest ((t.iir.get st).get c))
    ∧ ∀ k, (s.fir.get k).h = (t.fir.get k).h ∧ (s.fir.get k).pass = (t.fir.get k).pass
      ∧ (s.fir.get k).fs = (t.fir.get k).fs ∧ (s.fir.get k).fc = (t.fir.get k).fc
      ∧ (s.fir.get k).coefV = (t.fir.get k).coefV

/-- The setter commands for a block's current parameter values, then RESET (R320, R322). -/
def bootCommands (s : State) : List Instr :=
  [.configure s.sr, .setCarrier s.wf s.cf, .setCutoff .inHpf s.fc.inHpf, .setCutoff .inLpf s.fc.inLpf,
    .setCutoff .outHpf s.fc.outHpf, .setCutoff .outLpf s.fc.outLpf, .setMix s.wet, .reset]

end Sys2Proof.Machine
end

