-- ==== Sys2Proof/WellFormed.lean ====
section
/-! DEFINITION. Well-formed packets, read from spec/opcode_table.json alone: the match and mask of each row and its
payload count. It is written apart from the decoder (which follows the check order of `30_encoding.md` R97), so that the
two can be compared. A term of Instr is legal by its type, so the checks stand on packets. -/

namespace Sys2Proof

/-- One row of spec/opcode_table.json: a header word belongs to the row when its masked bits equal `pattern`, and the
row's packet has `payload` words after the header. -/
structure TableRow where
  op : Op
  pattern : Word
  mask : Word
  payload : Nat
deriving DecidableEq, Repr

/-- The rows of spec/opcode_table.json, in its order. -/
def opcodeTable : List TableRow := [
  ⟨.nop, 0x0000000000000000#64, 0xFFFFFFFFFFFFFFFF#64, 0⟩,
  ⟨.configure, 0x0000000000000001#64, 0xFFFFFFFFFFFFFFFF#64, 1⟩,
  ⟨.setCarrier, 0x0000000000000002#64, 0xFFFFFFFFFF00FFFF#64, 1⟩,
  ⟨.setCutoff, 0x0000000000000003#64, 0xFFFFFFFFFFFCFFFF#64, 1⟩,
  ⟨.setMix, 0x0000000000000004#64, 0xFFFFFFFFFFFFFFFF#64, 1⟩,
  ⟨.processFrame, 0x0000000000000005#64, 0xFFFFFFFFFFF8FFFF#64, 2⟩,
  ⟨.reset, 0x0000000000000006#64, 0xFFFFFFFFFFFFFFFF#64, 0⟩,
  ⟨.readState, 0x0000000000000007#64, 0xFFFFFFFFFFFFFFFF#64, 0⟩,
  ⟨.udlEnqueue, 0x0000000000002020#64, 0xFFFFFFFFFFFFFEFF#64, 1⟩,
  ⟨.udlRead, 0x0000000000002021#64, 0xFFFFFFFFFFFFFEFF#64, 1⟩,
  ⟨.udlReset, 0x0000000000002022#64, 0xFFFFFFFFFFFFFEFF#64, 0⟩,
  ⟨.uddsSetup, 0x0000000000000028#64, 0xFFFFFFFFFFFFFFFF#64, 2⟩,
  ⟨.uddsProcess, 0x0000000000000029#64, 0xFFFFFFFFFF00FFFF#64, 0⟩,
  ⟨.uddsReset, 0x000000000000002A#64, 0xFFFFFFFFFFFFFFFF#64, 0⟩,
  ⟨.uddsRead, 0x000000000000002B#64, 0xFFFFFFFFFFFFFFFF#64, 0⟩,
  ⟨.uhtProcess, 0x0000000000001030#64, 0xFFFFFFFFFFFFFEFF#64, 1⟩,
  ⟨.uhtReset, 0x0000000000001031#64, 0xFFFFFFFFFFFFFEFF#64, 0⟩,
  ⟨.uiirSetup, 0x0000000000003038#64, 0xFFFFFFFFFFFFF8FF#64, 2⟩,
  ⟨.uiirProcess, 0x0000000000003039#64, 0xFFFFFFFFFFFFF8FF#64, 1⟩,
  ⟨.uiirReset, 0x000000000000303A#64, 0xFFFFFFFFFFFFF8FF#64, 0⟩,
  ⟨.ufirSetup, 0x0000000000004040#64, 0xFFFFFFFFFFFFFEFF#64, 2⟩,
  ⟨.ufirProcess, 0x0000000000004041#64, 0xFFFFFFFFFFFFFEFF#64, 1⟩,
  ⟨.ufirReset, 0x0000000000004042#64, 0xFFFFFFFFFFFFFEFF#64, 0⟩,
  ⟨.umix, 0x0000000000000048#64, 0xFFFFFFFFFFFEFFFF#64, 4⟩]

/-- The header word lies in the row. -/
def TableRow.covers (r : TableRow) (h : Word) : Bool := h &&& r.mask == r.pattern

/-- A packet, already cut into words, is well-formed when some row covers its header word and it has that row's payload
count (`30_encoding.md` R90, R96). The empty packet is not. -/
def wellFormedWords : List Word → Bool
  | [] => false
  | h :: ps => opcodeTable.any fun r => r.covers h && ps.length == r.payload

end Sys2Proof
end

