-- ==== Sys2Proof/Certificates/Slice0/Obligations.lean ====
section
/-! DEFINITION. The statements for the provers, from the numbered rules of spec/. Every statement about an instruction is an
equation for its next state that names each field it writes: every other field is unchanged. -/

section

open Sys2Proof Sys2Proof.Machine

/-! ## Encoding -/

/-- Decoding the packet of a command gives the command back, for every operand (`30_encoding.md` R91, R94-R96, R100). -/
def Obligations.DecodingAnEncodedCommandGivesItBack : Prop := ∀ i : Instr, decode (encode i) = .ok i

/-- A packet that decodes is the encoding of what it decodes to: every command has exactly one packet, and no bit of a legal
packet is dropped (R91, R94-R98). -/
def Obligations.EveryLegalPacketIsAnEncoding : Prop :=
  ∀ (p : Packet) (i : Instr), decode p = .ok i → encode i = p

/-- The decoder accepts exactly the packets that a row of spec/opcode_table.json covers (R96, R97). -/
def Obligations.LegalExactlyWhenTheOpcodeTableCoversIt : Prop :=
  ∀ (h : Word) (ps : List Word), (∃ i, decodeWords h ps = .ok i) ↔ wellFormedWords (h :: ps) = true

/-- The checks of R97 run in order and the first that fails decides the status: for a header whose opcode is a row of the
table, each field is compared with the row's match under its mask; a header with no row is ILLEGAL_OPCODE; every error
echoes the opcode byte (`60_exceptions.md` R301, R302). -/
def Obligations.FirstFailingCheckDecidesTheStatus : Prop :=
  (∀ (h : Word) (ps : List Word), (∀ r ∈ opcodeTable, bitsOf r.pattern 7 0 ≠ bitsOf h 7 0) →
    decodeWords h ps = .error ⟨.illegalOpcode, BitVec.ofNat 8 h.toNat⟩)
  ∧ ∀ r ∈ opcodeTable, ∀ (h : Word) (ps : List Word), bitsOf r.pattern 7 0 = bitsOf h 7 0 →
    let bad := fun st => decodeWords h ps = Except.error ⟨st, BitVec.ofNat 8 h.toNat⟩
    let m := h &&& r.mask
    if bitsOf h 63 24 ≠ 0 then bad .reservedBits
    else if bitsOf m 15 8 ≠ bitsOf r.pattern 15 8 then bad .illegalUnit
    else if bitsOf m 23 16 ≠ bitsOf r.pattern 23 16 then bad .reservedBits
    else if ps.length ≠ r.payload then bad .illegalLength
    else ∃ i, decodeWords h ps = .ok i

/-- The encoding examples of R103, which the spec derives from R91-R96: each list of words decodes to its command, and is the command's encoding. -/
def Obligations.EncodingExamplesOfTheSpec : Prop :=
  ∀ e ∈ ([
    (.nop, [0x0000000000000000#64]),
    (.configure 0x4020000000000000#64, [0x0000000000000001#64, 0x4020000000000000#64]),
    (.setCarrier 0 0x3FF0000000000000#64, [0x0000000000000002#64, 0x3FF0000000000000#64]),
    (.setCarrier 3 0xBFF0000000000000#64, [0x0000000000030002#64, 0xBFF0000000000000#64]),
    (.setCutoff .outLpf 0x4000000000000000#64, [0x0000000000030003#64, 0x4000000000000000#64]),
    (.setMix 0x3FE0000000000000#64, [0x0000000000000004#64, 0x3FE0000000000000#64]),
    (.processFrame true false true 0x3FE0000000000000#64 0#64,
      [0x0000000000050005#64, 0x3FE0000000000000#64, 0x0000000000000000#64]),
    (.reset, [0x0000000000000006#64]),
    (.udlRead .right 3, [0x0000000000002121#64, 0x0000000000000003#64]),
    (.uiirSetup .outLpf .right 0x4010000000000000#64 0x3FF0000000000000#64,
      [0x0000000000003738#64, 0x4010000000000000#64, 0x3FF0000000000000#64]),
    (.umix true 0x3FF0000000000000#64 0x3FE0000000000000#64 0x3FD0000000000000#64 0xC000000000000000#64,
      [0x0000000000010048#64, 0x3FF0000000000000#64, 0x3FE0000000000000#64, 0x3FD0000000000000#64,
        0xC000000000000000#64])] : List (Instr × List Word)),
    decode (bytesOf e.2) = .ok e.1 ∧ encodeWords e.1 = e.2

/-! ## Steps -/

/-- A step runs the decoded command on the state whose port has moved past the packet (`20_memory.md` R76). That the port is
a list of packets, and that nothing happens while it is empty, are the model's choices (logs 1 and 2). -/
def Obligations.StepRunsTheDecodedCommand : Prop :=
  (∀ (s : State) (p : Packet) (rest : List Packet) (i : Instr), s.cmds = p :: rest → decode p = .ok i →
    step s = exec i { s with cmds := rest })
  ∧ ∀ s : State, s.cmds = [] → step s = .next s

/-- A packet the decoder rejects answers its status and changes nothing else (`30_encoding.md` R97, R92); the codes are
ILLEGAL_OPCODE 1, RESERVED_BITS 2, ILLEGAL_UNIT 3 and ILLEGAL_LENGTH 4, and no other status comes of it. The words of a
packet that is not a whole number of words, or is empty, are not looked at; the echo is the first byte, or 0 where there
is no complete word (`60_exceptions.md` R301). -/
def Obligations.IllegalPacketAnswersItsStatus : Prop :=
  ∀ (s : State) (p : Packet) (rest : List Packet), s.cmds = p :: rest →
    (∀ e, decode p = .error e → ∃ code : Nat,
      ((e.status = .illegalOpcode ∧ code = 1) ∨ (e.status = .reservedBits ∧ code = 2)
        ∨ (e.status = .illegalUnit ∧ code = 3) ∨ (e.status = .illegalLength ∧ code = 4))
      ∧ step s = .next { s with
          cmds := rest
          resp := some ⟨BitVec.ofNat 64 (code + 256 * e.echo.toNat), []⟩ })
    ∧ (p.length % 8 ≠ 0 ∨ p = [] →
      decode p = .error ⟨.illegalLength, if p.length < 8 then 0 else p.headD 0⟩)

/-- A command that ends with a non-OK status writes no state, consumes its packet, and returns no result words
(`60_exceptions.md` R303). -/
def Obligations.NonOkStatusHasNoEffect : Prop :=
  ∀ (s t : State) (p : Packet) (rest : List Packet) (r : Response), s.cmds = p :: rest → step s = .next t →
    t.resp = some r → bitsOf r.status 7 0 ≠ 0 → t = { s with cmds := rest, resp := some r } ∧ r.results = []

/-- A step takes exactly one packet, and answers it (`20_memory.md` R76, `30_encoding.md` R90); the answer of a command
that decodes carries its opcode, and silence bits only for PROCESS_FRAME (R92). -/
def Obligations.EachPacketIsAnsweredOnce : Prop :=
  (∀ (s t : State), step s = .next t → t.cmds = s.cmds.tail ∧ (s.cmds ≠ [] → t.resp ≠ none))
  ∧ ∀ (i : Instr) (s t : State), exec i s = .next t → ∃ r, t.resp = some r
    ∧ bitsOf r.status 15 8 = bitsOf ((encodeWords i).headD 0) 7 0 ∧ bitsOf r.status 63 18 = 0
    ∧ (bitsOf r.status 7 0 = 0 ∨ bitsOf r.status 7 0 = 5)
    ∧ (bitsOf r.status 17 16 ≠ 0 → ∃ silL silR inL inR, i = .processFrame true silL silR inL inR)

/-- The sizes, the ROMs and the coefficient functions are never written (`10_state.md` R39). -/
def Obligations.TablesAreConstant : Prop :=
  ∀ s t : State, step s = .next t → t.cfg = s.cfg

/-- The block is refused exactly where a `require` of the command's rule fails, with the first one's reason, and otherwise
completes: no setup that CONFIGURE, SET_CARRIER or SET_CUTOFF runs can refuse, and no unit of a frame can
(`60_exceptions.md` R302, R304; `45_pipeline.md` R262, R266). The requirement `S > 0` is the model's exact test of the sign
(log 7). -/
def Obligations.RefusedExactlyWhereARequireFails : Prop :=
  ∀ (i : Instr) (s : State), s.Inv →
    (∀ e, refusalOf s i = some e → exec i s = .refused e)
    ∧ (refusalOf s i = none → ∃ t, exec i s = .next t)

/-- The invariant is kept by every step, from every state that has it: sizes, the DDS ranges of `00_scope.md` R13 and
`10_state.md` R35, and every parameter in its domain with what it implies set up (R262-R266). -/
def Obligations.StepKeepsTheBlockInvariant : Prop :=
  ∀ s t : State, s.Inv → step s = .next t → t.Inv

/-- Power-on satisfies the invariant, for every configuration R7 and R151 admit, and the hardware's configuration, whose
values are free, is one (logs 3, 4). -/
def Obligations.PowerOnHasTheBlockInvariant : Prop :=
  (∀ c : Config, c.valid = true → (State.powerOn c).Inv) ∧ Config.hardware.valid = true ∧ State.reset.Inv

/-- What power-on leaves (`70_reset_and_hazards.md` R320): every valid bit, `SW` and `RESET_PENDING` 0, every delay line and
IIR state `+0.0`, the DDS registers 0 with no rate cached. -/
def Obligations.PowerOnClearsEveryFlagAndLine : Prop :=
  let s := State.reset
  s.srV = false ∧ s.cfV = false ∧ (∀ st, s.fcV.get st = false) ∧ s.mixV = false ∧ s.sw = false
  ∧ s.resetPending = false ∧ s.dds = ⟨0, 0, 0, 0, 0, none, false⟩
  ∧ (∀ c, s.dry.get c = lineAtRest s.cfg.dryCap ∧ s.ht.get c = lineAtRest s.cfg.htLen)
  ∧ (∀ st c, let u := (s.iir.get st).get c
      u.coefV = false ∧ u.x1 = posZero ∧ u.x2 = posZero ∧ u.y1 = posZero ∧ u.y2 = posZero)
  ∧ ∀ k, let u := s.fir.get k
      u.coefV = false ∧ u.pass = false ∧ u.dl = lineAtRest s.cfg.firLen

/-! ## Arithmetic (`00_scope.md` R11, R14; `60_exceptions.md` R305) -/

/-- `⊕` of finite values is the exact sum rounded once to nearest, ties to even; a sum past the range is an infinity of its
sign; an exact zero is `+0.0` unless both operands are negative zeros. An infinity plus a finite value or an infinity of
its sign, in either order, is that infinity (R11). -/
def Obligations.AdditionIsCorrectlyRounded : Prop :=
  (∀ (t : NanTag) (a b : F64), fIsInf a = true → fIsNan b = false → (fIsInf b = true → fNegBit b = fNegBit a) →
    fAdd t a b = a ∧ fAdd t b a = a)
  ∧ ∀ (t : NanTag) (a b : F64), fFinite a = true → fFinite b = true →
    let r := fVal a + fVal b
    (|r| < overflowBound → Nearest ((r : ℚ) : ℝ) (fAdd t a b))
    ∧ (overflowBound ≤ |r| → fAdd t a b = if r < 0 then 0xFFF0000000000000#64 else 0x7FF0000000000000#64)
    ∧ (r ≠ 0 → fNegBit (fAdd t a b) = decide (r < 0))
    ∧ (r = 0 → fAdd t a b = if fNegBit a && fNegBit b then 0x8000000000000000#64 else 0#64)

/-- `⊖` adds the negation, whose value is the negated one: only the sign bit differs (R11). -/
def Obligations.SubtractionAddsTheNegation : Prop :=
  ∀ (t : NanTag) (a b : F64), fIsNan a = false → fIsNan b = false →
    fSub t a b = fAdd t a (b ^^^ 0x8000000000000000#64)
    ∧ (fFinite b = true → fVal (b ^^^ 0x8000000000000000#64) = -fVal b)

/-- `⊗` of finite values is the exact product rounded once to nearest, ties to even, with the exclusive or of the signs; a
product past the range is an infinity. An infinity times a value that is neither a NaN nor a zero, in either order, is an
infinity with the exclusive or of the signs (R11). -/
def Obligations.MultiplicationIsCorrectlyRounded : Prop :=
  (∀ (t : NanTag) (a b : F64), fIsInf a = true → fIsNan b = false → fMag b ≠ 0 →
    let r : F64 := if fNegBit a = fNegBit b then 0x7FF0000000000000#64 else 0xFFF0000000000000#64
    fMul t a b = r ∧ fMul t b a = r)
  ∧ ∀ (t : NanTag) (a b : F64), fFinite a = true → fFinite b = true →
    let r := fVal a * fVal b
    (|r| < overflowBound → Nearest ((r : ℚ) : ℝ) (fMul t a b))
    ∧ (overflowBound ≤ |r| → fMag (fMul t a b) = 0x7FF0000000000000)
    ∧ fNegBit (fMul t a b) = (fNegBit a != fNegBit b)

/-- Every NaN an operation gives is quiet; it gives one exactly for a NaN operand, a sum of opposite infinities, a difference
of like ones, or a product of an infinity and a zero (R305, R11). -/
def Obligations.NanResultsAreQuietAndOnlyFromInvalidOperations : Prop :=
  ∀ (t : NanTag) (a b : F64),
    (fIsNan (fAdd t a b) = true → fQuiet (fAdd t a b) = true)
    ∧ (fIsNan (fSub t a b) = true → fQuiet (fSub t a b) = true)
    ∧ (fIsNan (fMul t a b) = true → fQuiet (fMul t a b) = true)
    ∧ (fIsNan (fAdd t a b) = true ↔
        fIsNan a = true ∨ fIsNan b = true ∨ (fIsInf a = true ∧ fIsInf b = true ∧ fNegBit a ≠ fNegBit b))
    ∧ (fIsNan (fSub t a b) = true ↔
        fIsNan a = true ∨ fIsNan b = true ∨ (fIsInf a = true ∧ fIsInf b = true ∧ fNegBit a = fNegBit b))
    ∧ (fIsNan (fMul t a b) = true ↔
        fIsNan a = true ∨ fIsNan b = true ∨ (fIsInf a = true ∧ fMag b = 0) ∨ (fMag a = 0 ∧ fIsInf b = true))

/-- `round` takes a finite value to the nearest integer, halves away from zero (R14), with the rule's examples. -/
def Obligations.RoundingToAnIntegerIsHalfAwayFromZero : Prop :=
  (∀ a : F64, fFinite a = true →
    fRound a = (if fVal a < 0 then -1 else 1) * ⌊|fVal a| + 1 / 2⌋)
  ∧ fRound 0x3FE0000000000000#64 = 1 ∧ fRound 0x4004000000000000#64 = 3 ∧ fRound 0x40E5888000000000#64 = 44100
  ∧ fRound 0x401DFFE5C91D14E4#64 = 7

/-- Comparisons of finite values compare exact values; `+∞` is above and `-∞` below every other value that is no NaN, each
equal to itself alone; and a NaN compares false (R11). -/
def Obligations.ComparisonsCompareExactValues : Prop :=
  (∀ a b : F64, fFinite a = true → fFinite b = true →
    (fLt a b = true ↔ fVal a < fVal b) ∧ (fLe a b = true ↔ fVal a ≤ fVal b) ∧ (fEq a b = true ↔ fVal a = fVal b))
  ∧ (∀ a : F64, fIsNan a = false →
    let p := 0x7FF0000000000000#64
    let n := 0xFFF0000000000000#64
    fLe a p = true ∧ fLt p a = false ∧ (fLt a p = true ↔ a ≠ p) ∧ (fLe p a = true ↔ a = p)
    ∧ fLe n a = true ∧ fLt a n = false ∧ (fLt n a = true ↔ a ≠ n) ∧ (fLe a n = true ↔ a = n)
    ∧ (fEq a p = true ↔ a = p) ∧ (fEq p a = true ↔ a = p) ∧ (fEq a n = true ↔ a = n) ∧ (fEq n a = true ↔ a = n))
  ∧ ∀ a b : F64, fIsNan a = true ∨ fIsNan b = true → fLt a b = false ∧ fLe a b = false ∧ fEq a b = false

/-- The domain checks of the commands are exact conditions on values (`60_exceptions.md` R304 and the command rules): the
product check `(f ⊗ WT_LEN) < 2^53` says that the exact product is below `2^53 - 1/2`. -/
def Obligations.DomainChecksAreExactConditions : Prop :=
  ∀ (cfg : Config) (a b : F64), cfg.valid = true →
    (rateOk a = true ↔ fFinite a = true ∧ 1 / 2 ≤ fVal a ∧ fVal a < 2 ^ 53)
    ∧ (filterRateOk a = true ↔ fFinite a = true ∧ 0 < fVal a)
    ∧ (cutoffOk a = true ↔ fFinite a = true ∧ 0 ≤ fVal a)
    ∧ (firCutoffOk a = true ↔ fFinite a = true ∧ 0 < fVal a)
    ∧ (twiceBelow a b = true ↔ fFinite a = true ∧ fFinite b = true ∧ 2 * fVal a < fVal b)
    ∧ (wetOk a = true ↔ fFinite a = true ∧ 0 ≤ fVal a ∧ fVal a ≤ 1)
    ∧ (carrierOk cfg a = true ↔ fFinite a = true ∧ |fVal a| * cfg.wtLen < 2 ^ 53 - 1 / 2)
    ∧ (ddsFreqOk cfg a = true ↔ fFinite a = true ∧ 0 ≤ fVal a ∧ fVal a * cfg.wtLen < 2 ^ 53 - 1 / 2)

/-! ## Delay lines -/

/-- `DL_ENQ` moves the pointer on by one and writes the newest sample there; every older sample is then one read further back,
and the oldest is gone; `DL_CLEAR` makes every word and every read `+0.0` and the pointer 0 (`40_delay_line.md` R121-R123).
That every read after a clear is `+0.0` the spec derives from R121 and R122; that older samples move one read back is inferred
from R121 and the index of R122. -/
def Obligations.EnqueueShiftsAndClearZeroesTheDelayLine : Prop :=
  ∀ (cap : Nat) (u : DelayLine) (v : F64), lineOk cap u = true →
    dlEnq u v = { buf := u.buf.set ((u.wp + 1) % cap) v, wp := (u.wp + 1) % cap }
    ∧ lineOk cap (dlEnq u v) = true ∧ dlRead (dlEnq u v) 0 = v
    ∧ (∀ i, i + 1 < cap → dlRead (dlEnq u v) (i + 1) = dlRead u i)
    ∧ dlClear u = lineAtRest cap ∧ ∀ i < cap, dlRead (dlClear u) i = 0#64

/-- After a clear, or at power-on, `k` enqueues make the line a pure delay: offset `i` reads the value enqueued `i` before the
last, bit for bit, and `+0.0` where there was none (R127, which the spec derives from R121-R123). -/
def Obligations.ClearedDelayLineIsAPureDelay : Prop :=
  ∀ (cap : Nat) (u : DelayLine) (vs : List F64) (i : Nat), i < cap →
    (lineOk cap u = true →
      dlRead (vs.foldl dlEnq (dlClear u)) i = if h : i < vs.length then vs[vs.length - 1 - i] else posZero)
    ∧ dlRead (vs.foldl dlEnq (DelayLine.powerOn cap)) i = if h : i < vs.length then vs[vs.length - 1 - i] else posZero

/-- UDL_ENQUEUE, UDL_READ and UDL_RESET on either dry line (`40_delay_line.md` R124-R126): what each writes and answers, and
OPERAND_RANGE for an offset at or past the capacity. -/
def Obligations.DelayLineCommandsComplete : Prop :=
  ∀ (s : State) (c : Chan) (x : F64) (i : Word), s.Inv →
    let u := s.dry.get c
    let w := (u.wp + 1) % s.cfg.dryCap
    exec (.udlEnqueue c x) s
      = .next { s with dry := s.dry.set c { buf := u.buf.set w x, wp := w }, resp := some ⟨0x2000#64, []⟩ }
    ∧ exec (.udlReset c) s
      = .next { s with dry := s.dry.set c (lineAtRest s.cfg.dryCap), resp := some ⟨0x2200#64, []⟩ }
    ∧ (i.toNat < s.cfg.dryCap → exec (.udlRead c i) s
      = .next { s with resp := some ⟨0x2100#64, [u.buf.getD ((u.wp + s.cfg.dryCap - i.toNat) % s.cfg.dryCap) 0]⟩ })
    ∧ (s.cfg.dryCap ≤ i.toNat → exec (.udlRead c i) s = .next { s with resp := some ⟨0x2105#64, []⟩ })

/-! ## DDS -/

/-- UDDS_SETUP in its domain (`41_dds.md` R141, R153): the stepping registers from `N = round(f ⊗ WT_LEN)` and
`M = round(fs)`, and the phase, the error seed and the cache only where the rate is not the cached one. -/
def Obligations.OscillatorSetupComputesTheStepping : Prop :=
  ∀ (s : State) (fs f : F64), s.Inv → rateOk fs = true → ddsFreqOk s.cfg f = true →
    ∃ (wt p : F64) (N M : Nat) (d : Dds),
      fFinite wt = true ∧ fVal wt = s.cfg.wtLen ∧ IsProd f wt p
      ∧ (N : Int) = ⌊fVal p + 1 / 2⌋ ∧ (M : Int) = ⌊fVal fs + 1 / 2⌋ ∧ 1 ≤ M
      ∧ exec (.uddsSetup fs f) s = .next { s with dds := d, resp := some ⟨0x2800#64, []⟩ }
      ∧ d.step = N / M ∧ IsStepping d (N % M) M ∧ d.valid = true
      ∧ ((∃ r, s.dds.src = some r ∧ fVal r = fVal fs) →
          d.phase = s.dds.phase ∧ d.err = s.dds.err ∧ d.src = s.dds.src)
      ∧ ((∀ r, s.dds.src = some r → fVal r ≠ fVal fs) →
          d.phase = 0 ∧ d.err = 2 * ((N % M : Nat) : Int) - (M : Int) ∧ d.src = some fs)

/-- UDDS_PROCESS on a DDS that was set up (R142, R154): the pair at the phase before the step, then a slow step where `E < 0`
and a fast step otherwise. -/
def Obligations.OscillatorProcessStepsOnce : Prop :=
  ∀ (s : State) (w : BitVec 8), s.dds.valid = true →
    let d := s.dds
    let x := lookup s.cfg w d.phase
    exec (.uddsProcess w) s = .next { s with
      dds := { d with
        phase := (d.phase + d.step + (if d.err < 0 then 0 else 1)) % s.cfg.wtLen
        err := d.err + (if d.err < 0 then d.incS else d.incF) }
      resp := some ⟨0x2900#64, [x.1, x.2]⟩ }

/-- UDDS_RESET and UDDS_READ (R143, R155, R156): the phase, the re-seeded error and the invalid cache; and the seven result
words, whose integers are the registers. -/
def Obligations.OscillatorResetAndReadComplete : Prop :=
  ∀ s : State, s.Inv →
    exec .uddsReset s = .next { s with
      dds := { s.dds with phase := 0, err := (s.dds.incS + s.dds.incF) / 2, src := none }
      resp := some ⟨0x2A00#64, []⟩ }
    ∧ ∃ p t e incS incF v r : Word,
      exec .uddsRead s = .next { s with resp := some ⟨0x2B00#64, [p, t, e, incS, incF, v, r]⟩ }
      ∧ p.toNat = s.dds.phase ∧ t.toInt = s.dds.step ∧ e.toInt = s.dds.err ∧ incS.toInt = s.dds.incS
      ∧ incF.toInt = s.dds.incF
      ∧ (s.dds.src = none → v = 0 ∧ r = 0) ∧ ∀ q, s.dds.src = some q → v = 1 ∧ r = q

/-- The wavetable lookup mirrors and negates one stored quadrant, or half period for the sawtooth, and gives a zero pair for an
unsupported waveform (R146). -/
def Obligations.LookupMirrorsTheStoredQuadrant : Prop :=
  ∀ (c : Config) (w : BitVec 8) (p : Nat), c.valid = true → p < c.wtLen →
    let neg := fun v : F64 => v ^^^ 0x8000000000000000#64
    let D := c.romD w.toNat
    let H := c.romH w.toNat
    let q := c.wtLen / 4
    (w.toNat < 3 → lookup c w p =
      if p < q then (D p, H p)
      else if p < 2 * q then (D (2 * q - p), neg (H (2 * q - p)))
      else if p < 3 * q then (neg (D (p - 2 * q)), neg (H (p - 2 * q)))
      else (neg (D (4 * q - p)), H (4 * q - p)))
    ∧ (w.toNat = 3 → lookup c w p = if p ≤ 2 * q then (D p, H p) else (neg (D (4 * q - p)), H (4 * q - p)))
    ∧ (4 ≤ w.toNat → lookup c w p = (0, 0))

/-- Half a period on, a sine, triangle or square carrier pair is the negated pair, and every carrier pair of an admitted
configuration is finite (R151; the antisymmetry is what R152, which the spec derives from R146, rests on). -/
def Obligations.CarrierIsHalfWaveAntisymmetricAndFinite : Prop :=
  ∀ (c : Config) (w : BitVec 8) (p : Nat), c.valid = true → p < c.wtLen →
    fFinite (lookup c w p).1 = true ∧ fFinite (lookup c w p).2 = true
    ∧ (w.toNat < 3 → 2 * p < c.wtLen →
      lookup c w (p + c.wtLen / 2) = (fNeg (lookup c w p).1, fNeg (lookup c w p).2))

/-- The error term stays in `[INC_F, INC_S)` once it is there, through any step; a reset and a re-seeding setup put it there
(R144, which the spec derives from R141-R143). -/
def Obligations.ErrorTermStaysInRange : Prop :=
  ∀ (s t : State) (R M : Nat), IsStepping s.dds R M →
    (∀ w, errInRange s.dds → exec (.uddsProcess w) s = .next t → IsStepping t.dds R M ∧ errInRange t.dds)
    ∧ (∀ silL silR inL inR, errInRange s.dds → exec (.processFrame false silL silR inL inR) s = .next t →
      IsStepping t.dds R M ∧ errInRange t.dds)
    ∧ (exec .uddsReset s = .next t ∨ exec .reset s = .next t →
      IsStepping t.dds R M ∧ errInRange t.dds ∧ t.dds.err = 2 * (R : Int) - M)
    ∧ ∀ fs f, s.dds.src = none → exec (.uddsSetup fs f) s = .next t → errInRange t.dds

/-- The exact average frequency (R145, which the spec derives from R141-R144): from a re-seed, `n` calls,
by UDDS_PROCESS or by non-bypass frames in any order, leave the phase at `(T n + F) mod WT_LEN` with
`F = floor((2 R n + M) / (2 M))` fast steps, within half a table step of `n N / M`; and any `M` calls from an error in range
take exactly `R` fast steps, advance by exactly `N = T M + R`, and bring the error back. -/
def Obligations.AverageFrequencyIsExact : Prop :=
  ∀ (s t : State) (R M : Nat) (is : List Instr), s.dds.valid = true → IsStepping s.dds R M →
    0 < s.cfg.wtLen → s.dds.phase < s.cfg.wtLen →
    (∀ i ∈ is, (∃ w, i = .uddsProcess w) ∨ ∃ silL silR inL inR, i = .processFrame false silL silR inL inR) →
    execAll is s = .next t →
    let n := is.length
    let T := s.dds.step
    (s.dds.phase = 0 → s.dds.err = 2 * (R : Int) - M →
      let F := (2 * R * n + M) / (2 * M)
      t.dds.phase = (T * n + F) % s.cfg.wtLen ∧ fastSteps s.cfg n s.dds = F
      ∧ |(2 * M * (T * n + F) : Int) - 2 * n * (T * M + R)| ≤ M)
    ∧ (errInRange s.dds → n = M →
      fastSteps s.cfg n s.dds = R ∧ t.dds.err = s.dds.err
      ∧ t.dds.phase = (s.dds.phase + (T * M + R)) % s.cfg.wtLen
      ∧ (t.dds.phase = s.dds.phase ↔ (T * M + R) % s.cfg.wtLen = 0))

/-! ## Hilbert transformer -/

/-- UHT_PROCESS and UHT_RESET on either channel (`42_hilbert.md` R181, R182, R184, R185): the enqueue, the delayed in-phase
sample bit for bit, and the quadrature sum over the stored taps in ascending offset. -/
def Obligations.HilbertCommandsComplete : Prop :=
  ∀ (s : State) (c : Chan) (x : F64), s.Inv →
    let u := dlEnq (s.ht.get c) x
    (∃ q, IsHtSum s.cfg u q
      ∧ exec (.uhtProcess c x) s = .next { s with
          ht := s.ht.set c u, nanCount := s.nanCount + 1
          resp := some ⟨0x3000#64, [dlRead u ((s.cfg.htLen - 1) / 2), q]⟩ })
    ∧ exec (.uhtReset c) s
      = .next { s with ht := s.ht.set c (lineAtRest s.cfg.htLen), resp := some ⟨0x3100#64, []⟩ }

/-- After a clear, the in-phase output of the `k`-th UHT_PROCESS is the input of `C_H` calls before, bit for bit, and `+0.0`
for the first `C_H` calls (R186, which the spec derives from R181 and R127). -/
def Obligations.InPhaseOutputIsTheDelayedInput : Prop :=
  ∀ (s a t : State) (c : Chan) (xs : List F64) (x : F64), s.Inv → exec (.uhtReset c) s = .next a →
    execAll ((xs ++ [x]).map (Instr.uhtProcess c)) a = .next t →
    ∃ q, t.resp = some ⟨0x3000#64, [(if h : s.cfg.centreH ≤ xs.length
      then (xs ++ [x])[xs.length - s.cfg.centreH]'(by simp) else posZero), q]⟩

/-! ## Filters -/

/-- The reference coefficient functions give the values of the examples of R200, R205 and R206: Butterworth sections and
five-tap kernels at a rate of 4 and a cutoff of 1. The evaluation by enclosures is the model's (log 6). -/
def Obligations.ReferenceCoefficientsMatchTheExamples : Prop :=
  let fs := 0x4010000000000000#64
  let fc := 0x3FF0000000000000#64
  refIirCoef .lpf fs fc = some ⟨0x3FD2BEC333018867#64, 0x3FE2BEC333018867#64, 0x3FD2BEC333018867#64, 0#64,
    0x3FC5F619980C4337#64⟩
  ∧ refIirCoef .hpf fs fc = some ⟨0x3FD2BEC333018867#64, 0xBFE2BEC333018867#64, 0x3FD2BEC333018867#64, 0#64,
    0x3FC5F619980C4337#64⟩
  ∧ refFirCoef 5 .lpf fs fc
    = some [0#64, 0x3FCA133F35C10108#64, 0x3FE2F660651F7F7C#64, 0x3FCA133F35C10108#64, 0#64]
  ∧ refFirCoef 5 .hpf fs fc
    = some [0#64, 0xBFCA133F35C10108#64, 0x3FDA133F35C10108#64, 0xBFCA133F35C10108#64, 0#64]

/-- UIIR_SETUP in its domain (`43_filters.md` R202, R210): the coefficients of `IIR_COEF` and the valid bit of the one
instance, its state kept. -/
def Obligations.BiquadSetupLoadsCoefficients : Prop :=
  ∀ (s : State) (st : Stage) (c : Chan) (fs fc : F64),
    filterRateOk fs = true → cutoffOk fc = true → twiceBelow fc fs = true →
    exec (.uiirSetup st c fs fc) s = .next { s with
      iir := s.iir.set st ((s.iir.get st).set c
        (iirWith ((s.iir.get st).get c)
          (iirCoef s.cfg (if st = .inHpf ∨ st = .outHpf then .hpf else .lpf) fs fc)))
      resp := some ⟨0x3800#64, []⟩ }

/-- UIIR_PROCESS on an instance that was set up (R201, R211): five rounded products and four rounded sums in their order, and
the state shifted. -/
def Obligations.BiquadProcessAppliesTheRecurrence : Prop :=
  ∀ (s : State) (st : Stage) (c : Chan) (x : F64), ((s.iir.get st).get c).coefV = true →
    let u := (s.iir.get st).get c
    ∃ y, IsIirOut u x y
      ∧ exec (.uiirProcess st c x) s = .next { s with
          iir := s.iir.set st ((s.iir.get st).set c { u with x1 := x, x2 := u.x1, y1 := y, y2 := u.y1 })
          nanCount := s.nanCount + 1
          resp := some ⟨0x3900#64, [y]⟩ }

/-- UIIR_RESET, UFIR_RESET and UHT_RESET (R203, R209; `42_hilbert.md` R182): the state is zeroed, coefficients, valid bits and
the pass-through bit are unchanged, and a second one changes nothing more. -/
def Obligations.UnitResetsZeroTheState : Prop :=
  ∀ (s : State) (st : Stage) (c : Chan) (k : FilterKind), s.Inv →
    (∃ t, exec (.uiirReset st c) s = .next t ∧ exec (.uiirReset st c) t = .next t
      ∧ t = { s with
          iir := s.iir.set st ((s.iir.get st).set c (iirAtRest ((s.iir.get st).get c))), resp := some ⟨0x3A00#64, []⟩ })
    ∧ (∃ t, exec (.ufirReset k) s = .next t ∧ exec (.ufirReset k) t = .next t
      ∧ t = { s with
          fir := s.fir.set k { s.fir.get k with dl := lineAtRest s.cfg.firLen }, resp := some ⟨0x4200#64, []⟩ })
    ∧ ∃ t, exec (.uhtReset c) s = .next t ∧ exec (.uhtReset c) t = .next t
      ∧ t = { s with ht := s.ht.set c (lineAtRest s.cfg.htLen), resp := some ⟨0x3100#64, []⟩ }

/-- UFIR_SETUP in its domain (R207, R213): the taps, the rate, the cutoff, the pass-through bit of the low-pass at or above
the threshold, and the valid bit; the delay line is kept. The sum `S` of R205 is positive on the whole domain, so the setup
is never refused as degenerate (which the spec leaves open; the model's inference, log 7). -/
def Obligations.FirSetupBuildsTheKernel : Prop :=
  ∀ (s : State) (k : FilterKind) (fs fc : F64), s.Inv →
    filterRateOk fs = true → firCutoffOk fc = true → twiceBelow fc fs = true →
    (∀ v : Nat → ℝ, FirTermsAre s.cfg.firLen fs fc v → 0 < ∑ j ∈ Finset.range s.cfg.firLen, v j)
    ∧ exec (.ufirSetup k fs fc) s = .next { s with
      fir := s.fir.set k (firWith s.cfg k (s.fir.get k) fs fc), resp := some ⟨0x4000#64, []⟩ }
    ∧ (firWith s.cfg k (s.fir.get k) fs fc).h.length = s.cfg.firLen

/-- UFIR_PROCESS on an instance that was set up (R208, R214): the enqueue, then the sample `C_F` back where the pass-through
is on, and otherwise the mirrored convolution, outermost pair first. -/
def Obligations.FirProcessConvolvesOrDelays : Prop :=
  ∀ (s : State) (k : FilterKind) (x : F64), (s.fir.get k).coefV = true →
    let u := s.fir.get k
    let dl := dlEnq u.dl x
    ∃ y, (if u.pass then y = dlRead dl ((s.cfg.firLen - 1) / 2) else IsFirSum s.cfg u dl y)
      ∧ exec (.ufirProcess k x) s = .next { s with
          fir := s.fir.set k { u with dl := dl }, nanCount := s.nanCount + 1, resp := some ⟨0x4100#64, [y]⟩ }

/-- With the pass-through on, the FIR low-pass is a delay of `C_F` samples from a clear (R208; the delay is R127's, which the spec derives). -/
def Obligations.FirPassThroughIsAPureDelay : Prop :=
  ∀ (s a t : State) (xs : List F64) (x : F64), s.Inv → s.fir.lpf.pass = true → exec (.ufirReset .lpf) s = .next a →
    execAll ((xs ++ [x]).map (Instr.ufirProcess .lpf)) a = .next t →
    t.resp = some ⟨0x4100#64, [if h : s.cfg.centreF ≤ xs.length
      then (xs ++ [x])[xs.length - s.cfg.centreF]'(by simp) else posZero]⟩

/-! ## Mixer and the switching flag -/

/-- UMIX (`44_mixer.md` R240, R246): both products rounded, then their sum for the lower sideband and their difference for the
upper. No block state is read or written: only the model's count of NaN places moves (log 9). -/
def Obligations.MixCommandFollowsTheMixingLaw : Prop :=
  ∀ (s : State) (lower : Bool) (z zH x xH : F64),
    ∃ p q m, IsProd z x p ∧ IsProd zH xH q ∧ (lower = true → IsSum p q m) ∧ (lower = false → IsDiff p q m)
      ∧ exec (.umix lower z zH x xH) s
        = .next { s with nanCount := s.nanCount + 1, resp := some ⟨0x4800#64, [m]⟩ }

/-- The selected formula is `SW XOR (CF < 0)`; with `SW = 0` it follows the carrier's sign; and no SET_CARRIER changes it
(`44_mixer.md` R245 items 1-3, which the spec derives from R241-R244). -/
def Obligations.SetCarrierNeverChangesTheFormula : Prop :=
  (∀ (sw : Bool) (f : F64), fFinite f = true → selectLower sw f = (sw ^^ decide (fVal f < 0)))
  ∧ ∀ (s t : State) (w : BitVec 8) (f : F64), s.cfV = true → exec (.setCarrier w f) s = .next t →
    selectLower t.sw t.cf = selectLower s.sw s.cf

/-- Only three commands change `SW`: SET_CARRIER on a change of the carrier's sign class, a non-bypass frame that clears it,
and RESET (R242-R244). -/
def Obligations.OnlyThreeCommandsWriteTheSwitchingFlag : Prop :=
  ∀ (i : Instr) (s t : State), s.Inv → exec i s = .next t → t.sw ≠ s.sw →
    (∃ w f, i = .setCarrier w f ∧ s.cfV = true ∧ (fVal s.cf < 0 ↔ ¬ fVal f < 0))
    ∨ (∃ silL silR inL inR, i = .processFrame false silL silR inL inR ∧ s.sw = true ∧ t.sw = false
        ∧ |fVal (lookup s.cfg s.wf s.dds.phase).2| < fVal 0x3F847AE147AE147B#64)
    ∨ (i = .reset ∧ t.sw = false)

/-! ## The core commands -/

/-- NOP and READ_STATE (`45_pipeline.md` R261, R268): nothing but the response; and every bit of the observation word. -/
def Obligations.NopAndReadStateComplete : Prop :=
  ∀ s : State, exec .nop s = .next { s with resp := some ⟨0x0#64, []⟩ }
    ∧ ∃ w : Word, exec .readState s = .next { s with resp := some ⟨0x700#64, [w]⟩ }
      ∧ w.getLsbD 0 = s.sw ∧ w.getLsbD 1 = s.resetPending ∧ w.getLsbD 2 = s.srV ∧ w.getLsbD 3 = s.cfV
      ∧ w.getLsbD 4 = s.fcV.inHpf ∧ w.getLsbD 5 = s.fcV.inLpf ∧ w.getLsbD 6 = s.fcV.outHpf
      ∧ w.getLsbD 7 = s.fcV.outLpf ∧ w.getLsbD 8 = s.mixV ∧ w.getLsbD 9 = s.dds.valid
      ∧ w.getLsbD 10 = s.fir.lpf.coefV ∧ w.getLsbD 11 = s.fir.hpf.coefV ∧ w.getLsbD 12 = s.fir.lpf.pass
      ∧ w.getLsbD 13 = s.fir.hpf.pass ∧ ∀ j ≥ 14, w.getLsbD j = false

/-- CONFIGURE in its domain (R262): the rate, `RESET_PENDING` where the rate changes or is set for the first time, and every
setup re-run with the new rate: both channels of each stage whose cutoff is set, the DDS where a carrier is set, each FIR
that is set up; the sum of R205 is positive on the whole domain (log 7). -/
def Obligations.ConfigurePropagatesTheRate : Prop :=
  ∀ (s : State) (fs : F64), s.Inv → rateOk fs = true →
    (∀ st, s.fcV.get st = true → 2 * fVal (s.fc.get st) < fVal fs) →
    (∀ k, (s.fir.get k).coefV = true → 2 * fVal (s.fir.get k).fc < fVal fs) →
    exec (.configure fs) s = .next { s with
      sr := fs, srV := true
      resetPending := s.resetPending || !s.srV || decide (fVal fs ≠ fVal s.sr)
      iir := ⟨stageAfter s fs .inHpf, stageAfter s fs .inLpf, stageAfter s fs .outHpf, stageAfter s fs .outLpf⟩
      dds := if s.cfV then ddsLoad s.cfg s.dds fs (s.cf &&& 0x7FFFFFFFFFFFFFFF#64) else s.dds
      fir := ⟨firAfter s fs .lpf, firAfter s fs .hpf⟩
      resp := some ⟨0x100#64, []⟩ }

/-- SET_CARRIER in its domain (R263, `44_mixer.md` R242): a no-op for an unchanged frequency and waveform; otherwise the
carrier registers, `SW` toggled on a change of sign class, and the DDS set up where the frequency changed and a rate is
set. -/
def Obligations.SetCarrierUpdatesTheCarrier : Prop :=
  ∀ (s : State) (w : BitVec 8) (f : F64), s.Inv → carrierOk s.cfg f = true →
    let same := s.cfV && decide (fVal f = fVal s.cf)
    exec (.setCarrier w f) s = .next (
      if same && w == s.wf then { s with resp := some ⟨0x200#64, []⟩ }
      else { s with
        cf := f, wf := w, cfV := true
        sw := s.sw ^^ (s.cfV && (decide (fVal s.cf < 0) != decide (fVal f < 0)))
        dds := if !same && s.srV then ddsLoad s.cfg s.dds s.sr (f &&& 0x7FFFFFFFFFFFFFFF#64) else s.dds
        resp := some ⟨0x200#64, []⟩ })

/-- SET_CUTOFF in its domain (R264): a no-op for an unchanged cutoff; otherwise the stage's cutoff, and new coefficients on
both channels with the filter state kept where a rate is set. -/
def Obligations.SetCutoffReloadsTheStage : Prop :=
  ∀ (s : State) (st : Stage) (hz : F64), s.Inv → cutoffOk hz = true →
    (s.srV = true → 2 * fVal hz < fVal s.sr) →
    let k := iirCoef s.cfg (if st = .inHpf ∨ st = .outHpf then .hpf else .lpf) s.sr hz
    let p := s.iir.get st
    exec (.setCutoff st hz) s = .next (
      if s.fcV.get st && decide (fVal hz = fVal (s.fc.get st)) then { s with resp := some ⟨0x300#64, []⟩ }
      else { s with
        fc := s.fc.set st hz, fcV := s.fcV.set st true
        iir := if s.srV then s.iir.set st ⟨iirWith p.left k, iirWith p.right k⟩ else s.iir
        resp := some ⟨0x300#64, []⟩ })

/-- SET_MIX in its domain (R265): a no-op for an unchanged fraction; otherwise the fraction and the rounded `1 ⊖ wet`, which is
`1.0` at wet 0 and `+0.0` at wet 1. -/
def Obligations.SetMixStoresBothFractions : Prop :=
  ∀ (s : State) (wet : F64), s.Inv → wetOk wet = true →
    ∃ d, IsDiff 0x3FF0000000000000#64 wet d
      ∧ (fVal wet = 0 → d = 0x3FF0000000000000#64) ∧ (fVal wet = 1 → d = 0#64)
      ∧ exec (.setMix wet) s = .next (
        if s.mixV && decide (fVal wet = fVal s.wet) then { s with resp := some ⟨0x400#64, []⟩ }
        else { s with wet := wet, dryg := d, mixV := true, resp := some ⟨0x400#64, []⟩ })

/-- A bypass frame copies each input word to its output bit for bit, or answers `+0.0` and sets the silence bit of a channel
flagged silent, and a run of bypass frames leaves all state unchanged (R266; R271, which the spec derives from R266). -/
def Obligations.BypassIsTheIdentity : Prop :=
  (∀ (s : State) (silL silR : Bool) (inL inR : F64),
    exec (.processFrame true silL silR inL inR) s = .next { s with
      resp := some ⟨BitVec.ofNat 64 (0x500 + 0x10000 * silL.toNat + 0x20000 * silR.toNat),
        [if silL then 0 else inL, if silR then 0 else inR]⟩ })
  ∧ ∀ (s : State) (fs : List (Bool × Bool × F64 × F64)),
    ∃ r, execAll (fs.map fun f => Instr.processFrame true f.1 f.2.1 f.2.2.1 f.2.2.2) s
      = .next { s with resp := r }

/-- A non-bypass frame of a configured block with no reset pending (R260, R266; `44_mixer.md` R241, R243): one DDS step, the
clear test on this frame's quadrature sample, the formula it selects for both channels, and the datapath of each channel in
the order of R260 on its own units. -/
def Obligations.FrameRunsTheDatapathOnBothChannels : Prop :=
  ∀ (s : State) (silL silR : Bool) (inL inR : F64), s.Inv →
    s.srV = true → s.cfV = true → (∀ st, s.fcV.get st = true) → s.mixV = true → s.resetPending = false →
    let x := lookup s.cfg s.wf s.dds.phase
    let sw := s.sw && !decide (|fVal x.2| < fVal 0x3F847AE147AE147B#64)
    let lower := sw ^^ decide (fVal s.cf < 0)
    ∃ (vL vR : ChanUnits) (outL outR : F64),
      IsFrameChannel s (chanUnits s .left) vL (if silL then 0 else inL) lower x.1 x.2 outL
      ∧ IsFrameChannel s (chanUnits s .right) vR (if silR then 0 else inR) lower x.1 x.2 outR
      ∧ exec (.processFrame false silL silR inL inR) s = .next { s with
          dds := { s.dds with
            phase := (s.dds.phase + s.dds.step + (if s.dds.err < 0 then 0 else 1)) % s.cfg.wtLen
            err := s.dds.err + (if s.dds.err < 0 then s.dds.incS else s.dds.incF) }
          sw := sw
          dry := ⟨vL.dry, vR.dry⟩, ht := ⟨vL.ht, vR.ht⟩
          iir := ⟨⟨vL.inHpf, vR.inHpf⟩, ⟨vL.inLpf, vR.inLpf⟩, ⟨vL.outHpf, vR.outHpf⟩, ⟨vL.outLpf, vR.outLpf⟩⟩
          nanCount := s.nanCount + 1
          resp := some ⟨0x500#64, [outL, outR]⟩ }

/-- The wet and dry extremes (R270, which the spec derives): with wet 0 and dry 1 a channel's output is the delayed dry sample bit for bit, where the
wet sample is finite and the dry one is neither a NaN nor `-0.0`; with wet 1 and dry `+0.0` it is the wet sample, where the
dry one is finite. The wet sample is the last filter's output. -/
def Obligations.WetAndDryExtremesAreExact : Prop :=
  ∀ (s : State) (u v : ChanUnits) (a : F64) (lower : Bool) (x xH out : F64),
    IsFrameChannel s u v a lower x xH out →
    let e := v.outLpf.y1
    let dd := dlRead v.dry s.cfg.dDry
    (fMag s.wet = 0 → s.dryg = 0x3FF0000000000000#64 → fFinite e = true → fIsNan dd = false →
      dd ≠ 0x8000000000000000#64 → out = dd)
    ∧ (s.wet = 0x3FF0000000000000#64 → s.dryg = 0#64 → fFinite dd = true → fIsNan e = false →
      e ≠ 0x8000000000000000#64 → out = e)

/-! ## Reset and hazards -/

/-- RESET (`45_pipeline.md` R267): every line and filter state zeroed, the DDS at its seed with the cache invalid, `SW` and
`RESET_PENDING` cleared, and everything else kept; a second RESET changes nothing more (`70_reset_and_hazards.md` R321, which
the spec derives). -/
def Obligations.ResetZeroesTheInternalState : Prop :=
  ∀ s : State, s.Inv → ∃ t, exec .reset s = .next t ∧ exec .reset t = .next t
    ∧ t = { s with
        dry := ⟨lineAtRest s.cfg.dryCap, lineAtRest s.cfg.dryCap⟩
        ht := ⟨lineAtRest s.cfg.htLen, lineAtRest s.cfg.htLen⟩
        iir := ⟨⟨iirAtRest s.iir.inHpf.left, iirAtRest s.iir.inHpf.right⟩,
          ⟨iirAtRest s.iir.inLpf.left, iirAtRest s.iir.inLpf.right⟩,
          ⟨iirAtRest s.iir.outHpf.left, iirAtRest s.iir.outHpf.right⟩,
          ⟨iirAtRest s.iir.outLpf.left, iirAtRest s.iir.outLpf.right⟩⟩
        fir := ⟨{ s.fir.lpf with dl := lineAtRest s.cfg.firLen }, { s.fir.hpf with dl := lineAtRest s.cfg.firLen }⟩
        dds := { s.dds with phase := 0, err := (s.dds.incS + s.dds.incF) / 2, src := none }
        sw := false, resetPending := false, resp := some ⟨0x600#64, []⟩ }

/-- RESET leaves a fresh pipeline (R322, which the spec derives): a configured block of any history, and a block just powered on that is given the
first one's parameter values and then RESET, are in the same state after their RESETs, if the registers that setups write
agree; and giving a fresh block those parameters is never refused. The command port and the model's NaN count stand outside
the comparison (logs 1, 9). -/
def Obligations.ResetLeavesAFreshPipeline : Prop :=
  ∀ s : State, s.Inv → s.srV = true → s.cfV = true → (∀ st, s.fcV.get st = true) → s.mixV = true →
    ∃ a b, exec .reset s = .next a ∧ execAll (bootCommands s) (State.powerOn s.cfg) = .next b
      ∧ (SameSetup s b → { a with cmds := b.cmds, resp := b.resp, nanCount := b.nanCount } = b)

/-- The commands R77 lists as idempotent: one that completed leaves a state on which it completes again and changes
nothing. -/
def Obligations.IdempotentCommandsRepeatWithoutEffect : Prop :=
  ∀ (i : Instr) (s t : State), exec i s = .next t →
    (match i with
      | .configure _ | .setCarrier _ _ | .setCutoff _ _ | .setMix _ | .reset | .uddsSetup _ _ | .uddsReset | .uhtReset _
      | .uiirSetup _ _ _ _ | .uiirReset _ _ | .ufirSetup _ _ _ | .ufirReset _ | .udlReset _ => True
      | _ => False) →
    exec i t = .next t

/-- The commands R77 lists as without side effects change nothing but the response (and, for UMIX, the model's NaN count). -/
def Obligations.ObservationCommandsChangeNoState : Prop :=
  ∀ (i : Instr) (s : State),
    (match i with
      | .nop | .readState | .uddsRead | .udlRead _ _ | .umix _ _ _ _ _ | .processFrame true _ _ _ _ => True
      | _ => False) →
    ∃ t, exec i s = .next t ∧ SameBlock s t

/-- No unit-access command (opcode 0x20 and up) changes a parameter register, a parameter's valid bit, `SW` or
`RESET_PENDING` (`70_reset_and_hazards.md` R325, which the spec derives from the command rules). -/
def Obligations.UnitCommandsKeepTheParameters : Prop :=
  ∀ (i : Instr) (s t : State), 0x20 ≤ bitsOf ((encodeWords i).headD 0) 7 0 → exec i s = .next t →
    t.sr = s.sr ∧ t.srV = s.srV ∧ t.cf = s.cf ∧ t.wf = s.wf ∧ t.cfV = s.cfV ∧ t.fc = s.fc ∧ t.fcV = s.fcV
    ∧ t.wet = s.wet ∧ t.dryg = s.dryg ∧ t.mixV = s.mixV ∧ t.sw = s.sw ∧ t.resetPending = s.resetPending

/-- Each channel, stage and FIR owns its state: a command on one instance leaves every other instance as it was, of its own
kind and of every other kind, and all else but its response and the model's NaN count (`10_state.md` R40). -/
def Obligations.UnitInstancesShareNoState : Prop :=
  ∀ (s t : State) (c c' : Chan) (st st' : Stage) (k k' : FilterKind) (x y : F64) (w : BitVec 8),
    ((exec (.udlEnqueue c x) s = .next t ∨ exec (.udlReset c) s = .next t) →
      t = { s with dry := t.dry, resp := t.resp })
    ∧ ((exec (.uhtProcess c x) s = .next t ∨ exec (.uhtReset c) s = .next t) →
      t = { s with ht := t.ht, resp := t.resp, nanCount := t.nanCount })
    ∧ ((exec (.uiirSetup st c x y) s = .next t ∨ exec (.uiirProcess st c x) s = .next t
        ∨ exec (.uiirReset st c) s = .next t) →
      t = { s with iir := t.iir, resp := t.resp, nanCount := t.nanCount })
    ∧ ((exec (.ufirSetup k x y) s = .next t ∨ exec (.ufirProcess k x) s = .next t ∨ exec (.ufirReset k) s = .next t) →
      t = { s with fir := t.fir, resp := t.resp, nanCount := t.nanCount })
    ∧ ((exec (.uddsSetup x y) s = .next t ∨ exec (.uddsProcess w) s = .next t ∨ exec .uddsReset s = .next t) →
      t = { s with dds := t.dds, resp := t.resp })
    ∧ (c' ≠ c → (exec (.udlEnqueue c x) s = .next t ∨ exec (.udlReset c) s = .next t) → t.dry.get c' = s.dry.get c')
    ∧ (c' ≠ c → (exec (.uhtProcess c x) s = .next t ∨ exec (.uhtReset c) s = .next t) → t.ht.get c' = s.ht.get c')
    ∧ ((c' ≠ c ∨ st' ≠ st) →
      (exec (.uiirSetup st c x y) s = .next t ∨ exec (.uiirProcess st c x) s = .next t
        ∨ exec (.uiirReset st c) s = .next t) →
      (t.iir.get st').get c' = (s.iir.get st').get c')
    ∧ (k' ≠ k →
      (exec (.ufirSetup k x y) s = .next t ∨ exec (.ufirProcess k x) s = .next t ∨ exec (.ufirReset k) s = .next t) →
      t.fir.get k' = s.fir.get k')

/-- A rate change makes every later non-bypass frame refused until a RESET: CONFIGURE sets `RESET_PENDING`, no command but
RESET clears it, and a configured block refuses the frame (`10_state.md` R33, R324). -/
def Obligations.RateChangeRefusesFramesUntilReset : Prop :=
  (∀ (s t : State) (fs : F64), s.Inv → exec (.configure fs) s = .next t →
    (s.srV = false ∨ fVal fs ≠ fVal s.sr) → t.resetPending = true)
  ∧ (∀ (i : Instr) (s t : State), exec i s = .next t → s.resetPending = true → i ≠ .reset → t.resetPending = true)
  ∧ ∀ (s : State) (silL silR : Bool) (inL inR : F64), s.resetPending = true →
    exec (.processFrame false silL silR inL inR) s
      = .refused (if s.srV && s.cfV && (s.fcV.inHpf && s.fcV.inLpf && s.fcV.outHpf && s.fcV.outLpf) && s.mixV
          then .resetPending else .notConfigured)

/-- Live retuning (R326, which the spec derives): with the cached rate equal to the rate, SET_CARRIER keeps the phase, the error and the cache, and
all else but the carrier, `SW`, the stepping registers and the response; SET_CUTOFF keeps every filter's state registers and
all else but its own stage's cutoff and coefficients and the response. -/
def Obligations.LiveRetuningKeepsTheSignalState : Prop :=
  (∀ (s t : State) (w : BitVec 8) (f r : F64), s.Inv → s.dds.src = some r → fVal r = fVal s.sr →
    exec (.setCarrier w f) s = .next t →
    t.dds.phase = s.dds.phase ∧ t.dds.err = s.dds.err ∧ t.dds.src = s.dds.src
    ∧ t = { s with cf := t.cf, wf := t.wf, cfV := t.cfV, sw := t.sw, dds := t.dds, resp := t.resp })
  ∧ ∀ (s t : State) (st : Stage) (hz : F64), exec (.setCutoff st hz) s = .next t →
    t = { s with fc := t.fc, fcV := t.fcV, iir := t.iir, resp := t.resp }
    ∧ (∀ st', st' ≠ st → t.fc.get st' = s.fc.get st' ∧ t.fcV.get st' = s.fcV.get st')
    ∧ ∀ st' c, let u := (s.iir.get st').get c
        let v := (t.iir.get st').get c
        v.x1 = u.x1 ∧ v.x2 = u.x2 ∧ v.y1 = u.y1 ∧ v.y2 = u.y2 ∧ (st' ≠ st → v = u)

/-- After a RESET the first DDS setup re-seeds, whatever it comes from and whatever frames ran before it: the cache stays
invalid through frames, and a setup on an invalid cache puts the phase at 0 and the error at its seed (R329, which the spec derives
from R141 and R143). -/
def Obligations.FirstSetupAfterResetReseedsThePhase : Prop :=
  (∀ s t : State, exec .reset s = .next t → t.dds.src = none)
  ∧ (∀ (s t : State) (b silL silR : Bool) (inL inR : F64), s.dds.src = none →
    exec (.processFrame b silL silR inL inR) s = .next t → t.dds.src = none)
  ∧ ∀ (s t : State) (i : Instr), s.Inv → s.dds.src = none → exec i s = .next t →
    ((∃ fs, i = .configure fs ∧ s.cfV = true)
      ∨ (∃ w f, i = .setCarrier w f ∧ s.srV = true ∧ (s.cfV = false ∨ fVal f ≠ fVal s.cf))
      ∨ ∃ fs f, i = .uddsSetup fs f) →
    t.dds.phase = 0 ∧ 2 * t.dds.err = t.dds.incS + t.dds.incF ∧ t.dds.src ≠ none

end
end

