-- ==== Sys2Proof/Laws/Decode.lean ====
section
/-! SUPPORT. Lemmas about words, bytes and header fields: the round trip through bytes, and what the fields of a header
word read. -/

namespace Sys2Proof

/-! ## Bytes and words (`20_memory.md` R74) -/

theorem wordToBytes_length (w : Word) : (wordToBytes w).length = 8 := by simp [wordToBytes]

theorem wordToBytes_eq (w : Word) : wordToBytes w =
    [BitVec.ofNat 8 w.toNat, BitVec.ofNat 8 (w.toNat / 2 ^ 8), BitVec.ofNat 8 (w.toNat / 2 ^ 16),
      BitVec.ofNat 8 (w.toNat / 2 ^ 24), BitVec.ofNat 8 (w.toNat / 2 ^ 32), BitVec.ofNat 8 (w.toNat / 2 ^ 40),
      BitVec.ofNat 8 (w.toNat / 2 ^ 48), BitVec.ofNat 8 (w.toNat / 2 ^ 56)] := by
  simp [wordToBytes, List.range, List.range.loop]

/-- A word is the word of its bytes. -/
theorem wordsOf_wordToBytes_append (w : Word) (rest : List Byte) :
    wordsOf (wordToBytes w ++ rest) = w :: wordsOf rest := by
  rw [wordToBytes_eq]
  simp only [List.cons_append, List.nil_append, wordsOf, List.cons.injEq, and_true]
  apply BitVec.eq_of_toNat_eq
  have h := w.isLt
  simp only [bytesToWord, BitVec.toNat_ofNat]
  omega

@[simp] theorem wordsOf_bytesOf (ws : List Word) : wordsOf (bytesOf ws) = ws := by
  induction ws with
  | nil => rfl
  | cons w ws ih =>
    rw [bytesOf, List.flatMap_cons, wordsOf_wordToBytes_append]
    exact congrArg _ ih

@[simp] theorem bytesOf_length (ws : List Word) : (bytesOf ws).length = 8 * ws.length := by
  induction ws with
  | nil => rfl
  | cons w ws ih =>
    rw [bytesOf, List.flatMap_cons, List.length_append, wordToBytes_length]
    simp only [bytesOf] at ih
    rw [ih, List.length_cons]; omega

/-- Eight bytes are the bytes of their word. -/
theorem wordToBytes_bytesToWord (b0 b1 b2 b3 b4 b5 b6 b7 : Byte) :
    wordToBytes (bytesToWord b0 b1 b2 b3 b4 b5 b6 b7) = [b0, b1, b2, b3, b4, b5, b6, b7] := by
  have h0 := b0.isLt; have h1 := b1.isLt; have h2 := b2.isLt; have h3 := b3.isLt
  have h4 := b4.isLt; have h5 := b5.isLt; have h6 := b6.isLt; have h7 := b7.isLt
  rw [wordToBytes_eq]
  simp only [bytesToWord, BitVec.toNat_ofNat, List.cons.injEq, and_true]
  refine ⟨?_, ?_, ?_, ?_, ?_, ?_, ?_, ?_⟩ <;>
    (apply BitVec.eq_of_toNat_eq; rw [BitVec.toNat_ofNat]; omega)

/-- Bytes that make whole words are the bytes of those words. -/
theorem bytesOf_wordsOf (bs : List Byte) (h : bs.length % 8 = 0) : bytesOf (wordsOf bs) = bs := by
  induction bs using wordsOf.induct with
  | case1 b0 b1 b2 b3 b4 b5 b6 b7 rest ih =>
    have hr : rest.length % 8 = 0 := by simp only [List.length_cons] at h; omega
    rw [wordsOf, bytesOf, List.flatMap_cons, wordToBytes_bytesToWord]
    have := ih hr
    simp only [bytesOf] at this
    rw [this]; rfl
  | case2 bs hn =>
    match bs, hn, h with
    | [], _, _ => rfl
    | [_], _, h => simp at h
    | [_, _], _, h => simp at h
    | [_, _, _], _, h => simp at h
    | [_, _, _, _], _, h => simp at h
    | [_, _, _, _, _], _, h => simp at h
    | [_, _, _, _, _, _], _, h => simp at h
    | [_, _, _, _, _, _, _], _, h => simp at h
    | b0 :: b1 :: b2 :: b3 :: b4 :: b5 :: b6 :: b7 :: rest, hn, _ => exact absurd rfl (hn b0 b1 b2 b3 b4 b5 b6 b7 rest)

/-- Decoding the bytes of a header and its payload is decoding the words. -/
theorem decode_bytesOf (h : Word) (ps : List Word) : decode (bytesOf (h :: ps)) = decodeWords h ps := by
  rw [decode, bytesOf_length, wordsOf_bytesOf]
  simp only [Nat.mul_mod_right, ne_eq, not_true_eq_false, if_false]

/-! ## Header fields (`30_encoding.md` R91) -/

theorem headerWord_toNat (opc unit imm : Byte) :
    (headerWord opc unit imm).toNat = opc.toNat + 2 ^ 8 * unit.toNat + 2 ^ 16 * imm.toNat := by
  have h0 := opc.isLt; have h1 := unit.isLt; have h2 := imm.isLt
  rw [headerWord, BitVec.toNat_ofNat]
  omega

@[simp] theorem opcField_headerWord (opc unit imm : Byte) : opcField (headerWord opc unit imm) = opc := by
  have h0 := opc.isLt
  apply BitVec.eq_of_toNat_eq
  rw [opcField, BitVec.toNat_ofNat, headerWord_toNat]
  omega

@[simp] theorem unitField_headerWord (opc unit imm : Byte) : unitField (headerWord opc unit imm) = unit := by
  have h0 := opc.isLt; have h1 := unit.isLt
  apply BitVec.eq_of_toNat_eq
  rw [unitField, BitVec.toNat_ofNat, headerWord_toNat]
  omega

@[simp] theorem immField_headerWord (opc unit imm : Byte) : immField (headerWord opc unit imm) = imm := by
  have h0 := opc.isLt; have h1 := unit.isLt; have h2 := imm.isLt
  apply BitVec.eq_of_toNat_eq
  rw [immField, BitVec.toNat_ofNat, headerWord_toNat]
  omega

@[simp] theorem rsvField_headerWord (opc unit imm : Byte) : rsvField (headerWord opc unit imm) = 0 := by
  have h0 := opc.isLt; have h1 := unit.isLt; have h2 := imm.isLt
  rw [rsvField, headerWord_toNat]
  omega

/-- A header with no reserved bits is made of its three fields. -/
theorem headerWord_fields (h : Word) (hr : rsvField h = 0) :
    headerWord (opcField h) (unitField h) (immField h) = h := by
  apply BitVec.eq_of_toNat_eq
  rw [headerWord_toNat]
  simp only [opcField, unitField, immField, BitVec.toNat_ofNat]
  simp only [rsvField] at hr
  have := h.isLt
  omega

@[simp] theorem opOfCode_opCode (op : Op) : opOfCode (opCode op) = some op := by cases op <;> decide

/-- An opcode byte names at most one command. -/
theorem opCode_of_opOfCode {b : Byte} {op : Op} (h : opOfCode b = some op) : opCode op = b := by
  have := List.find?_some h
  simpa using this


/-- What a packet the decoder accepts is: every check of R97 passed, and its header is the operation's. -/
theorem decodeWords_ok {h : Word} {ps : List Word} {i : Instr} (hd : decodeWords h ps = .ok i) :
    ∃ op, opOfCode (opcField h) = some op ∧ i = assemble op (unitField h) (immField h) ps
      ∧ unitField h ∈ legalUnits op ∧ immField h &&& reservedImm op = 0 ∧ ps.length = payloadCount op
      ∧ h = opHeader op (unitField h) (immField h) := by
  rw [decodeWords] at hd
  split at hd
  · cases hd
  next op hop =>
    split at hd
    · cases hd
    next h1 =>
    split at hd
    · cases hd
    next h2 =>
    split at hd
    · cases hd
    next h3 =>
    split at hd
    · cases hd
    next h4 =>
    simp only [ne_eq, Decidable.not_not] at h1 h2 h3 h4
    refine ⟨op, hop, by cases hd; rfl, h2, h3, h4, ?_⟩
    rw [opHeader, opCode_of_opOfCode hop, headerWord_fields h h1]

/-- Decoding a header that passes the checks. -/
theorem decodeWords_opHeader (op : Op) (unit imm : Byte) (ps : List Word) (hu : unit ∈ legalUnits op)
    (hi : immField (opHeader op unit imm) &&& reservedImm op = 0) (hp : ps.length = payloadCount op) :
    decodeWords (opHeader op unit imm) ps = .ok (assemble op unit imm ps) := by
  simp only [opHeader, immField_headerWord] at hi
  simp only [decodeWords, opHeader, opcField_headerWord, opOfCode_opCode, rsvField_headerWord, unitField_headerWord,
    immField_headerWord, hi, hu, hp, ne_eq, not_true_eq_false, if_false]

end Sys2Proof
end

