-- ==== Sys2Proof/Laws/Value.lean ====
section
/-! SUPPORT. The exact value of a binary64 pattern: the magnitude in units of `2^-1074` rises strictly with the pattern, so the
comparisons of Float.lean compare exact values, and the sign operations act on values as their names say. -/

namespace Sys2Proof.Machine

open Sys2Proof

/-- The units of a magnitude pattern. -/
def magUnits (m : Nat) : Nat := if m / 2 ^ 52 = 0 then m % 2 ^ 52 else (2 ^ 52 + m % 2 ^ 52) * 2 ^ (m / 2 ^ 52 - 1)

theorem fUnits_eq (a : F64) : fUnits a = magUnits (fMag a) := rfl

theorem magUnits_lt_succ (m : Nat) : magUnits m < magUnits (m + 1) := by
  unfold magUnits
  have hr : m % 2 ^ 52 < 2 ^ 52 := Nat.mod_lt _ (by norm_num)
  rcases Nat.lt_or_ge (m % 2 ^ 52 + 1) (2 ^ 52) with h | h
  · have h1 : (m + 1) / 2 ^ 52 = m / 2 ^ 52 := by omega
    have h2 : (m + 1) % 2 ^ 52 = m % 2 ^ 52 + 1 := by omega
    rw [h1, h2]
    split
    · omega
    · exact Nat.mul_lt_mul_of_pos_right (by omega) (by positivity)
  · have h1 : (m + 1) / 2 ^ 52 = m / 2 ^ 52 + 1 := by omega
    have h2 : (m + 1) % 2 ^ 52 = 0 := by omega
    have h3 : m % 2 ^ 52 = 2 ^ 52 - 1 := by omega
    rw [h1, h2, h3, if_neg (Nat.succ_ne_zero _), Nat.add_sub_cancel, Nat.add_zero]
    rcases Nat.eq_zero_or_pos (m / 2 ^ 52) with h0 | h0
    · rw [h0]; norm_num
    · rw [if_neg (by omega)]
      obtain ⟨k, hk⟩ := Nat.exists_eq_succ_of_ne_zero (Nat.pos_iff_ne_zero.mp h0)
      rw [hk, Nat.succ_sub_one]
      have hp : 2 ^ (k + 1) = 2 * 2 ^ k := Nat.pow_succ'
      have h2k : 0 < 2 ^ k := by positivity
      have he : (2 ^ 52 + (2 ^ 52 - 1)) * 2 ^ k + 2 ^ k = 2 ^ 52 * (2 * 2 ^ k) := by
        rw [← Nat.succ_mul, ← Nat.mul_assoc]; norm_num
      have hg : 2 ^ 52 * 2 ^ (k + 1) = 2 ^ 52 * (2 * 2 ^ k) := by rw [hp]
      omega

theorem magUnits_strictMono : StrictMono magUnits := strictMono_nat_of_lt_succ magUnits_lt_succ

@[simp] theorem magUnits_zero : magUnits 0 = 0 := by norm_num [magUnits]

theorem fMag_lt (a : F64) : fMag a < 2 ^ 63 := Nat.mod_lt _ (by norm_num)

/-- A pattern is its sign and its magnitude. -/
theorem fPack_fNegBit_fMag (a : F64) : fPack (fNegBit a) (fMag a) = a := by
  apply BitVec.eq_of_toNat_eq
  have h := a.isLt
  simp only [fPack, fNegBit, fMag, BitVec.toNat_ofNat]
  by_cases hs : 2 ^ 63 ≤ a.toNat
  · simp only [hs, decide_true, Bool.toNat_true]; omega
  · simp only [hs, decide_false, Bool.toNat_false]; omega

@[simp] theorem fMag_fPack (n : Bool) {m : Nat} (h : m < 2 ^ 63) : fMag (fPack n m) = m := by
  simp only [fMag, fPack, BitVec.toNat_ofNat]
  cases n <;> simp only [Bool.toNat_true, Bool.toNat_false] <;> omega

@[simp] theorem fNegBit_fPack (n : Bool) {m : Nat} (h : m < 2 ^ 63) : fNegBit (fPack n m) = n := by
  simp only [fNegBit, fPack, BitVec.toNat_ofNat]
  cases n <;> simp only [Bool.toNat_true, Bool.toNat_false, decide_eq_true_eq, decide_eq_false_iff_not] <;> omega

@[simp] theorem fMag_fNeg (a : F64) : fMag (fNeg a) = fMag a := fMag_fPack _ (fMag_lt a)
@[simp] theorem fNegBit_fNeg (a : F64) : fNegBit (fNeg a) = !fNegBit a := fNegBit_fPack _ (fMag_lt a)
@[simp] theorem fMag_fAbs (a : F64) : fMag (fAbs a) = fMag a := fMag_fPack _ (fMag_lt a)
@[simp] theorem fNegBit_fAbs (a : F64) : fNegBit (fAbs a) = false := fNegBit_fPack _ (fMag_lt a)
@[simp] theorem fFinite_fNeg (a : F64) : fFinite (fNeg a) = fFinite a := by simp [fFinite]
@[simp] theorem fFinite_fAbs (a : F64) : fFinite (fAbs a) = fFinite a := by simp [fFinite]

@[simp] theorem fInt_fNeg (a : F64) : fInt (fNeg a) = -fInt a := by
  simp only [fInt, fUnits_eq, fNegBit_fNeg, fMag_fNeg]
  cases fNegBit a <;> simp

@[simp] theorem fInt_fAbs (a : F64) : fInt (fAbs a) = |fInt a| := by
  simp only [fInt, fUnits_eq, fNegBit_fAbs, fMag_fAbs]
  cases fNegBit a <;> simp

@[simp] theorem fVal_fNeg (a : F64) : fVal (fNeg a) = -fVal a := by simp [fVal, neg_div]

@[simp] theorem fVal_fAbs (a : F64) : fVal (fAbs a) = |fVal a| := by
  simp [fVal, abs_div]

/-- A finite pattern is no NaN. -/
theorem fIsNan_of_fFinite {a : F64} (h : fFinite a = true) : fIsNan a = false := by
  simp only [fFinite, fIsNan, decide_eq_true_eq, decide_eq_false_iff_not] at *
  omega

theorem fIsInf_of_fFinite {a : F64} (h : fFinite a = true) : fIsInf a = false := by
  simp only [fFinite, fIsInf, decide_eq_true_eq, beq_eq_false_iff_ne] at *
  omega

/-- The comparison key orders patterns as their exact values. -/
theorem fKey_lt_iff (a b : F64) : fKey a < fKey b ↔ fInt a < fInt b := by
  have hab := magUnits_strictMono.lt_iff_lt (a := fMag a) (b := fMag b)
  have hba := magUnits_strictMono.lt_iff_lt (a := fMag b) (b := fMag a)
  have ha : 0 < magUnits (fMag a) ↔ 0 < fMag a := by
    simpa using magUnits_strictMono.lt_iff_lt (a := 0) (b := fMag a)
  have hb : 0 < magUnits (fMag b) ↔ 0 < fMag b := by
    simpa using magUnits_strictMono.lt_iff_lt (a := 0) (b := fMag b)
  simp only [fKey, fInt, fUnits_eq]
  cases fNegBit a <;> cases fNegBit b <;> simp only [Bool.false_eq_true, if_false, if_true] <;> omega

theorem fKey_le_iff (a b : F64) : fKey a ≤ fKey b ↔ fInt a ≤ fInt b := by
  have := fKey_lt_iff b a
  omega

theorem fKey_eq_iff (a b : F64) : fKey a = fKey b ↔ fInt a = fInt b := by
  have h1 := fKey_lt_iff b a
  have h2 := fKey_lt_iff a b
  omega

theorem fVal_lt_iff (a b : F64) : fVal a < fVal b ↔ fInt a < fInt b := by
  rw [fVal, fVal, div_lt_div_iff_of_pos_right (by positivity)]
  exact Int.cast_lt

theorem fVal_le_iff (a b : F64) : fVal a ≤ fVal b ↔ fInt a ≤ fInt b := by
  have := fVal_lt_iff b a
  rw [← not_lt, this, not_lt]

theorem fVal_eq_iff (a b : F64) : fVal a = fVal b ↔ fInt a = fInt b := by
  rw [le_antisymm_iff, fVal_le_iff, fVal_le_iff, ← le_antisymm_iff]

/-- Comparisons of finite patterns compare exact values. -/
theorem fLt_iff {a b : F64} (ha : fFinite a = true) (hb : fFinite b = true) : fLt a b = true ↔ fVal a < fVal b := by
  simp [fLt, fIsNan_of_fFinite ha, fIsNan_of_fFinite hb, fKey_lt_iff, fVal_lt_iff]

theorem fLe_iff {a b : F64} (ha : fFinite a = true) (hb : fFinite b = true) : fLe a b = true ↔ fVal a ≤ fVal b := by
  simp [fLe, fIsNan_of_fFinite ha, fIsNan_of_fFinite hb, fKey_le_iff, fVal_le_iff]

theorem fEq_iff {a b : F64} (ha : fFinite a = true) (hb : fFinite b = true) : fEq a b = true ↔ fVal a = fVal b := by
  simp [fEq, fIsNan_of_fFinite ha, fIsNan_of_fFinite hb, fKey_eq_iff, fVal_eq_iff]

/-- The value of a pattern whose units are a power of two times an integer. -/
theorem fVal_of_fInt {a : F64} {k : Int} {e f : Nat} (h : fInt a = k * 2 ^ e) (hf : e + f = 1074) :
    fVal a = k / 2 ^ f := by
  rw [fVal, h, ← hf, pow_add]
  push_cast
  field_simp

theorem fVal_posZero : fVal posZero = 0 := by
  rw [fVal_of_fInt (k := 0) (e := 0) (f := 1074) (by decide +kernel) rfl]
  simp

theorem fVal_fHalf : fVal fHalf = 1 / 2 := by
  rw [fVal_of_fInt (k := 1) (e := 1073) (f := 1) (by decide +kernel) rfl]
  norm_num

theorem fVal_fOne : fVal fOne = 1 := by
  rw [fVal_of_fInt (k := 1) (e := 1074) (f := 0) (by decide +kernel) rfl]
  norm_num

theorem fVal_fTwo53 : fVal fTwo53 = 2 ^ 53 := by
  rw [fVal_of_fInt (k := 2 ^ 53) (e := 1074) (f := 0) (by decide +kernel) rfl]
  norm_num

/-! ## The domain checks (`60_exceptions.md` R304) -/

theorem rateOk_iff (a : F64) : rateOk a = true ↔ fFinite a = true ∧ 1 / 2 ≤ fVal a ∧ fVal a < 2 ^ 53 := by
  simp only [rateOk, Bool.and_eq_true]
  constructor
  · rintro ⟨⟨h, h1⟩, h2⟩
    rw [fLe_iff (by decide) h, fVal_fHalf] at h1
    rw [fLt_iff h (by decide), fVal_fTwo53] at h2
    exact ⟨h, h1, h2⟩
  · rintro ⟨h, h1, h2⟩
    rw [fLe_iff (by decide) h, fLt_iff h (by decide), fVal_fHalf, fVal_fTwo53]
    exact ⟨⟨h, h1⟩, h2⟩

theorem filterRateOk_iff (a : F64) : filterRateOk a = true ↔ fFinite a = true ∧ 0 < fVal a := by
  simp only [filterRateOk, Bool.and_eq_true]
  refine and_congr_right fun h => ?_
  rw [fLt_iff (by decide) h, fVal_posZero]

theorem cutoffOk_iff (a : F64) : cutoffOk a = true ↔ fFinite a = true ∧ 0 ≤ fVal a := by
  simp only [cutoffOk, Bool.and_eq_true]
  refine and_congr_right fun h => ?_
  rw [fLe_iff (by decide) h, fVal_posZero]

theorem firCutoffOk_iff (a : F64) : firCutoffOk a = true ↔ fFinite a = true ∧ 0 < fVal a := by
  simp only [firCutoffOk, Bool.and_eq_true]
  refine and_congr_right fun h => ?_
  rw [fLt_iff (by decide) h, fVal_posZero]

theorem twiceBelow_iff (a b : F64) :
    twiceBelow a b = true ↔ fFinite a = true ∧ fFinite b = true ∧ 2 * fVal a < fVal b := by
  simp only [twiceBelow, Bool.and_eq_true, decide_eq_true_eq, and_assoc]
  refine and_congr_right fun _ => and_congr_right fun _ => ?_
  rw [fVal, fVal, ← mul_div_assoc, div_lt_div_iff_of_pos_right (by positivity)]
  exact_mod_cast Iff.rfl

theorem fFinite_of_fLe {a b : F64} (hb : fFinite b = true) (h0 : fNegBit b = false) (h : fLe a b = true)
    (h1 : fLe posZero a = true) : fFinite a = true := by
  simp only [fLe, fIsNan, fFinite, Bool.and_eq_true, Bool.not_eq_true', decide_eq_true_eq,
    decide_eq_false_iff_not] at *
  obtain ⟨-, h⟩ := h
  obtain ⟨-, h1⟩ := h1
  have e : fKey posZero = 0 := by decide
  rw [e] at h1
  simp only [fKey, h0, Bool.false_eq_true, if_false] at h h1
  cases hs : fNegBit a <;> simp only [hs, Bool.false_eq_true, if_false, if_true] at h h1 <;> omega

theorem wetOk_iff (a : F64) : wetOk a = true ↔ fFinite a = true ∧ 0 ≤ fVal a ∧ fVal a ≤ 1 := by
  simp only [wetOk, Bool.and_eq_true]
  constructor
  · rintro ⟨h1, h2⟩
    have h := fFinite_of_fLe (by decide) (by decide) h2 h1
    rw [fLe_iff (by decide) h, fVal_posZero] at h1
    rw [fLe_iff h (by decide), fVal_fOne] at h2
    exact ⟨h, h1, h2⟩
  · rintro ⟨h, h1, h2⟩
    rw [fLe_iff (by decide) h, fLe_iff h (by decide), fVal_fOne, fVal_posZero]
    exact ⟨h1, h2⟩

end Sys2Proof.Machine
end

