-- ==== Sys2Proof/Laws/FirSum.lean ====
section
/-! SUPPORT. The sign of the windowed sinc sum `S` of `43_filters.md` R205: over the whole domain of a cutoff `S` has the sign
of the cutoff, for every number of taps. So the requirement `S > 0` of R207 and R262 is decided exactly. -/

namespace Sys2Proof.Machine

open Sys2Proof Finset

/-! ## The sums of `sin(kx)/k` are not negative on `[0, π]` (Fejér and Jackson) -/

/-- The first `N` terms of the series of `sin(kx)/k`. -/
noncomputable def sineSum (N : Nat) (x : ℝ) : ℝ := ∑ k ∈ range N, Real.sin ((k + 1) * x) / (k + 1)

theorem sineSum_succ (N : Nat) (x : ℝ) :
    sineSum (N + 1) x = sineSum N x + Real.sin ((N + 1) * x) / (N + 1) := sum_range_succ _ N

theorem sineSum_zero (N : Nat) : sineSum N 0 = 0 := by simp [sineSum]

theorem sineSum_pi (N : Nat) : sineSum N Real.pi = 0 :=
  sum_eq_zero fun k _ => by rw [show ((k : ℝ) + 1) = ((k + 1 : ℕ) : ℝ) by simp, Real.sin_nat_mul_pi, zero_div]

theorem sineSum_hasDerivAt (N : Nat) (x : ℝ) :
    HasDerivAt (sineSum N) (∑ k ∈ range N, Real.cos ((k + 1) * x)) x := by
  refine HasDerivAt.fun_sum fun k _ => ?_
  have hk : (k : ℝ) + 1 ≠ 0 := by positivity
  have h := (((hasDerivAt_id x).const_mul ((k : ℝ) + 1)).sin).div_const ((k : ℝ) + 1)
  simpa [mul_div_assoc, hk] using h

/-- The derivative in closed form. -/
theorem cosSum_closed (N : Nat) (x : ℝ) : 2 * Real.sin (x / 2) * ∑ k ∈ range N, Real.cos ((k + 1) * x)
    = Real.sin ((N + 1 / 2) * x) - Real.sin (x / 2) := by
  induction N with
  | zero => simp [div_eq_inv_mul]
  | succ N ih =>
    have h := Real.sin_sub_sin ((((N + 1 : ℕ) : ℝ) + 1 / 2) * x) ((N + 1 / 2) * x)
    rw [show ((((N + 1 : ℕ) : ℝ) + 1 / 2) * x - (N + 1 / 2) * x) / 2 = x / 2 by push_cast; ring,
      show ((((N + 1 : ℕ) : ℝ) + 1 / 2) * x + (N + 1 / 2) * x) / 2 = (N + 1) * x by push_cast; ring] at h
    rw [sum_range_succ, mul_add, ih]
    linarith

/-- Where the derivative vanishes inside the interval, the newest term is not negative. -/
theorem newest_term_nonneg (N : Nat) (x : ℝ) (h0 : 0 < x) (hpi : x < Real.pi)
    (hd : ∑ k ∈ range (N + 1), Real.cos ((k + 1) * x) = 0) : 0 ≤ Real.sin ((N + 1) * x) := by
  have hs : 0 < Real.sin (x / 2) := Real.sin_pos_of_pos_of_lt_pi (by linarith) (by linarith)
  have hc : 0 < Real.cos (x / 2) := Real.cos_pos_of_mem_Ioo ⟨by linarith, by linarith⟩
  have e : Real.sin ((((N + 1 : ℕ) : ℝ) + 1 / 2) * x) = Real.sin (x / 2) := by
    have h := cosSum_closed (N + 1) x
    rw [hd, mul_zero] at h
    linarith
  set a := (((N + 1 : ℕ) : ℝ) + 1 / 2) * x with ha
  have hab : ((N : ℝ) + 1) * x = a - x / 2 := by rw [ha]; push_cast; ring
  have hcos : Real.cos a ≤ Real.cos (x / 2) := by
    have h1 := Real.sin_sq_add_cos_sq a
    have h2 := Real.sin_sq_add_cos_sq (x / 2)
    rw [e] at h1
    nlinarith
  rw [hab, Real.sin_sub, e]
  nlinarith

theorem sineSum_nonneg (N : Nat) : ∀ x, 0 ≤ x → x ≤ Real.pi → 0 ≤ sineSum N x := by
  induction N with
  | zero => intro x _ _; simp [sineSum]
  | succ N ih =>
    have hcont : ContinuousOn (sineSum (N + 1)) (Set.Icc 0 Real.pi) :=
      fun y _ => (sineSum_hasDerivAt (N + 1) y).continuousAt.continuousWithinAt
    obtain ⟨m, hm, hmin⟩ := isCompact_Icc.exists_isMinOn (Set.nonempty_Icc.2 Real.pi_pos.le) hcont
    suffices h : 0 ≤ sineSum (N + 1) m from fun x h0 h1 => h.trans (hmin ⟨h0, h1⟩)
    rcases hm.1.eq_or_lt with h0 | h0
    · rw [← h0, sineSum_zero]
    rcases hm.2.eq_or_lt with h1 | h1
    · rw [h1, sineSum_pi]
    have hd := (hmin.isLocalMin (Icc_mem_nhds h0 h1)).hasDerivAt_eq_zero (sineSum_hasDerivAt (N + 1) m)
    have hs := newest_term_nonneg N m h0 h1 hd
    have := ih m hm.1 hm.2
    rw [sineSum_succ]
    positivity

/-! ## A falling window keeps the sign -/

/-- Weights that fall and stay non-negative keep a sum non-negative whose partial sums are. -/
theorem weighted_sum_nonneg (a h : Nat → ℝ) (hpart : ∀ N, 0 ≤ ∑ k ∈ range N, a k) (C : Nat)
    (hfall : ∀ k, k + 1 < C → h (k + 1) ≤ h k) (hpos : ∀ k < C, 0 ≤ h k) : 0 ≤ ∑ k ∈ range C, a k * h k := by
  have key : ∀ N, N < C → h N * ∑ k ∈ range (N + 1), a k ≤ ∑ k ∈ range (N + 1), a k * h k := by
    intro N
    induction N with
    | zero => intro _; simp [mul_comm]
    | succ N ih =>
      intro hN
      have h1 := ih (by omega)
      have h2 := mul_le_mul_of_nonneg_right (hfall N hN) (hpart (N + 1))
      rw [sum_range_succ _ (N + 1), sum_range_succ _ (N + 1), mul_add]
      linarith [mul_comm (h (N + 1)) (a (N + 1))]
  cases C with
  | zero => simp
  | succ C => exact (mul_nonneg (hpos C (by omega)) (hpart (C + 1))).trans (key C (by omega))

/-- The Hamming window at distance `n` from the centre tap `C`. -/
noncomputable def windowAt (C : Nat) (n : ℝ) : ℝ := 0.54 + 0.46 * Real.cos (Real.pi * n / C)

/-- Half the windowed sum: the terms on one side of the centre, times `π`. -/
noncomputable def sideSum (C : Nat) (w : ℝ) : ℝ :=
  ∑ k ∈ range C, Real.sin ((k + 1) * w) / (k + 1) * windowAt C (k + 1)

theorem sideSum_nonneg (C : Nat) (w : ℝ) (h0 : 0 ≤ w) (h1 : w ≤ Real.pi) : 0 ≤ sideSum C w := by
  refine weighted_sum_nonneg _ (fun k => windowAt C (k + 1)) (fun N => sineSum_nonneg N w h0 h1) C ?_ ?_
  · intro k hk
    have hC : (0 : ℝ) < C := by exact_mod_cast (by omega : 0 < C)
    have hkC : ((k : ℝ) + 1 + 1) ≤ C := by exact_mod_cast (by omega : k + 1 + 1 ≤ C)
    have := Real.cos_le_cos_of_nonneg_of_le_pi (x := Real.pi * ((k : ℝ) + 1) / C)
      (y := Real.pi * ((k : ℝ) + 1 + 1) / C) (by positivity)
      (by rw [div_le_iff₀ hC]; exact mul_le_mul_of_nonneg_left hkC Real.pi_pos.le)
      (by gcongr; linarith)
    simp only [windowAt]
    push_cast
    linarith
  · intro k _
    have := Real.neg_one_le_cos (Real.pi * ((k : ℝ) + 1) / C)
    simp only [windowAt]
    linarith

theorem sideSum_neg (C : Nat) (w : ℝ) : sideSum C (-w) = -sideSum C w := by
  rw [sideSum, sideSum, ← sum_neg_distrib]
  exact sum_congr rfl fun k _ => by rw [mul_neg, Real.sin_neg, neg_div, neg_mul]

/-! ## The sum `S` -/

/-- The terms on either side of the centre, from the nearest out. -/
theorem sum_about_centre (C : Nat) (v : Nat → ℝ) :
    ∑ j ∈ range (2 * C + 1), v j = v C + ∑ k ∈ range C, (v (C - 1 - k) + v (C + 1 + k)) := by
  rw [show 2 * C + 1 = (C + 1) + C by ring, sum_range_add, sum_range_succ, sum_add_distrib, sum_range_reflect]
  ring

theorem term_at (len : Nat) (fs fc : F64) (v : Nat → ℝ) (hv : FirTermsAre len fs fc v) (C : Nat) (hC : 0 < C)
    (hlen : len = 2 * C + 1) (j : Nat) (hj : j < len) (n : ℝ) (hn : n = j - C) :
    v j = (if n = 0 then 2 * Real.pi * (fVal fc : ℚ) / (fVal fs : ℚ) / Real.pi
      else Real.sin (2 * Real.pi * (fVal fc : ℚ) / (fVal fs : ℚ) * n) / (Real.pi * n)) * windowAt C n := by
  have h := hv _ rfl j hj n (by rw [hn, hlen, Nat.add_sub_cancel, Nat.mul_div_cancel_left _ (by omega)])
  have hCr : (C : ℝ) ≠ 0 := by exact_mod_cast hC.ne'
  have hw : (0.54 : ℝ) - 0.46 * Real.cos (2 * Real.pi * j / ((len : ℝ) - 1)) = windowAt C n := by
    have : 2 * Real.pi * (j : ℝ) / ((len : ℝ) - 1) = Real.pi * n / C + Real.pi := by
      rw [hlen, hn]; push_cast; field_simp; ring
    rw [this, Real.cos_add_pi, windowAt]; ring
  rw [h, hw]

/-- `π S = ωc + 2` times the sum on one side. -/
theorem firSum_eq (len : Nat) (fs fc : F64) (v : Nat → ℝ) (hv : FirTermsAre len fs fc v) (h3 : 3 ≤ len)
    (hodd : len % 2 = 1) : Real.pi * ∑ j ∈ range len, v j
      = 2 * Real.pi * (fVal fc : ℚ) / (fVal fs : ℚ)
        + 2 * sideSum ((len - 1) / 2) (2 * Real.pi * (fVal fc : ℚ) / (fVal fs : ℚ)) := by
  obtain ⟨C, hC⟩ : ∃ C, C = (len - 1) / 2 := ⟨_, rfl⟩
  have hlen : len = 2 * C + 1 := by omega
  have hC0 : 0 < C := by omega
  have hCr : (C : ℝ) ≠ 0 := by exact_mod_cast hC0.ne'
  have hpi := Real.pi_ne_zero
  rw [← hC]
  set w := 2 * Real.pi * (fVal fc : ℚ) / (fVal fs : ℚ) with hw
  have hcen : v C = w / Real.pi := by
    rw [term_at len fs fc v hv C hC0 hlen C (by omega) 0 (by simp), if_pos rfl, ← hw, windowAt]
    simp
    norm_num
  have hside : ∀ k ∈ range C, v (C - 1 - k) + v (C + 1 + k)
      = 2 / Real.pi * (Real.sin ((k + 1) * w) / (k + 1) * windowAt C (k + 1)) := by
    intro k hk
    rw [mem_range] at hk
    have hk1 : (k : ℝ) + 1 ≠ 0 := by positivity
    have hlo : ((C - 1 - k : ℕ) : ℝ) = C - (k + 1) := by
      rw [show C - 1 - k = C - (k + 1) by omega, Nat.cast_sub (by omega)]; push_cast; ring
    rw [term_at len fs fc v hv C hC0 hlen (C - 1 - k) (by omega) (-(k + 1)) (by rw [hlo]; ring),
      term_at len fs fc v hv C hC0 hlen (C + 1 + k) (by omega) (k + 1) (by push_cast; ring),
      if_neg (neg_ne_zero.2 hk1), if_neg hk1, ← hw, mul_neg, Real.sin_neg, mul_neg, neg_div_neg_eq]
    rw [show windowAt C (-(k + 1)) = windowAt C (k + 1) by
      rw [windowAt, windowAt, mul_neg, neg_div, Real.cos_neg], mul_comm w]
    field_simp
    ring
  rw [hlen, sum_about_centre, sum_congr rfl hside, ← mul_sum, hcen, sideSum]
  field_simp

/-- In the domain of a cutoff `S` has the cutoff's sign. -/
theorem firSum_sign (len : Nat) (fs fc : F64) (v : Nat → ℝ) (hv : FirTermsAre len fs fc v) (h3 : 3 ≤ len)
    (hodd : len % 2 = 1) (hfs : 0 < fVal fs) (hlo : -fVal fs < 2 * fVal fc) (hhi : 2 * fVal fc < fVal fs) :
    0 < ∑ j ∈ range len, v j ↔ 0 < fVal fc := by
  have hpi := Real.pi_pos
  have hS := firSum_eq len fs fc v hv h3 hodd
  have hfs' : (0 : ℝ) < (fVal fs : ℚ) := by exact_mod_cast hfs
  have hlo' : -((fVal fs : ℚ) : ℝ) < 2 * (fVal fc : ℚ) := by exact_mod_cast hlo
  have hhi' : 2 * ((fVal fc : ℚ) : ℝ) < (fVal fs : ℚ) := by exact_mod_cast hhi
  have hc : (0 : ℝ) < ((fVal fc : ℚ) : ℝ) ↔ 0 < fVal fc := by exact_mod_cast Iff.rfl
  rw [← hc, ← mul_pos_iff_of_pos_left hpi, hS]
  generalize ((fVal fc : ℚ) : ℝ) = c at *
  generalize ((fVal fs : ℚ) : ℝ) = d at *
  have hw : ∀ e, 2 * e < d → 2 * Real.pi * e / d ≤ Real.pi := by
    intro e he
    rw [div_le_iff₀ hfs']
    nlinarith
  constructor
  · intro h
    by_contra hn
    have hn' : 0 ≤ 2 * Real.pi * (-c) / d := by
      apply div_nonneg _ hfs'.le
      nlinarith
    have hs := sideSum_nonneg ((len - 1) / 2) (2 * Real.pi * (-c) / d) hn' (hw _ (by linarith))
    rw [show 2 * Real.pi * (-c) / d = -(2 * Real.pi * c / d) by ring] at hs hn'
    rw [sideSum_neg] at hs
    linarith
  · intro h
    have h1 : 0 < 2 * Real.pi * c / d := by positivity
    have := sideSum_nonneg ((len - 1) / 2) _ h1.le (hw c hhi')
    linarith

/-- The model's test is the rule's: `S > 0`, in exact reals (R205, R207; log 7). -/
theorem firSumPositive_iff (len : Nat) (fs fc : F64) (v : Nat → ℝ) (hv : FirTermsAre len fs fc v) (h3 : 3 ≤ len)
    (hodd : len % 2 = 1) (hfc : fFinite fc = true) (hfs : 0 < fVal fs) (hlo : -fVal fs < 2 * fVal fc)
    (hhi : 2 * fVal fc < fVal fs) : firSumPositive len fs fc = true ↔ 0 < ∑ j ∈ range len, v j := by
  rw [firSum_sign len fs fc v hv h3 hodd hfs hlo hhi, firSumPositive, fLt_iff (by decide) hfc, fVal_posZero]

end Sys2Proof.Machine
end

