-- ==== Sys2Proof/Laws/State.lean ====
section
/-! SUPPORT. One lemma per field per state update, and the accessors of the per-channel, per-stage and per-kind records:
later proofs rewrite with these and never unfold a record update. -/

namespace Sys2Proof

/-! ## Per-channel, per-stage and per-kind records -/

variable {α : Type}

@[simp] theorem Stereo.get_left (p : Stereo α) : p.get .left = p.left := rfl

@[simp] theorem Stereo.get_right (p : Stereo α) : p.get .right = p.right := rfl

@[simp] theorem Stereo.set_left_left (p : Stereo α) (v : α) : (p.set .left v).left = v := rfl

@[simp] theorem Stereo.set_left_right (p : Stereo α) (v : α) : (p.set .left v).right = p.right := rfl

@[simp] theorem Stereo.set_right_left (p : Stereo α) (v : α) : (p.set .right v).left = p.left := rfl

@[simp] theorem Stereo.set_right_right (p : Stereo α) (v : α) : (p.set .right v).right = v := rfl

@[simp] theorem Stereo.get_set_same (p : Stereo α) (i : Chan) (v : α) : (p.set i v).get i = v := by
  cases i <;> rfl

@[simp] theorem Stereo.get_set_ne (p : Stereo α) (i j : Chan) (v : α) (h : j ≠ i) : (p.set i v).get j = p.get j := by
  cases i <;> cases j <;> first | rfl | exact absurd rfl h

@[simp] theorem Stereo.set_get (p : Stereo α) (i : Chan) : p.set i (p.get i) = p := by
  cases i <;> rfl

@[simp] theorem Stereo.set_set (p : Stereo α) (i : Chan) (v w : α) : (p.set i v).set i w = p.set i w := by
  cases i <;> rfl

@[simp] theorem Staged.get_inHpf (p : Staged α) : p.get .inHpf = p.inHpf := rfl

@[simp] theorem Staged.get_inLpf (p : Staged α) : p.get .inLpf = p.inLpf := rfl

@[simp] theorem Staged.get_outHpf (p : Staged α) : p.get .outHpf = p.outHpf := rfl

@[simp] theorem Staged.get_outLpf (p : Staged α) : p.get .outLpf = p.outLpf := rfl

@[simp] theorem Staged.set_inHpf_inHpf (p : Staged α) (v : α) : (p.set .inHpf v).inHpf = v := rfl

@[simp] theorem Staged.set_inHpf_inLpf (p : Staged α) (v : α) : (p.set .inHpf v).inLpf = p.inLpf := rfl

@[simp] theorem Staged.set_inHpf_outHpf (p : Staged α) (v : α) : (p.set .inHpf v).outHpf = p.outHpf := rfl

@[simp] theorem Staged.set_inHpf_outLpf (p : Staged α) (v : α) : (p.set .inHpf v).outLpf = p.outLpf := rfl

@[simp] theorem Staged.set_inLpf_inHpf (p : Staged α) (v : α) : (p.set .inLpf v).inHpf = p.inHpf := rfl

@[simp] theorem Staged.set_inLpf_inLpf (p : Staged α) (v : α) : (p.set .inLpf v).inLpf = v := rfl

@[simp] theorem Staged.set_inLpf_outHpf (p : Staged α) (v : α) : (p.set .inLpf v).outHpf = p.outHpf := rfl

@[simp] theorem Staged.set_inLpf_outLpf (p : Staged α) (v : α) : (p.set .inLpf v).outLpf = p.outLpf := rfl

@[simp] theorem Staged.set_outHpf_inHpf (p : Staged α) (v : α) : (p.set .outHpf v).inHpf = p.inHpf := rfl

@[simp] theorem Staged.set_outHpf_inLpf (p : Staged α) (v : α) : (p.set .outHpf v).inLpf = p.inLpf := rfl

@[simp] theorem Staged.set_outHpf_outHpf (p : Staged α) (v : α) : (p.set .outHpf v).outHpf = v := rfl

@[simp] theorem Staged.set_outHpf_outLpf (p : Staged α) (v : α) : (p.set .outHpf v).outLpf = p.outLpf := rfl

@[simp] theorem Staged.set_outLpf_inHpf (p : Staged α) (v : α) : (p.set .outLpf v).inHpf = p.inHpf := rfl

@[simp] theorem Staged.set_outLpf_inLpf (p : Staged α) (v : α) : (p.set .outLpf v).inLpf = p.inLpf := rfl

@[simp] theorem Staged.set_outLpf_outHpf (p : Staged α) (v : α) : (p.set .outLpf v).outHpf = p.outHpf := rfl

@[simp] theorem Staged.set_outLpf_outLpf (p : Staged α) (v : α) : (p.set .outLpf v).outLpf = v := rfl

@[simp] theorem Staged.get_set_same (p : Staged α) (i : Stage) (v : α) : (p.set i v).get i = v := by
  cases i <;> rfl

@[simp] theorem Staged.get_set_ne (p : Staged α) (i j : Stage) (v : α) (h : j ≠ i) : (p.set i v).get j = p.get j := by
  cases i <;> cases j <;> first | rfl | exact absurd rfl h

@[simp] theorem Staged.set_get (p : Staged α) (i : Stage) : p.set i (p.get i) = p := by
  cases i <;> rfl

@[simp] theorem Staged.set_set (p : Staged α) (i : Stage) (v w : α) : (p.set i v).set i w = p.set i w := by
  cases i <;> rfl

@[simp] theorem PerKind.get_lpf (p : PerKind α) : p.get .lpf = p.lpf := rfl

@[simp] theorem PerKind.get_hpf (p : PerKind α) : p.get .hpf = p.hpf := rfl

@[simp] theorem PerKind.set_lpf_lpf (p : PerKind α) (v : α) : (p.set .lpf v).lpf = v := rfl

@[simp] theorem PerKind.set_lpf_hpf (p : PerKind α) (v : α) : (p.set .lpf v).hpf = p.hpf := rfl

@[simp] theorem PerKind.set_hpf_lpf (p : PerKind α) (v : α) : (p.set .hpf v).lpf = p.lpf := rfl

@[simp] theorem PerKind.set_hpf_hpf (p : PerKind α) (v : α) : (p.set .hpf v).hpf = v := rfl

@[simp] theorem PerKind.get_set_same (p : PerKind α) (i : FilterKind) (v : α) : (p.set i v).get i = v := by
  cases i <;> rfl

@[simp] theorem PerKind.get_set_ne (p : PerKind α) (i j : FilterKind) (v : α) (h : j ≠ i) : (p.set i v).get j = p.get j := by
  cases i <;> cases j <;> first | rfl | exact absurd rfl h

@[simp] theorem PerKind.set_get (p : PerKind α) (i : FilterKind) : p.set i (p.get i) = p := by
  cases i <;> rfl

@[simp] theorem PerKind.set_set (p : PerKind α) (i : FilterKind) (v w : α) : (p.set i v).set i w = p.set i w := by
  cases i <;> rfl

end Sys2Proof

namespace Sys2Proof.Machine

open Sys2Proof

/-! ## respond -/

@[simp] theorem respond_cfg (s : State) (op : Op) (qs : List Word) : (respond s op qs).cfg = s.cfg := rfl

@[simp] theorem respond_sr (s : State) (op : Op) (qs : List Word) : (respond s op qs).sr = s.sr := rfl

@[simp] theorem respond_srV (s : State) (op : Op) (qs : List Word) : (respond s op qs).srV = s.srV := rfl

@[simp] theorem respond_cf (s : State) (op : Op) (qs : List Word) : (respond s op qs).cf = s.cf := rfl

@[simp] theorem respond_wf (s : State) (op : Op) (qs : List Word) : (respond s op qs).wf = s.wf := rfl

@[simp] theorem respond_cfV (s : State) (op : Op) (qs : List Word) : (respond s op qs).cfV = s.cfV := rfl

@[simp] theorem respond_fc (s : State) (op : Op) (qs : List Word) : (respond s op qs).fc = s.fc := rfl

@[simp] theorem respond_fcV (s : State) (op : Op) (qs : List Word) : (respond s op qs).fcV = s.fcV := rfl

@[simp] theorem respond_wet (s : State) (op : Op) (qs : List Word) : (respond s op qs).wet = s.wet := rfl

@[simp] theorem respond_dryg (s : State) (op : Op) (qs : List Word) : (respond s op qs).dryg = s.dryg := rfl

@[simp] theorem respond_mixV (s : State) (op : Op) (qs : List Word) : (respond s op qs).mixV = s.mixV := rfl

@[simp] theorem respond_resetPending (s : State) (op : Op) (qs : List Word) :
    (respond s op qs).resetPending = s.resetPending := rfl

@[simp] theorem respond_sw (s : State) (op : Op) (qs : List Word) : (respond s op qs).sw = s.sw := rfl

@[simp] theorem respond_dds (s : State) (op : Op) (qs : List Word) : (respond s op qs).dds = s.dds := rfl

@[simp] theorem respond_dry (s : State) (op : Op) (qs : List Word) : (respond s op qs).dry = s.dry := rfl

@[simp] theorem respond_ht (s : State) (op : Op) (qs : List Word) : (respond s op qs).ht = s.ht := rfl

@[simp] theorem respond_iir (s : State) (op : Op) (qs : List Word) : (respond s op qs).iir = s.iir := rfl

@[simp] theorem respond_fir (s : State) (op : Op) (qs : List Word) : (respond s op qs).fir = s.fir := rfl

@[simp] theorem respond_nanCount (s : State) (op : Op) (qs : List Word) :
    (respond s op qs).nanCount = s.nanCount := rfl

@[simp] theorem respond_cmds (s : State) (op : Op) (qs : List Word) : (respond s op qs).cmds = s.cmds := rfl

@[simp] theorem respond_resp (s : State) (op : Op) (qs : List Word) :
    (respond s op qs).resp = some ⟨statusWord .ok (opCode op) false false, qs⟩ := rfl

/-! ## respondSilence -/

@[simp] theorem respondSilence_cfg (s : State) (op : Op) (l r : Bool) (qs : List Word) :
    (respondSilence s op l r qs).cfg = s.cfg := rfl

@[simp] theorem respondSilence_sr (s : State) (op : Op) (l r : Bool) (qs : List Word) :
    (respondSilence s op l r qs).sr = s.sr := rfl

@[simp] theorem respondSilence_srV (s : State) (op : Op) (l r : Bool) (qs : List Word) :
    (respondSilence s op l r qs).srV = s.srV := rfl

@[simp] theorem respondSilence_cf (s : State) (op : Op) (l r : Bool) (qs : List Word) :
    (respondSilence s op l r qs).cf = s.cf := rfl

@[simp] theorem respondSilence_wf (s : State) (op : Op) (l r : Bool) (qs : List Word) :
    (respondSilence s op l r qs).wf = s.wf := rfl

@[simp] theorem respondSilence_cfV (s : State) (op : Op) (l r : Bool) (qs : List Word) :
    (respondSilence s op l r qs).cfV = s.cfV := rfl

@[simp] theorem respondSilence_fc (s : State) (op : Op) (l r : Bool) (qs : List Word) :
    (respondSilence s op l r qs).fc = s.fc := rfl

@[simp] theorem respondSilence_fcV (s : State) (op : Op) (l r : Bool) (qs : List Word) :
    (respondSilence s op l r qs).fcV = s.fcV := rfl

@[simp] theorem respondSilence_wet (s : State) (op : Op) (l r : Bool) (qs : List Word) :
    (respondSilence s op l r qs).wet = s.wet := rfl

@[simp] theorem respondSilence_dryg (s : State) (op : Op) (l r : Bool) (qs : List Word) :
    (respondSilence s op l r qs).dryg = s.dryg := rfl

@[simp] theorem respondSilence_mixV (s : State) (op : Op) (l r : Bool) (qs : List Word) :
    (respondSilence s op l r qs).mixV = s.mixV := rfl

@[simp] theorem respondSilence_resetPending (s : State) (op : Op) (l r : Bool) (qs : List Word) :
    (respondSilence s op l r qs).resetPending = s.resetPending := rfl

@[simp] theorem respondSilence_sw (s : State) (op : Op) (l r : Bool) (qs : List Word) :
    (respondSilence s op l r qs).sw = s.sw := rfl

@[simp] theorem respondSilence_dds (s : State) (op : Op) (l r : Bool) (qs : List Word) :
    (respondSilence s op l r qs).dds = s.dds := rfl

@[simp] theorem respondSilence_dry (s : State) (op : Op) (l r : Bool) (qs : List Word) :
    (respondSilence s op l r qs).dry = s.dry := rfl

@[simp] theorem respondSilence_ht (s : State) (op : Op) (l r : Bool) (qs : List Word) :
    (respondSilence s op l r qs).ht = s.ht := rfl

@[simp] theorem respondSilence_iir (s : State) (op : Op) (l r : Bool) (qs : List Word) :
    (respondSilence s op l r qs).iir = s.iir := rfl

@[simp] theorem respondSilence_fir (s : State) (op : Op) (l r : Bool) (qs : List Word) :
    (respondSilence s op l r qs).fir = s.fir := rfl

@[simp] theorem respondSilence_nanCount (s : State) (op : Op) (l r : Bool) (qs : List Word) :
    (respondSilence s op l r qs).nanCount = s.nanCount := rfl

@[simp] theorem respondSilence_cmds (s : State) (op : Op) (l r : Bool) (qs : List Word) :
    (respondSilence s op l r qs).cmds = s.cmds := rfl

@[simp] theorem respondSilence_resp (s : State) (op : Op) (l r : Bool) (qs : List Word) :
    (respondSilence s op l r qs).resp = some ⟨statusWord .ok (opCode op) l r, qs⟩ := rfl

/-! ## respondStatus -/

@[simp] theorem respondStatus_cfg (s : State) (st : Status) (echo : Byte) :
    (respondStatus s st echo).cfg = s.cfg := rfl

@[simp] theorem respondStatus_sr (s : State) (st : Status) (echo : Byte) : (respondStatus s st echo).sr = s.sr := rfl

@[simp] theorem respondStatus_srV (s : State) (st : Status) (echo : Byte) :
    (respondStatus s st echo).srV = s.srV := rfl

@[simp] theorem respondStatus_cf (s : State) (st : Status) (echo : Byte) : (respondStatus s st echo).cf = s.cf := rfl

@[simp] theorem respondStatus_wf (s : State) (st : Status) (echo : Byte) : (respondStatus s st echo).wf = s.wf := rfl

@[simp] theorem respondStatus_cfV (s : State) (st : Status) (echo : Byte) :
    (respondStatus s st echo).cfV = s.cfV := rfl

@[simp] theorem respondStatus_fc (s : State) (st : Status) (echo : Byte) : (respondStatus s st echo).fc = s.fc := rfl

@[simp] theorem respondStatus_fcV (s : State) (st : Status) (echo : Byte) :
    (respondStatus s st echo).fcV = s.fcV := rfl

@[simp] theorem respondStatus_wet (s : State) (st : Status) (echo : Byte) :
    (respondStatus s st echo).wet = s.wet := rfl

@[simp] theorem respondStatus_dryg (s : State) (st : Status) (echo : Byte) :
    (respondStatus s st echo).dryg = s.dryg := rfl

@[simp] theorem respondStatus_mixV (s : State) (st : Status) (echo : Byte) :
    (respondStatus s st echo).mixV = s.mixV := rfl

@[simp] theorem respondStatus_resetPending (s : State) (st : Status) (echo : Byte) :
    (respondStatus s st echo).resetPending = s.resetPending := rfl

@[simp] theorem respondStatus_sw (s : State) (st : Status) (echo : Byte) : (respondStatus s st echo).sw = s.sw := rfl

@[simp] theorem respondStatus_dds (s : State) (st : Status) (echo : Byte) :
    (respondStatus s st echo).dds = s.dds := rfl

@[simp] theorem respondStatus_dry (s : State) (st : Status) (echo : Byte) :
    (respondStatus s st echo).dry = s.dry := rfl

@[simp] theorem respondStatus_ht (s : State) (st : Status) (echo : Byte) : (respondStatus s st echo).ht = s.ht := rfl

@[simp] theorem respondStatus_iir (s : State) (st : Status) (echo : Byte) :
    (respondStatus s st echo).iir = s.iir := rfl

@[simp] theorem respondStatus_fir (s : State) (st : Status) (echo : Byte) :
    (respondStatus s st echo).fir = s.fir := rfl

@[simp] theorem respondStatus_nanCount (s : State) (st : Status) (echo : Byte) :
    (respondStatus s st echo).nanCount = s.nanCount := rfl

@[simp] theorem respondStatus_cmds (s : State) (st : Status) (echo : Byte) :
    (respondStatus s st echo).cmds = s.cmds := rfl

@[simp] theorem respondStatus_resp (s : State) (st : Status) (echo : Byte) :
    (respondStatus s st echo).resp = some ⟨statusWord st echo false false, []⟩ := rfl

/-! ## bumpNan -/

@[simp] theorem bumpNan_cfg (s : State) : (bumpNan s).cfg = s.cfg := rfl

@[simp] theorem bumpNan_sr (s : State) : (bumpNan s).sr = s.sr := rfl

@[simp] theorem bumpNan_srV (s : State) : (bumpNan s).srV = s.srV := rfl

@[simp] theorem bumpNan_cf (s : State) : (bumpNan s).cf = s.cf := rfl

@[simp] theorem bumpNan_wf (s : State) : (bumpNan s).wf = s.wf := rfl

@[simp] theorem bumpNan_cfV (s : State) : (bumpNan s).cfV = s.cfV := rfl

@[simp] theorem bumpNan_fc (s : State) : (bumpNan s).fc = s.fc := rfl

@[simp] theorem bumpNan_fcV (s : State) : (bumpNan s).fcV = s.fcV := rfl

@[simp] theorem bumpNan_wet (s : State) : (bumpNan s).wet = s.wet := rfl

@[simp] theorem bumpNan_dryg (s : State) : (bumpNan s).dryg = s.dryg := rfl

@[simp] theorem bumpNan_mixV (s : State) : (bumpNan s).mixV = s.mixV := rfl

@[simp] theorem bumpNan_resetPending (s : State) : (bumpNan s).resetPending = s.resetPending := rfl

@[simp] theorem bumpNan_sw (s : State) : (bumpNan s).sw = s.sw := rfl

@[simp] theorem bumpNan_dds (s : State) : (bumpNan s).dds = s.dds := rfl

@[simp] theorem bumpNan_dry (s : State) : (bumpNan s).dry = s.dry := rfl

@[simp] theorem bumpNan_ht (s : State) : (bumpNan s).ht = s.ht := rfl

@[simp] theorem bumpNan_iir (s : State) : (bumpNan s).iir = s.iir := rfl

@[simp] theorem bumpNan_fir (s : State) : (bumpNan s).fir = s.fir := rfl

@[simp] theorem bumpNan_nanCount (s : State) : (bumpNan s).nanCount = s.nanCount + 1 := rfl

@[simp] theorem bumpNan_cmds (s : State) : (bumpNan s).cmds = s.cmds := rfl

@[simp] theorem bumpNan_resp (s : State) : (bumpNan s).resp = s.resp := rfl

/-! ## setIir -/

@[simp] theorem setIir_cfg (s : State) (st : Stage) (c : Chan) (u : Iir) : (setIir s st c u).cfg = s.cfg := rfl

@[simp] theorem setIir_sr (s : State) (st : Stage) (c : Chan) (u : Iir) : (setIir s st c u).sr = s.sr := rfl

@[simp] theorem setIir_srV (s : State) (st : Stage) (c : Chan) (u : Iir) : (setIir s st c u).srV = s.srV := rfl

@[simp] theorem setIir_cf (s : State) (st : Stage) (c : Chan) (u : Iir) : (setIir s st c u).cf = s.cf := rfl

@[simp] theorem setIir_wf (s : State) (st : Stage) (c : Chan) (u : Iir) : (setIir s st c u).wf = s.wf := rfl

@[simp] theorem setIir_cfV (s : State) (st : Stage) (c : Chan) (u : Iir) : (setIir s st c u).cfV = s.cfV := rfl

@[simp] theorem setIir_fc (s : State) (st : Stage) (c : Chan) (u : Iir) : (setIir s st c u).fc = s.fc := rfl

@[simp] theorem setIir_fcV (s : State) (st : Stage) (c : Chan) (u : Iir) : (setIir s st c u).fcV = s.fcV := rfl

@[simp] theorem setIir_wet (s : State) (st : Stage) (c : Chan) (u : Iir) : (setIir s st c u).wet = s.wet := rfl

@[simp] theorem setIir_dryg (s : State) (st : Stage) (c : Chan) (u : Iir) : (setIir s st c u).dryg = s.dryg := rfl

@[simp] theorem setIir_mixV (s : State) (st : Stage) (c : Chan) (u : Iir) : (setIir s st c u).mixV = s.mixV := rfl

@[simp] theorem setIir_resetPending (s : State) (st : Stage) (c : Chan) (u : Iir) :
    (setIir s st c u).resetPending = s.resetPending := rfl

@[simp] theorem setIir_sw (s : State) (st : Stage) (c : Chan) (u : Iir) : (setIir s st c u).sw = s.sw := rfl

@[simp] theorem setIir_dds (s : State) (st : Stage) (c : Chan) (u : Iir) : (setIir s st c u).dds = s.dds := rfl

@[simp] theorem setIir_dry (s : State) (st : Stage) (c : Chan) (u : Iir) : (setIir s st c u).dry = s.dry := rfl

@[simp] theorem setIir_ht (s : State) (st : Stage) (c : Chan) (u : Iir) : (setIir s st c u).ht = s.ht := rfl

@[simp] theorem setIir_iir (s : State) (st : Stage) (c : Chan) (u : Iir) :
    (setIir s st c u).iir = s.iir.set st ((s.iir.get st).set c u) := rfl

@[simp] theorem setIir_fir (s : State) (st : Stage) (c : Chan) (u : Iir) : (setIir s st c u).fir = s.fir := rfl

@[simp] theorem setIir_nanCount (s : State) (st : Stage) (c : Chan) (u : Iir) :
    (setIir s st c u).nanCount = s.nanCount := rfl

@[simp] theorem setIir_cmds (s : State) (st : Stage) (c : Chan) (u : Iir) : (setIir s st c u).cmds = s.cmds := rfl

@[simp] theorem setIir_resp (s : State) (st : Stage) (c : Chan) (u : Iir) : (setIir s st c u).resp = s.resp := rfl

/-! ## setChanUnits -/

@[simp] theorem setChanUnits_cfg (s : State) (c : Chan) (u : ChanUnits) : (setChanUnits s c u).cfg = s.cfg := rfl

@[simp] theorem setChanUnits_sr (s : State) (c : Chan) (u : ChanUnits) : (setChanUnits s c u).sr = s.sr := rfl

@[simp] theorem setChanUnits_srV (s : State) (c : Chan) (u : ChanUnits) : (setChanUnits s c u).srV = s.srV := rfl

@[simp] theorem setChanUnits_cf (s : State) (c : Chan) (u : ChanUnits) : (setChanUnits s c u).cf = s.cf := rfl

@[simp] theorem setChanUnits_wf (s : State) (c : Chan) (u : ChanUnits) : (setChanUnits s c u).wf = s.wf := rfl

@[simp] theorem setChanUnits_cfV (s : State) (c : Chan) (u : ChanUnits) : (setChanUnits s c u).cfV = s.cfV := rfl

@[simp] theorem setChanUnits_fc (s : State) (c : Chan) (u : ChanUnits) : (setChanUnits s c u).fc = s.fc := rfl

@[simp] theorem setChanUnits_fcV (s : State) (c : Chan) (u : ChanUnits) : (setChanUnits s c u).fcV = s.fcV := rfl

@[simp] theorem setChanUnits_wet (s : State) (c : Chan) (u : ChanUnits) : (setChanUnits s c u).wet = s.wet := rfl

@[simp] theorem setChanUnits_dryg (s : State) (c : Chan) (u : ChanUnits) : (setChanUnits s c u).dryg = s.dryg := rfl

@[simp] theorem setChanUnits_mixV (s : State) (c : Chan) (u : ChanUnits) : (setChanUnits s c u).mixV = s.mixV := rfl

@[simp] theorem setChanUnits_resetPending (s : State) (c : Chan) (u : ChanUnits) :
    (setChanUnits s c u).resetPending = s.resetPending := rfl

@[simp] theorem setChanUnits_sw (s : State) (c : Chan) (u : ChanUnits) : (setChanUnits s c u).sw = s.sw := rfl

@[simp] theorem setChanUnits_dds (s : State) (c : Chan) (u : ChanUnits) : (setChanUnits s c u).dds = s.dds := rfl

@[simp] theorem setChanUnits_dry (s : State) (c : Chan) (u : ChanUnits) :
    (setChanUnits s c u).dry = s.dry.set c u.dry := rfl

@[simp] theorem setChanUnits_ht (s : State) (c : Chan) (u : ChanUnits) :
    (setChanUnits s c u).ht = s.ht.set c u.ht := rfl

@[simp] theorem setChanUnits_iir (s : State) (c : Chan) (u : ChanUnits) :
    (setChanUnits s c u).iir = ⟨s.iir.inHpf.set c u.inHpf, s.iir.inLpf.set c u.inLpf,
      s.iir.outHpf.set c u.outHpf, s.iir.outLpf.set c u.outLpf⟩ := rfl

@[simp] theorem setChanUnits_fir (s : State) (c : Chan) (u : ChanUnits) : (setChanUnits s c u).fir = s.fir := rfl

@[simp] theorem setChanUnits_nanCount (s : State) (c : Chan) (u : ChanUnits) :
    (setChanUnits s c u).nanCount = s.nanCount := rfl

@[simp] theorem setChanUnits_cmds (s : State) (c : Chan) (u : ChanUnits) : (setChanUnits s c u).cmds = s.cmds := rfl

@[simp] theorem setChanUnits_resp (s : State) (c : Chan) (u : ChanUnits) : (setChanUnits s c u).resp = s.resp := rfl

/-! ## configureRate -/

@[simp] theorem configureRate_cfg (s : State) (fs : F64) : (configureRate s fs).cfg = s.cfg := rfl

@[simp] theorem configureRate_sr (s : State) (fs : F64) : (configureRate s fs).sr = fs := rfl

@[simp] theorem configureRate_srV (s : State) (fs : F64) : (configureRate s fs).srV = true := rfl

@[simp] theorem configureRate_cf (s : State) (fs : F64) : (configureRate s fs).cf = s.cf := rfl

@[simp] theorem configureRate_wf (s : State) (fs : F64) : (configureRate s fs).wf = s.wf := rfl

@[simp] theorem configureRate_cfV (s : State) (fs : F64) : (configureRate s fs).cfV = s.cfV := rfl

@[simp] theorem configureRate_fc (s : State) (fs : F64) : (configureRate s fs).fc = s.fc := rfl

@[simp] theorem configureRate_fcV (s : State) (fs : F64) : (configureRate s fs).fcV = s.fcV := rfl

@[simp] theorem configureRate_wet (s : State) (fs : F64) : (configureRate s fs).wet = s.wet := rfl

@[simp] theorem configureRate_dryg (s : State) (fs : F64) : (configureRate s fs).dryg = s.dryg := rfl

@[simp] theorem configureRate_mixV (s : State) (fs : F64) : (configureRate s fs).mixV = s.mixV := rfl

@[simp] theorem configureRate_resetPending (s : State) (fs : F64) :
    (configureRate s fs).resetPending = (s.resetPending || !s.srV || !fEq fs s.sr) := rfl

@[simp] theorem configureRate_sw (s : State) (fs : F64) : (configureRate s fs).sw = s.sw := rfl

@[simp] theorem configureRate_dds (s : State) (fs : F64) : (configureRate s fs).dds = s.dds := rfl

@[simp] theorem configureRate_dry (s : State) (fs : F64) : (configureRate s fs).dry = s.dry := rfl

@[simp] theorem configureRate_ht (s : State) (fs : F64) : (configureRate s fs).ht = s.ht := rfl

@[simp] theorem configureRate_iir (s : State) (fs : F64) : (configureRate s fs).iir = s.iir := rfl

@[simp] theorem configureRate_fir (s : State) (fs : F64) : (configureRate s fs).fir = s.fir := rfl

@[simp] theorem configureRate_nanCount (s : State) (fs : F64) : (configureRate s fs).nanCount = s.nanCount := rfl

@[simp] theorem configureRate_cmds (s : State) (fs : F64) : (configureRate s fs).cmds = s.cmds := rfl

@[simp] theorem configureRate_resp (s : State) (fs : F64) : (configureRate s fs).resp = s.resp := rfl

/-! ## carrierRegs -/

@[simp] theorem carrierRegs_cfg (s : State) (w : BitVec 8) (f : F64) : (carrierRegs s w f).cfg = s.cfg := rfl

@[simp] theorem carrierRegs_sr (s : State) (w : BitVec 8) (f : F64) : (carrierRegs s w f).sr = s.sr := rfl

@[simp] theorem carrierRegs_srV (s : State) (w : BitVec 8) (f : F64) : (carrierRegs s w f).srV = s.srV := rfl

@[simp] theorem carrierRegs_cf (s : State) (w : BitVec 8) (f : F64) : (carrierRegs s w f).cf = f := rfl

@[simp] theorem carrierRegs_wf (s : State) (w : BitVec 8) (f : F64) : (carrierRegs s w f).wf = w := rfl

@[simp] theorem carrierRegs_cfV (s : State) (w : BitVec 8) (f : F64) : (carrierRegs s w f).cfV = true := rfl

@[simp] theorem carrierRegs_fc (s : State) (w : BitVec 8) (f : F64) : (carrierRegs s w f).fc = s.fc := rfl

@[simp] theorem carrierRegs_fcV (s : State) (w : BitVec 8) (f : F64) : (carrierRegs s w f).fcV = s.fcV := rfl

@[simp] theorem carrierRegs_wet (s : State) (w : BitVec 8) (f : F64) : (carrierRegs s w f).wet = s.wet := rfl

@[simp] theorem carrierRegs_dryg (s : State) (w : BitVec 8) (f : F64) : (carrierRegs s w f).dryg = s.dryg := rfl

@[simp] theorem carrierRegs_mixV (s : State) (w : BitVec 8) (f : F64) : (carrierRegs s w f).mixV = s.mixV := rfl

@[simp] theorem carrierRegs_resetPending (s : State) (w : BitVec 8) (f : F64) :
    (carrierRegs s w f).resetPending = s.resetPending := rfl

@[simp] theorem carrierRegs_sw (s : State) (w : BitVec 8) (f : F64) :
    (carrierRegs s w f).sw = swAfterCarrier s.sw s.cfV s.cf f := rfl

@[simp] theorem carrierRegs_dds (s : State) (w : BitVec 8) (f : F64) : (carrierRegs s w f).dds = s.dds := rfl

@[simp] theorem carrierRegs_dry (s : State) (w : BitVec 8) (f : F64) : (carrierRegs s w f).dry = s.dry := rfl

@[simp] theorem carrierRegs_ht (s : State) (w : BitVec 8) (f : F64) : (carrierRegs s w f).ht = s.ht := rfl

@[simp] theorem carrierRegs_iir (s : State) (w : BitVec 8) (f : F64) : (carrierRegs s w f).iir = s.iir := rfl

@[simp] theorem carrierRegs_fir (s : State) (w : BitVec 8) (f : F64) : (carrierRegs s w f).fir = s.fir := rfl

@[simp] theorem carrierRegs_nanCount (s : State) (w : BitVec 8) (f : F64) :
    (carrierRegs s w f).nanCount = s.nanCount := rfl

@[simp] theorem carrierRegs_cmds (s : State) (w : BitVec 8) (f : F64) : (carrierRegs s w f).cmds = s.cmds := rfl

@[simp] theorem carrierRegs_resp (s : State) (w : BitVec 8) (f : F64) : (carrierRegs s w f).resp = s.resp := rfl

/-! ## cutoffRegs -/

@[simp] theorem cutoffRegs_cfg (s : State) (st : Stage) (hz : F64) : (cutoffRegs s st hz).cfg = s.cfg := rfl

@[simp] theorem cutoffRegs_sr (s : State) (st : Stage) (hz : F64) : (cutoffRegs s st hz).sr = s.sr := rfl

@[simp] theorem cutoffRegs_srV (s : State) (st : Stage) (hz : F64) : (cutoffRegs s st hz).srV = s.srV := rfl

@[simp] theorem cutoffRegs_cf (s : State) (st : Stage) (hz : F64) : (cutoffRegs s st hz).cf = s.cf := rfl

@[simp] theorem cutoffRegs_wf (s : State) (st : Stage) (hz : F64) : (cutoffRegs s st hz).wf = s.wf := rfl

@[simp] theorem cutoffRegs_cfV (s : State) (st : Stage) (hz : F64) : (cutoffRegs s st hz).cfV = s.cfV := rfl

@[simp] theorem cutoffRegs_fc (s : State) (st : Stage) (hz : F64) : (cutoffRegs s st hz).fc = s.fc.set st hz := rfl

@[simp] theorem cutoffRegs_fcV (s : State) (st : Stage) (hz : F64) :
    (cutoffRegs s st hz).fcV = s.fcV.set st true := rfl

@[simp] theorem cutoffRegs_wet (s : State) (st : Stage) (hz : F64) : (cutoffRegs s st hz).wet = s.wet := rfl

@[simp] theorem cutoffRegs_dryg (s : State) (st : Stage) (hz : F64) : (cutoffRegs s st hz).dryg = s.dryg := rfl

@[simp] theorem cutoffRegs_mixV (s : State) (st : Stage) (hz : F64) : (cutoffRegs s st hz).mixV = s.mixV := rfl

@[simp] theorem cutoffRegs_resetPending (s : State) (st : Stage) (hz : F64) :
    (cutoffRegs s st hz).resetPending = s.resetPending := rfl

@[simp] theorem cutoffRegs_sw (s : State) (st : Stage) (hz : F64) : (cutoffRegs s st hz).sw = s.sw := rfl

@[simp] theorem cutoffRegs_dds (s : State) (st : Stage) (hz : F64) : (cutoffRegs s st hz).dds = s.dds := rfl

@[simp] theorem cutoffRegs_dry (s : State) (st : Stage) (hz : F64) : (cutoffRegs s st hz).dry = s.dry := rfl

@[simp] theorem cutoffRegs_ht (s : State) (st : Stage) (hz : F64) : (cutoffRegs s st hz).ht = s.ht := rfl

@[simp] theorem cutoffRegs_iir (s : State) (st : Stage) (hz : F64) : (cutoffRegs s st hz).iir = s.iir := rfl

@[simp] theorem cutoffRegs_fir (s : State) (st : Stage) (hz : F64) : (cutoffRegs s st hz).fir = s.fir := rfl

@[simp] theorem cutoffRegs_nanCount (s : State) (st : Stage) (hz : F64) :
    (cutoffRegs s st hz).nanCount = s.nanCount := rfl

@[simp] theorem cutoffRegs_cmds (s : State) (st : Stage) (hz : F64) : (cutoffRegs s st hz).cmds = s.cmds := rfl

@[simp] theorem cutoffRegs_resp (s : State) (st : Stage) (hz : F64) : (cutoffRegs s st hz).resp = s.resp := rfl

/-! ## resetAll -/

@[simp] theorem resetAll_cfg (s : State) : (resetAll s).cfg = s.cfg := rfl

@[simp] theorem resetAll_sr (s : State) : (resetAll s).sr = s.sr := rfl

@[simp] theorem resetAll_srV (s : State) : (resetAll s).srV = s.srV := rfl

@[simp] theorem resetAll_cf (s : State) : (resetAll s).cf = s.cf := rfl

@[simp] theorem resetAll_wf (s : State) : (resetAll s).wf = s.wf := rfl

@[simp] theorem resetAll_cfV (s : State) : (resetAll s).cfV = s.cfV := rfl

@[simp] theorem resetAll_fc (s : State) : (resetAll s).fc = s.fc := rfl

@[simp] theorem resetAll_fcV (s : State) : (resetAll s).fcV = s.fcV := rfl

@[simp] theorem resetAll_wet (s : State) : (resetAll s).wet = s.wet := rfl

@[simp] theorem resetAll_dryg (s : State) : (resetAll s).dryg = s.dryg := rfl

@[simp] theorem resetAll_mixV (s : State) : (resetAll s).mixV = s.mixV := rfl

@[simp] theorem resetAll_resetPending (s : State) : (resetAll s).resetPending = false := rfl

@[simp] theorem resetAll_sw (s : State) : (resetAll s).sw = false := rfl

@[simp] theorem resetAll_dds (s : State) : (resetAll s).dds = ddsReset s.dds := rfl

@[simp] theorem resetAll_dry (s : State) : (resetAll s).dry = ⟨dlClear s.dry.left, dlClear s.dry.right⟩ := rfl

@[simp] theorem resetAll_ht (s : State) : (resetAll s).ht = ⟨dlClear s.ht.left, dlClear s.ht.right⟩ := rfl

@[simp] theorem resetAll_iir (s : State) :
    (resetAll s).iir = ⟨⟨iirReset s.iir.inHpf.left, iirReset s.iir.inHpf.right⟩,
      ⟨iirReset s.iir.inLpf.left, iirReset s.iir.inLpf.right⟩,
      ⟨iirReset s.iir.outHpf.left, iirReset s.iir.outHpf.right⟩,
      ⟨iirReset s.iir.outLpf.left, iirReset s.iir.outLpf.right⟩⟩ := rfl

@[simp] theorem resetAll_fir (s : State) : (resetAll s).fir = ⟨firReset s.fir.lpf, firReset s.fir.hpf⟩ := rfl

@[simp] theorem resetAll_nanCount (s : State) : (resetAll s).nanCount = s.nanCount := rfl

@[simp] theorem resetAll_cmds (s : State) : (resetAll s).cmds = s.cmds := rfl

@[simp] theorem resetAll_resp (s : State) : (resetAll s).resp = s.resp := rfl

/-! ## withFetchWord -/

@[simp] theorem withFetchWord_cfg (s : State) (nbits w : Nat) : (s.withFetchWord nbits w).cfg = s.cfg := rfl

@[simp] theorem withFetchWord_sr (s : State) (nbits w : Nat) : (s.withFetchWord nbits w).sr = s.sr := rfl

@[simp] theorem withFetchWord_srV (s : State) (nbits w : Nat) : (s.withFetchWord nbits w).srV = s.srV := rfl

@[simp] theorem withFetchWord_cf (s : State) (nbits w : Nat) : (s.withFetchWord nbits w).cf = s.cf := rfl

@[simp] theorem withFetchWord_wf (s : State) (nbits w : Nat) : (s.withFetchWord nbits w).wf = s.wf := rfl

@[simp] theorem withFetchWord_cfV (s : State) (nbits w : Nat) : (s.withFetchWord nbits w).cfV = s.cfV := rfl

@[simp] theorem withFetchWord_fc (s : State) (nbits w : Nat) : (s.withFetchWord nbits w).fc = s.fc := rfl

@[simp] theorem withFetchWord_fcV (s : State) (nbits w : Nat) : (s.withFetchWord nbits w).fcV = s.fcV := rfl

@[simp] theorem withFetchWord_wet (s : State) (nbits w : Nat) : (s.withFetchWord nbits w).wet = s.wet := rfl

@[simp] theorem withFetchWord_dryg (s : State) (nbits w : Nat) : (s.withFetchWord nbits w).dryg = s.dryg := rfl

@[simp] theorem withFetchWord_mixV (s : State) (nbits w : Nat) : (s.withFetchWord nbits w).mixV = s.mixV := rfl

@[simp] theorem withFetchWord_resetPending (s : State) (nbits w : Nat) :
    (s.withFetchWord nbits w).resetPending = s.resetPending := rfl

@[simp] theorem withFetchWord_sw (s : State) (nbits w : Nat) : (s.withFetchWord nbits w).sw = s.sw := rfl

@[simp] theorem withFetchWord_dds (s : State) (nbits w : Nat) : (s.withFetchWord nbits w).dds = s.dds := rfl

@[simp] theorem withFetchWord_dry (s : State) (nbits w : Nat) : (s.withFetchWord nbits w).dry = s.dry := rfl

@[simp] theorem withFetchWord_ht (s : State) (nbits w : Nat) : (s.withFetchWord nbits w).ht = s.ht := rfl

@[simp] theorem withFetchWord_iir (s : State) (nbits w : Nat) : (s.withFetchWord nbits w).iir = s.iir := rfl

@[simp] theorem withFetchWord_fir (s : State) (nbits w : Nat) : (s.withFetchWord nbits w).fir = s.fir := rfl

@[simp] theorem withFetchWord_nanCount (s : State) (nbits w : Nat) :
    (s.withFetchWord nbits w).nanCount = s.nanCount := rfl

@[simp] theorem withFetchWord_cmds (s : State) (nbits w : Nat) :
    (s.withFetchWord nbits w).cmds = tablePacket nbits w :: s.cmds.tail := rfl

@[simp] theorem withFetchWord_resp (s : State) (nbits w : Nat) : (s.withFetchWord nbits w).resp = s.resp := rfl

end Sys2Proof.Machine
end

