-- ==== Sys2Proof/Laws/Ops.lean ====
section
/-! SUPPORT. One lemma per shared operation that says what it can do: what its answer `.ok` or `.next` means, and what the
delay-line primitives read back. The statements' proofs cite these instead of unfolding the operations. -/

namespace Sys2Proof.Machine

open Sys2Proof

/-! ## Ending a command -/

/-- A finished command answers a next state exactly when its setups succeeded. -/
theorem finish_next {op : Op} {r : Except Refusal State} {t : State} :
    finish op r = .next t ↔ ∃ u, r = .ok u ∧ t = respond u op [] := by
  cases r with
  | ok u =>
    simp only [finish, Host.Outcome.next.injEq, Except.ok.injEq, exists_eq_left']
    exact eq_comm
  | error e => simp [finish]

/-- It is refused exactly when a setup refused. -/
theorem finish_refused {op : Op} {r : Except Refusal State} {e : Refusal} :
    finish op r = .refused e ↔ r = .error e := by
  cases r <;> simp [finish]

/-- An `Except` computation that binds succeeds exactly when both parts do. -/
theorem except_bind_ok {ε α β : Type} {x : Except ε α} {f : α → Except ε β} {b : β} :
    (x >>= f) = .ok b ↔ ∃ a, x = .ok a ∧ f a = .ok b := by
  cases x <;> simp [bind, Except.bind]

/-! ## Delay lines (`40_delay_line.md` R120-R123) -/

/-- What `lineOk` says. -/
theorem lineOk_iff {cap : Nat} {u : DelayLine} : lineOk cap u = true ↔ u.buf.length = cap ∧ u.wp < cap := by
  simp [lineOk]

@[simp] theorem dlEnq_buf_length (u : DelayLine) (v : F64) : (dlEnq u v).buf.length = u.buf.length := by
  simp [dlEnq]

@[simp] theorem dlClear_buf_length (u : DelayLine) : (dlClear u).buf.length = u.buf.length := by simp [dlClear]

/-- An enqueue keeps a line's shape. -/
theorem lineOk_dlEnq {cap : Nat} {u : DelayLine} (h : lineOk cap u = true) (v : F64) : lineOk cap (dlEnq u v) = true := by
  rw [lineOk_iff] at h ⊢
  refine ⟨by simp [h.1], ?_⟩
  simp only [dlEnq, h.1]
  exact Nat.mod_lt _ (by omega)

/-- Clearing keeps a line's shape. -/
theorem lineOk_dlClear {cap : Nat} {u : DelayLine} (h : lineOk cap u = true) : lineOk cap (dlClear u) = true := by
  rw [lineOk_iff] at h ⊢
  exact ⟨by simp [h.1], by simp only [dlClear]; omega⟩

/-- A line at power-on has its shape. -/
theorem lineOk_powerOn {cap : Nat} (h : 0 < cap) : lineOk cap (DelayLine.powerOn cap) = true := by
  rw [lineOk_iff]
  exact ⟨by simp [DelayLine.powerOn], h⟩

/-- The newest sample is the one just enqueued. -/
theorem dlRead_dlEnq_zero {u : DelayLine} (h : u.wp < u.buf.length) (v : F64) : dlRead (dlEnq u v) 0 = v := by
  have hm : (u.wp + 1) % u.buf.length < u.buf.length := Nat.mod_lt _ (by omega)
  simp only [dlRead, dlEnq, List.length_set, Nat.sub_zero, Nat.add_mod_right, Nat.mod_mod]
  rw [List.getD_eq_getElem _ _ (by simpa using hm), List.getElem_set_self]

/-- Every older sample is one enqueue further back. -/
theorem dlRead_dlEnq_succ {u : DelayLine} (h : u.wp < u.buf.length) (v : F64) {i : Nat} (hi : i + 1 < u.buf.length) :
    dlRead (dlEnq u v) (i + 1) = dlRead u i := by
  simp only [dlRead, dlEnq, List.length_set]
  have key : ((u.wp + 1) % u.buf.length + u.buf.length - (i + 1)) % u.buf.length
      = (u.wp + u.buf.length - i) % u.buf.length := by
    rcases Nat.lt_or_ge (u.wp + 1) u.buf.length with hw | hw
    · rw [Nat.mod_eq_of_lt hw]; congr 1; omega
    · have : u.wp + 1 = u.buf.length := by omega
      rw [this, Nat.mod_self]
      have e : u.wp + u.buf.length - i = (u.buf.length - (i + 1)) + u.buf.length := by omega
      rw [e, Nat.add_mod_right]; congr 1; omega
  rw [key]
  have hne : (u.wp + 1) % u.buf.length ≠ (u.wp + u.buf.length - i) % u.buf.length := by
    rcases Nat.lt_or_ge (u.wp + 1) u.buf.length with hw | hw
    · rw [Nat.mod_eq_of_lt hw]
      rcases Nat.lt_or_ge u.wp i with hlt | hge
      · rw [Nat.mod_eq_of_lt (by omega)]; omega
      · have e : u.wp + u.buf.length - i = (u.wp - i) + u.buf.length := by omega
        rw [e, Nat.add_mod_right, Nat.mod_eq_of_lt (by omega)]; omega
    · have e1 : u.wp + 1 = u.buf.length := by omega
      rw [e1, Nat.mod_self]
      have e : u.wp + u.buf.length - i = (u.wp - i) + u.buf.length := by omega
      rw [e, Nat.add_mod_right, Nat.mod_eq_of_lt (by omega)]; omega
  simp only [List.getD_eq_getElem?_getD, List.getElem?_set_ne hne]

/-- A cleared line reads `+0.0` everywhere. -/
@[simp] theorem dlRead_dlClear (u : DelayLine) (i : Nat) : dlRead (dlClear u) i = posZero := by
  simp [dlRead, dlClear]

/-! ## DDS -/

/-- What a successful `DDS_SETUP` means. -/
theorem ddsSetup_ok {cfg : Config} {d d' : Dds} {fs f : F64} :
    ddsSetup cfg d fs f = .ok d' ↔ rateOk fs = true ∧ ddsFreqOk cfg f = true ∧ d' = ddsLoad cfg d fs f := by
  unfold ddsSetup
  cases rateOk fs <;> cases ddsFreqOk cfg f <;> simp [eq_comm]

/-! ## Biquads -/

/-- What a successful `IIR_SETUP` means. -/
theorem iirSetup_ok {cfg : Config} {k : FilterKind} {u u' : Iir} {fs fc : F64} :
    iirSetup cfg k u fs fc = .ok u' ↔
      filterRateOk fs = true ∧ cutoffOk fc = true ∧ twiceBelow fc fs = true ∧ u' = iirLoad cfg k u fs fc := by
  unfold iirSetup
  cases filterRateOk fs <;> cases cutoffOk fc <;> cases twiceBelow fc fs <;> simp [eq_comm]

/-- What a successful setup of both channels of a stage means. -/
theorem iirSetupPair_ok {cfg : Config} {st : Stage} {p p' : Stereo Iir} {fs fc : F64} :
    iirSetupPair cfg st p fs fc = .ok p' ↔
      filterRateOk fs = true ∧ cutoffOk fc = true ∧ twiceBelow fc fs = true
        ∧ p' = ⟨iirLoad cfg st.kind p.left fs fc, iirLoad cfg st.kind p.right fs fc⟩ := by
  unfold iirSetupPair iirSetup
  cases filterRateOk fs <;> cases cutoffOk fc <;> cases twiceBelow fc fs <;> simp [eq_comm]

@[simp] theorem iirShift_coefV (u : Iir) (x y : F64) : (iirShift u x y).coefV = u.coefV := rfl
@[simp] theorem iirProcess_coefV (t : NanTag) (u : Iir) (x : F64) : (iirProcess t u x).1.coefV = u.coefV := rfl
@[simp] theorem iirReset_coefV (u : Iir) : (iirReset u).coefV = u.coefV := rfl
@[simp] theorem iirLoad_coefV (cfg : Config) (k : FilterKind) (u : Iir) (fs fc : F64) :
    (iirLoad cfg k u fs fc).coefV = true := rfl

theorem isSum_fAdd (t : NanTag) (a b : F64) : IsSum a b (fAdd t a b) := ⟨t, rfl⟩
theorem isDiff_fSub (t : NanTag) (a b : F64) : IsDiff a b (fSub t a b) := ⟨t, rfl⟩
theorem isProd_fMul (t : NanTag) (a b : F64) : IsProd a b (fMul t a b) := ⟨t, rfl⟩

/-- The output of a biquad is what R201's five products and four sums give. -/
theorem isIirOut_iirOut (t : NanTag) (u : Iir) (x : F64) : IsIirOut u x (iirOut t u x) :=
  ⟨_, _, _, _, _, _, _, _, isProd_fMul (0 :: t) _ _, isProd_fMul (1 :: t) _ _, isProd_fMul (3 :: t) _ _,
    isProd_fMul (5 :: t) _ _, isProd_fMul (7 :: t) _ _, isSum_fAdd (2 :: t) _ _, isSum_fAdd (4 :: t) _ _,
    isDiff_fSub (6 :: t) _ _, isDiff_fSub (8 :: t) _ _⟩

/-! ## Hilbert transformer -/

/-- A left fold over `1 .. n` as a sequence of partial results. -/
theorem foldl_range'_eq {α : Type} (f : α → Nat → α) (a : α) (n : Nat) :
    ∃ acc : Nat → α, acc 0 = a ∧ (∀ m < n, acc (m + 1) = f (acc m) (m + 1))
      ∧ (List.range' 1 n).foldl f a = acc n := by
  refine ⟨fun m => (List.range' 1 m).foldl f a, rfl, fun m _ => ?_, rfl⟩
  simp only [List.range'_concat, List.foldl_append, List.foldl_cons, List.foldl_nil, Nat.one_mul, Nat.add_comm 1 m]

/-- A left fold over `0 .. n-1` as a sequence of partial results. -/
theorem foldl_range_eq {α : Type} (f : α → Nat → α) (a : α) (n : Nat) :
    ∃ acc : Nat → α, acc 0 = a ∧ (∀ m < n, acc (m + 1) = f (acc m) m) ∧ (List.range n).foldl f a = acc n := by
  refine ⟨fun m => (List.range m).foldl f a, rfl, fun m _ => ?_, rfl⟩
  simp only [List.range_succ, List.foldl_append, List.foldl_cons, List.foldl_nil]

/-- The quadrature sum is R181's. -/
theorem isHtSum_htSum (t : NanTag) (cfg : Config) (u : DelayLine) : IsHtSum cfg u (htSum t cfg u) := by
  obtain ⟨acc, h0, hs, he⟩ := foldl_range'_eq
    (fun q m => fAdd ((2 * m + 1) :: t) q (fMul ((2 * m) :: t) (cfg.tapG m) (dlRead u (2 * m))))
    (fMul (0 :: t) (cfg.tapG 0) (dlRead u 0)) cfg.centreH
  refine ⟨fun m => fMul ((2 * m) :: t) (cfg.tapG m) (dlRead u (2 * m)), acc, fun m _ => isProd_fMul _ _ _, ?_,
    fun m hm => ⟨(2 * (m + 1) + 1) :: t, hs m hm⟩, ?_⟩
  · simp only [Nat.mul_zero]
    exact h0
  · rw [htSum]
    exact he

/-! ## FIR -/

/-- What a successful `FIR_SETUP` means. -/
theorem firSetup_ok {cfg : Config} {k : FilterKind} {u u' : Fir} {fs fc : F64} :
    firSetup cfg k u fs fc = .ok u' ↔
      filterRateOk fs = true ∧ firCutoffOk fc = true ∧ twiceBelow fc fs = true
        ∧ firSumPositive cfg.firLen fs fc = true ∧ u' = firLoad cfg k u fs fc := by
  unfold firSetup
  cases filterRateOk fs <;> cases firCutoffOk fc <;> cases twiceBelow fc fs <;>
    cases firSumPositive cfg.firLen fs fc <;> simp [eq_comm]

@[simp] theorem firProcess_coefV (t : NanTag) (cfg : Config) (u : Fir) (x : F64) :
    (firProcess t cfg u x).1.coefV = u.coefV := rfl
@[simp] theorem firReset_coefV (u : Fir) : (firReset u).coefV = u.coefV := rfl
@[simp] theorem firLoad_coefV (cfg : Config) (k : FilterKind) (u : Fir) (fs fc : F64) :
    (firLoad cfg k u fs fc).coefV = true := rfl

/-- The mirrored convolution is R208's. -/
theorem isFirSum_firSumOut (t : NanTag) (cfg : Config) (u : Fir) (dl : DelayLine) :
    IsFirSum cfg u dl (firSumOut t cfg u dl) := by
  obtain ⟨acc, h0, hs, he⟩ := foldl_range_eq
    (fun acc j => fAdd ((3 * j + 3) :: t) acc (fMul ((3 * j + 2) :: t) (firTap u j)
      (fAdd ((3 * j + 1) :: t) (dlRead dl j) (dlRead dl (cfg.firLen - 1 - j)))))
    (fMul (0 :: t) (firTap u cfg.centreF) (dlRead dl cfg.centreF)) cfg.centreF
  refine ⟨fun j => fAdd ((3 * j + 1) :: t) (dlRead dl j) (dlRead dl (cfg.firLen - 1 - j)),
    fun j => fMul ((3 * j + 2) :: t) (firTap u j)
      (fAdd ((3 * j + 1) :: t) (dlRead dl j) (dlRead dl (cfg.firLen - 1 - j))),
    acc, ?_, fun j hj => ⟨isSum_fAdd _ _ _, ?_, ⟨(3 * j + 3) :: t, hs j hj⟩⟩, ?_⟩
  · rw [h0]
    exact isProd_fMul (0 :: t) _ _
  · exact isProd_fMul ((3 * j + 2) :: t) _ _
  · rw [firSumOut]
    exact he

/-- The taps of a configuration are `FIR_LEN` many. -/
theorem firCoef_length_implementation {cfg : Config} (h : cfg.coefs = .implementation) (k : FilterKind) (fs fc : F64) :
    (firCoef cfg k fs fc).length = cfg.firLen := by
  simp [firCoef, h]

/-! ## Mixer and frames -/

/-- The mixing law is R240's. -/
theorem isMix_mix (t : NanTag) (lower : Bool) (z zH x xH : F64) : IsMix lower z zH x xH (mix t lower z zH x xH) := by
  refine ⟨_, _, isProd_fMul (0 :: t) z x, isProd_fMul (1 :: t) zH xH, ?_⟩
  rw [mix]
  cases lower
  · simp only [Bool.false_eq_true, if_false]
    exact isDiff_fSub (2 :: t) _ _
  · simp only [if_true]
    exact isSum_fAdd (2 :: t) _ _

/-- One channel of a frame is R260's. -/
theorem isFrameChannel_frameChannel (t : NanTag) (s : State) (u : ChanUnits) (a : F64) (lower : Bool) (x xH : F64) :
    IsFrameChannel s u (frameChannel t s.cfg s.wet s.dryg u a lower x xH).1 a lower x xH
      (frameChannel t s.cfg s.wet s.dryg u a lower x xH).2 := by
  simp only [frameChannel, iirProcess, htProcess]
  exact ⟨iirOut (0 :: t) u.inHpf a, _, _, _, _, _, _, _, rfl, isIirOut_iirOut (0 :: t) _ _, rfl,
    isIirOut_iirOut (1 :: t) _ _, rfl, rfl, isHtSum_htSum (2 :: t) _ _, isMix_mix (3 :: t) _ _ _ _ _,
    isIirOut_iirOut (4 :: t) _ _, rfl, isIirOut_iirOut (5 :: t) _ _, rfl, isProd_fMul (6 :: t) _ _,
    isProd_fMul (7 :: t) _ _, isSum_fAdd (8 :: t) _ _⟩

@[simp] theorem chanReady_frameChannel (t : NanTag) (cfg : Config) (wet dryg : F64) (u : ChanUnits) (a : F64)
    (lower : Bool) (x xH : F64) : chanReady (frameChannel t cfg wet dryg u a lower x xH).1 = chanReady u := by
  simp only [frameChannel, chanReady, iirProcess_coefV]

/-- What a completed non-bypass frame means. -/
theorem execProcessFrame_next {silL silR : Bool} {inL inR : F64} {s t : State}
    (h : execProcessFrame false silL silR inL inR s = .next t) :
    configured s = true ∧ s.resetPending = false ∧ s.dds.valid = true
      ∧ chanReady (chanUnits s .left) = true ∧ chanReady (chanUnits s .right) = true
      ∧ t = respondSilence (runFrame s (frameInput silL inL) (frameInput silR inR)).1 .processFrame false false
          [(runFrame s (frameInput silL inL) (frameInput silR inR)).2.1,
            (runFrame s (frameInput silL inL) (frameInput silR inR)).2.2] := by
  unfold execProcessFrame at h
  simp only [Bool.false_eq_true, if_false] at h
  split at h
  · cases h
  next h1 =>
  split at h
  · cases h
  next h2 =>
  split at h
  · cases h
  next h3 =>
  split at h
  · cases h
  next h4 =>
  simp only [Bool.not_eq_true', Bool.not_eq_false, Bool.and_eq_true] at h1 h2 h3 h4
  cases h
  exact ⟨h1, by simpa using h2, h3, h4.1, h4.2, rfl⟩

/-! ## CONFIGURE -/

/-- What passing CONFIGURE's checks means. -/
theorem configureChecks_ok {s : State} {fs : F64} (h : configureChecks s fs = .ok ()) :
    rateOk fs = true ∧ (∀ st, s.fcV.get st = true → twiceBelow (s.fc.get st) fs = true)
      ∧ ∀ k, (s.fir.get k).coefV = true → twiceBelow (s.fir.get k).fc fs = true
        ∧ firSumPositive s.cfg.firLen fs (s.fir.get k).fc = true := by
  unfold configureChecks at h
  split at h
  · cases h
  next h0 =>
  split at h
  · cases h
  next h1 =>
  split at h
  · cases h
  next h2 =>
  split at h
  · cases h
  next h3 =>
  split at h
  · cases h
  next h4 =>
  split at h
  · cases h
  next h5 =>
  refine ⟨by simpa using h0, fun st => ?_, fun k => ?_⟩
  · simp only [Bool.not_eq_true', Bool.not_eq_false, Bool.and_eq_true] at h1
    obtain ⟨⟨⟨a, b⟩, c⟩, d⟩ := h1
    simp only [stageFits, Bool.or_eq_true, Bool.not_eq_true'] at a b c d
    cases st
    · rcases a with a | a <;> simp_all
    · rcases b with b | b <;> simp_all
    · rcases c with c | c <;> simp_all
    · rcases d with d | d <;> simp_all
  · cases k <;> (simp only [PerKind.get]; simp_all)

/-- What the setups of CONFIGURE do when they succeed. -/
theorem configureUnits_ok {s t : State} {fs : F64} (h : configureUnits s fs = .ok t) :
    ∃ i0 i1 i2 i3 d l r, configureStage s fs .inHpf = .ok i0 ∧ configureStage s fs .inLpf = .ok i1
      ∧ configureStage s fs .outHpf = .ok i2 ∧ configureStage s fs .outLpf = .ok i3 ∧ configureDds s fs = .ok d
      ∧ configureFir s fs .lpf = .ok l ∧ configureFir s fs .hpf = .ok r
      ∧ t = { s with iir := ⟨i0, i1, i2, i3⟩, dds := d, fir := ⟨l, r⟩ } := by
  unfold configureUnits at h
  obtain ⟨i0, h0, h⟩ := except_bind_ok.mp h
  obtain ⟨i1, h1, h⟩ := except_bind_ok.mp h
  obtain ⟨i2, h2, h⟩ := except_bind_ok.mp h
  obtain ⟨i3, h3, h⟩ := except_bind_ok.mp h
  obtain ⟨d, h4, h⟩ := except_bind_ok.mp h
  obtain ⟨l, h5, h⟩ := except_bind_ok.mp h
  obtain ⟨r, h6, h⟩ := except_bind_ok.mp h
  cases h
  exact ⟨i0, i1, i2, i3, d, l, r, h0, h1, h2, h3, h4, h5, h6, rfl⟩

/-- What a completed CONFIGURE means. -/
theorem execConfigure_next {fs : F64} {s t : State} (h : execConfigure fs s = .next t) :
    configureChecks s fs = .ok () ∧ ∃ u, configureUnits (configureRate s fs) fs = .ok u ∧ t = respond u .configure [] := by
  obtain ⟨u, hu, rfl⟩ := finish_next.mp h
  obtain ⟨_, hc, hu⟩ := except_bind_ok.mp hu
  exact ⟨hc, u, hu, rfl⟩

end Sys2Proof.Machine
end

