-- ==== Sys2Proof/Laws/Invariant.lean ====
section
/-! SUPPORT. What the invariant says of each register and line, and the domains it implies for the setups that CONFIGURE,
SET_CARRIER and SET_CUTOFF run. -/

namespace Sys2Proof.Machine

open Sys2Proof

/-! ## Lines and taps -/

theorem inv_dry {s : State} (h : s.Inv) (c : Chan) : lineOk s.cfg.dryCap (s.dry.get c) = true := by
  have h := h.1
  simp only [sized, Bool.and_eq_true] at h
  cases c <;> tauto

theorem inv_ht {s : State} (h : s.Inv) (c : Chan) : lineOk s.cfg.htLen (s.ht.get c) = true := by
  have h := h.1
  simp only [sized, Bool.and_eq_true] at h
  cases c <;> tauto

theorem inv_fir_dl {s : State} (h : s.Inv) (k : FilterKind) : lineOk s.cfg.firLen (s.fir.get k).dl = true := by
  have h := h.1
  simp only [sized, firSized, Bool.and_eq_true] at h
  cases k <;> tauto

theorem inv_cfg {s : State} (h : s.Inv) : s.cfg.valid = true := by
  have h := h.1
  simp only [sized, Bool.and_eq_true] at h
  tauto

theorem inv_firPassHz {s : State} (h : s.Inv) : fFinite s.cfg.firPassHz = true := by
  have h := inv_cfg h
  simp only [Config.valid, Config.sizesOk, Bool.and_eq_true] at h
  tauto

/-! ## Parameters -/

theorem inv_stage {s : State} (h : s.Inv) (st : Stage) : stageOk s st = true := by
  have h := h.2.2
  simp only [paramsOk, Bool.and_eq_true] at h
  cases st <;> tauto

/-- A cutoff that holds a value holds one of its domain. -/
theorem inv_cutoff {s : State} (h : s.Inv) (st : Stage) (hf : s.fcV.get st = true) : cutoffOk (s.fc.get st) = true := by
  have := inv_stage h st
  simp only [stageOk, hf, Bool.not_true, Bool.false_or, Bool.and_eq_true] at this
  exact this.1

/-- With a rate and a cutoff, both biquads of the stage are set up (`45_pipeline.md` R266). -/
theorem inv_stage_ready {s : State} (h : s.Inv) (st : Stage) (hf : s.fcV.get st = true) (hs : s.srV = true) (c : Chan) :
    ((s.iir.get st).get c).coefV = true := by
  have := inv_stage h st
  simp only [stageOk, hf, hs, Bool.not_true, Bool.false_or, Bool.and_eq_true] at this
  cases c <;> tauto

theorem inv_fir {s : State} (h : s.Inv) (k : FilterKind) : firOk k (s.fir.get k) = true := by
  have h := h.2.2
  simp only [paramsOk, Bool.and_eq_true] at h
  cases k <;> tauto

/-- A FIR that is set up has a cutoff of its domain. -/
theorem inv_fir_cutoff {s : State} (h : s.Inv) (k : FilterKind) (hk : (s.fir.get k).coefV = true) :
    firCutoffOk (s.fir.get k).fc = true := by
  have := inv_fir h k
  simp only [firOk, hk, Bool.and_eq_true, Bool.not_true, Bool.false_or] at this
  exact this.1.1.2

theorem inv_carrier {s : State} (h : s.Inv) (hc : s.cfV = true) : carrierOk s.cfg s.cf = true := by
  have h := h.2.2
  simp only [paramsOk, Bool.and_eq_true] at h
  simp_all

theorem inv_rate {s : State} (h : s.Inv) (hc : s.srV = true) : rateOk s.sr = true := by
  have h := h.2.2
  simp only [paramsOk, Bool.and_eq_true] at h
  simp_all

/-- With a rate and a carrier, the DDS is set up (R266). -/
theorem inv_dds_valid {s : State} (h : s.Inv) (hs : s.srV = true) (hc : s.cfV = true) : s.dds.valid = true := by
  have h := h.2.2
  simp only [paramsOk, Bool.and_eq_true] at h
  simp_all

theorem inv_mix {s : State} (h : s.Inv) (hm : s.mixV = true) : wetOk s.wet = true ∧ s.dryg = fSub [] fOne s.wet := by
  have h := h.2.2
  simp only [paramsOk, Bool.and_eq_true] at h
  simp_all

/-! ## Domains implied -/

theorem filterRateOk_of_rateOk {fs : F64} (h : rateOk fs = true) : filterRateOk fs = true := by
  rw [rateOk_iff] at h
  rw [filterRateOk_iff]
  exact ⟨h.1, by linarith [h.2.1]⟩

theorem fFinite_of_carrierOk {cfg : Config} {f : F64} (h : carrierOk cfg f = true) : fFinite f = true := by
  simp only [carrierOk, Bool.and_eq_true] at h
  exact h.1

theorem ddsFreqOk_fAbs {cfg : Config} {f : F64} (h : carrierOk cfg f = true) : ddsFreqOk cfg (fAbs f) = true := by
  have hf := fFinite_of_carrierOk h
  simp only [carrierOk, ddsFreqOk, Bool.and_eq_true] at *
  refine ⟨⟨by simp [hf], ?_⟩, h.2⟩
  rw [fLe_iff (by decide) (by simp [hf]), fVal_posZero, fVal_fAbs]
  positivity

/-- Absolute value clears bit 63. -/
theorem fAbs_eq_and (f : F64) : fAbs f = f &&& 0x7FFFFFFFFFFFFFFF#64 := by
  apply BitVec.eq_of_toNat_eq
  have h := f.isLt
  simp only [fAbs, fPack, fMag, BitVec.toNat_and, BitVec.toNat_ofNat, Bool.toNat_false]
  have e : 9223372036854775807 % 2 ^ 64 = 2 ^ 63 - 1 := by norm_num
  rw [e, Nat.and_two_pow_sub_one_eq_mod]
  omega

/-! ## DDS steps -/

@[simp] theorem ddsAdvance_step (cfg : Config) (d : Dds) : (ddsAdvance cfg d).step = d.step := by
  unfold ddsAdvance; split <;> rfl
@[simp] theorem ddsAdvance_incS (cfg : Config) (d : Dds) : (ddsAdvance cfg d).incS = d.incS := by
  unfold ddsAdvance; split <;> rfl
@[simp] theorem ddsAdvance_incF (cfg : Config) (d : Dds) : (ddsAdvance cfg d).incF = d.incF := by
  unfold ddsAdvance; split <;> rfl
@[simp] theorem ddsAdvance_valid (cfg : Config) (d : Dds) : (ddsAdvance cfg d).valid = d.valid := by
  unfold ddsAdvance; split <;> rfl
@[simp] theorem ddsAdvance_src (cfg : Config) (d : Dds) : (ddsAdvance cfg d).src = d.src := by
  unfold ddsAdvance; split <;> rfl

end Sys2Proof.Machine
end

