-- ==== Sys2Proof/Laws/PerInstr.lean ====
section
/-! SUPPORT. One lemma per constructor: the encoding of a command is well-formed by the opcode table (`30_encoding.md` R96). -/

namespace Sys2Proof.Laws

open Sys2Proof

/-- A row covers the header and has the payload count. -/
theorem wellFormed_of_row {h : Word} {ps : List Word} (r : TableRow) (hm : r ∈ opcodeTable) (hc : r.covers h = true)
    (hp : ps.length = r.payload) : wellFormedWords (h :: ps) = true := by
  simp only [wellFormedWords, List.any_eq_true]
  exact ⟨r, hm, by simp [hc, hp]⟩

/-- The words a command encodes to lie in a row of the opcode table. -/
def EncodesWellFormed.Statement (i : Instr) : Prop := wellFormedWords (encodeWords i) = true

theorem EncodesWellFormed.nop : EncodesWellFormed.Statement (.nop) :=
  wellFormed_of_row opcodeTable[0] (by decide) (by decide) rfl

theorem EncodesWellFormed.configure (fs : F64) : EncodesWellFormed.Statement (.configure fs) :=
  wellFormed_of_row opcodeTable[1] (by decide) (by decide) rfl

theorem EncodesWellFormed.setCarrier (wave : BitVec 8) (f : F64) : EncodesWellFormed.Statement (.setCarrier wave f) :=
  wellFormed_of_row opcodeTable[2] (by decide) (by revert wave; decide +kernel) rfl

theorem EncodesWellFormed.setCutoff (stage : Stage) (hz : F64) : EncodesWellFormed.Statement (.setCutoff stage hz) :=
  wellFormed_of_row opcodeTable[3] (by decide) (by cases stage <;> decide) rfl

theorem EncodesWellFormed.setMix (wet : F64) : EncodesWellFormed.Statement (.setMix wet) :=
  wellFormed_of_row opcodeTable[4] (by decide) (by decide) rfl

theorem EncodesWellFormed.processFrame (bypass silL silR : Bool) (inL inR : F64) : EncodesWellFormed.Statement (.processFrame bypass silL silR inL inR) :=
  wellFormed_of_row opcodeTable[5] (by decide) (by cases bypass <;> cases silL <;> cases silR <;> decide) rfl

theorem EncodesWellFormed.reset : EncodesWellFormed.Statement (.reset) :=
  wellFormed_of_row opcodeTable[6] (by decide) (by decide) rfl

theorem EncodesWellFormed.readState : EncodesWellFormed.Statement (.readState) :=
  wellFormed_of_row opcodeTable[7] (by decide) (by decide) rfl

theorem EncodesWellFormed.udlEnqueue (chan : Chan) (x : F64) : EncodesWellFormed.Statement (.udlEnqueue chan x) :=
  wellFormed_of_row opcodeTable[8] (by decide) (by cases chan <;> decide) rfl

theorem EncodesWellFormed.udlRead (chan : Chan) (i : Word) : EncodesWellFormed.Statement (.udlRead chan i) :=
  wellFormed_of_row opcodeTable[9] (by decide) (by cases chan <;> decide) rfl

theorem EncodesWellFormed.udlReset (chan : Chan) : EncodesWellFormed.Statement (.udlReset chan) :=
  wellFormed_of_row opcodeTable[10] (by decide) (by cases chan <;> decide) rfl

theorem EncodesWellFormed.uddsSetup (fs f : F64) : EncodesWellFormed.Statement (.uddsSetup fs f) :=
  wellFormed_of_row opcodeTable[11] (by decide) (by decide) rfl

theorem EncodesWellFormed.uddsProcess (wave : BitVec 8) : EncodesWellFormed.Statement (.uddsProcess wave) :=
  wellFormed_of_row opcodeTable[12] (by decide) (by revert wave; decide +kernel) rfl

theorem EncodesWellFormed.uddsReset : EncodesWellFormed.Statement (.uddsReset) :=
  wellFormed_of_row opcodeTable[13] (by decide) (by decide) rfl

theorem EncodesWellFormed.uddsRead : EncodesWellFormed.Statement (.uddsRead) :=
  wellFormed_of_row opcodeTable[14] (by decide) (by decide) rfl

theorem EncodesWellFormed.uhtProcess (chan : Chan) (x : F64) : EncodesWellFormed.Statement (.uhtProcess chan x) :=
  wellFormed_of_row opcodeTable[15] (by decide) (by cases chan <;> decide) rfl

theorem EncodesWellFormed.uhtReset (chan : Chan) : EncodesWellFormed.Statement (.uhtReset chan) :=
  wellFormed_of_row opcodeTable[16] (by decide) (by cases chan <;> decide) rfl

theorem EncodesWellFormed.uiirSetup (stage : Stage) (chan : Chan) (fs fc : F64) : EncodesWellFormed.Statement (.uiirSetup stage chan fs fc) :=
  wellFormed_of_row opcodeTable[17] (by decide) (by cases stage <;> cases chan <;> decide) rfl

theorem EncodesWellFormed.uiirProcess (stage : Stage) (chan : Chan) (x : F64) : EncodesWellFormed.Statement (.uiirProcess stage chan x) :=
  wellFormed_of_row opcodeTable[18] (by decide) (by cases stage <;> cases chan <;> decide) rfl

theorem EncodesWellFormed.uiirReset (stage : Stage) (chan : Chan) : EncodesWellFormed.Statement (.uiirReset stage chan) :=
  wellFormed_of_row opcodeTable[19] (by decide) (by cases stage <;> cases chan <;> decide) rfl

theorem EncodesWellFormed.ufirSetup (kind : FilterKind) (fs fc : F64) : EncodesWellFormed.Statement (.ufirSetup kind fs fc) :=
  wellFormed_of_row opcodeTable[20] (by decide) (by cases kind <;> decide) rfl

theorem EncodesWellFormed.ufirProcess (kind : FilterKind) (x : F64) : EncodesWellFormed.Statement (.ufirProcess kind x) :=
  wellFormed_of_row opcodeTable[21] (by decide) (by cases kind <;> decide) rfl

theorem EncodesWellFormed.ufirReset (kind : FilterKind) : EncodesWellFormed.Statement (.ufirReset kind) :=
  wellFormed_of_row opcodeTable[22] (by decide) (by cases kind <;> decide) rfl

theorem EncodesWellFormed.umix (lower : Bool) (z zH x xH : F64) : EncodesWellFormed.Statement (.umix lower z zH x xH) :=
  wellFormed_of_row opcodeTable[23] (by decide) (by cases lower <;> decide) rfl

end Sys2Proof.Laws
end

