-- ==== Sys2Proof/Laws/Rounding.lean ====
section
/-! SUPPORT. `roundMag` is rounding to nearest, ties to even, over the magnitudes below infinity; and where it overflows. -/

namespace Sys2Proof.Machine

open Sys2Proof

/-- `roundQuot n d` is an integer nearest to `n / d`, and even where another is as near. -/
theorem roundQuot_nearest (n d : Nat) (hd : 0 < d) (j : Nat) :
    |((roundQuot n d : Nat) : Int) * d - n| ≤ |(j : Int) * d - n|
      ∧ (|((roundQuot n d : Nat) : Int) * d - n| = |(j : Int) * d - n| → j = roundQuot n d ∨ roundQuot n d % 2 = 0) := by
  have hn : (n : Int) = (n / d : Nat) * d + (n % d : Nat) := by exact_mod_cast (Nat.div_add_mod' n d).symm
  have hr : n % d < d := Nat.mod_lt _ hd
  have h1 : j ≤ n / d → (j : Int) * d ≤ (n / d : Nat) * d := fun h => by
    exact_mod_cast Nat.mul_le_mul_right d h
  have h2 : n / d + 1 ≤ j → ((n / d : Nat) : Int) * d + d ≤ (j : Int) * d := fun h => by
    have := Nat.mul_le_mul_right d h
    rw [Nat.add_mul, Nat.one_mul] at this
    exact_mod_cast this
  have h3 : j < n / d → (j : Int) * d + d ≤ (n / d : Nat) * d := fun h => by
    have := Nat.mul_le_mul_right d (Nat.succ_le_of_lt h)
    rw [Nat.succ_mul] at this
    exact_mod_cast this
  have h4 : n / d + 1 < j → ((n / d : Nat) : Int) * d + d + d ≤ (j : Int) * d := fun h => by
    have := Nat.mul_le_mul_right d (Nat.succ_le_of_lt h)
    rw [Nat.succ_mul, Nat.add_mul, Nat.one_mul] at this
    exact_mod_cast this
  have hq1 : (((n / d + 1 : Nat)) : Int) * d = (n / d : Nat) * d + d := by push_cast; ring
  have hd' : (0 : Int) < d := by exact_mod_cast hd
  unfold roundQuot
  simp only []
  generalize hP : ((n / d : Nat) : Int) * d = P at *
  generalize (j : Int) * d = J at *
  split
  · rw [hP]
    rcases abs_cases (P - n) with a | a <;> rcases abs_cases (J - n) with b | b <;> omega
  · split
    · rw [hq1]
      rcases abs_cases (P + d - n) with a | a <;> rcases abs_cases (J - n) with b | b <;> omega
    · split
      · rw [hP]
        rcases abs_cases (P - n) with a | a <;> rcases abs_cases (J - n) with b | b <;> omega
      · rw [hq1]
        rcases abs_cases (P + d - n) with a | a <;> rcases abs_cases (J - n) with b | b <;> omega

/-- `roundQuot` is at least any integer not above the quotient, and at most any integer not below it. -/
theorem le_roundQuot {n d j : Nat} (hd : 0 < d) (h : j * d ≤ n) : j ≤ roundQuot n d := by
  have : j ≤ n / d := (Nat.le_div_iff_mul_le hd).mpr h
  unfold roundQuot
  simp only []
  split <;> try split <;> try split
  all_goals omega

theorem roundQuot_le {n d j : Nat} (hd : 0 < d) (h : n ≤ j * d) : roundQuot n d ≤ j := by
  have hm := Nat.div_add_mod' n d
  have hr : n % d < d := Nat.mod_lt _ hd
  have hle : n / d ≤ j := Nat.div_le_of_le_mul (by rw [Nat.mul_comm]; exact h)
  rcases Nat.lt_or_ge (n / d) j with hlt | hge
  · unfold roundQuot
    simp only []
    split <;> try split <;> try split
    all_goals omega
  · have he : n / d = j := by omega
    have hz : n % d = 0 := by rw [he] at hm; omega
    unfold roundQuot
    simp only []
    rw [if_pos (by omega)]
    omega

/-- The distance of the leading bit of `q` above bit 52. -/
def shiftOf (q : Nat) : Nat := if q < 2 ^ 53 then 0 else Nat.log2 q - 52

theorem shiftOf_spec (q : Nat) : q < 2 ^ 53 * 2 ^ shiftOf q ∧ (shiftOf q ≠ 0 → 2 ^ 52 * 2 ^ shiftOf q ≤ q) := by
  unfold shiftOf
  split
  · simpa
  next h =>
    have hq : q ≠ 0 := by rintro rfl; simp at h
    have h1 : 2 ^ q.log2 ≤ q := Nat.log2_self_le hq
    have h2 : q < 2 ^ (q.log2 + 1) := Nat.lt_log2_self
    have h3 : 53 ≤ q.log2 := (Nat.le_log2 hq).mpr (by omega)
    rw [← Nat.pow_add, ← Nat.pow_add]
    refine ⟨?_, fun _ => ?_⟩
    · rwa [show 53 + (q.log2 - 52) = q.log2 + 1 by omega]
    · rwa [show 52 + (q.log2 - 52) = q.log2 by omega]

theorem roundMag_eq (n d : Nat) :
    roundMag n d = min (shiftOf (n / d) * 2 ^ 52 + roundQuot n (d * 2 ^ shiftOf (n / d))) infMag := rfl

/-- The mantissa that `roundMag` rounds to. -/
theorem mantissa_le (n : Nat) {d : Nat} (hd : 0 < d) : roundQuot n (d * 2 ^ shiftOf (n / d)) ≤ 2 ^ 53 := by
  apply roundQuot_le (by positivity)
  have h := (shiftOf_spec (n / d)).1
  have := (Nat.div_lt_iff_lt_mul hd).mp h
  calc n ≤ 2 ^ 53 * 2 ^ shiftOf (n / d) * d := this.le
    _ = 2 ^ 53 * (d * 2 ^ shiftOf (n / d)) := by ring

theorem le_mantissa (n : Nat) {d : Nat} (hd : 0 < d) (h0 : shiftOf (n / d) ≠ 0) :
    2 ^ 52 ≤ roundQuot n (d * 2 ^ shiftOf (n / d)) := by
  apply le_roundQuot (by positivity)
  have h := (shiftOf_spec (n / d)).2 h0
  have := (Nat.le_div_iff_mul_le hd).mp h
  calc 2 ^ 52 * (d * 2 ^ shiftOf (n / d)) = 2 ^ 52 * 2 ^ shiftOf (n / d) * d := by ring
    _ ≤ n := this

/-- The units of a shift and a mantissa. -/
theorem magUnits_shift {sh k : Nat} (hk : k ≤ 2 ^ 53) (h : sh ≠ 0 → 2 ^ 52 ≤ k) :
    magUnits (sh * 2 ^ 52 + k) = k * 2 ^ sh := by
  unfold magUnits
  rcases Nat.lt_or_ge k (2 ^ 52) with h1 | h1
  · have : sh = 0 := by by_contra h0; exact absurd (h h0) (by omega)
    subst this
    rw [if_pos (by omega)]
    simp only [Nat.zero_mul, Nat.zero_add, Nat.pow_zero, Nat.mul_one]
    omega
  · rcases Nat.lt_or_ge k (2 ^ 53) with h2 | h2
    · have e1 : (sh * 2 ^ 52 + k) / 2 ^ 52 = sh + 1 := by omega
      have e2 : (sh * 2 ^ 52 + k) % 2 ^ 52 = k - 2 ^ 52 := by omega
      rw [e1, e2, if_neg (Nat.succ_ne_zero _), Nat.add_sub_cancel, Nat.add_sub_cancel' h1]
    · have e0 : k = 2 ^ 53 := by omega
      have e1 : (sh * 2 ^ 52 + k) / 2 ^ 52 = sh + 2 := by omega
      have e2 : (sh * 2 ^ 52 + k) % 2 ^ 52 = 0 := by omega
      rw [e1, e2, if_neg (Nat.succ_ne_zero _), Nat.add_zero, show sh + 2 - 1 = sh + 1 by omega, e0]
      have h53 : ∀ X : Nat, 2 ^ 52 * (2 * X) = 2 ^ 53 * X := fun X => by omega
      rw [Nat.pow_succ' (n := sh), h53]

/-- A magnitude is below the binade of the shift, or a multiple of its last place. -/
theorem magUnits_grid (sh m : Nat) : (sh ≠ 0 ∧ magUnits m < 2 ^ 52 * 2 ^ sh) ∨ ∃ j, magUnits m = j * 2 ^ sh := by
  rcases Nat.eq_zero_or_pos sh with h0 | h0
  · subst h0; right; exact ⟨magUnits m, by simp⟩
  have hr : m % 2 ^ 52 < 2 ^ 52 := Nat.mod_lt _ (by norm_num)
  unfold magUnits
  split
  · left
    refine ⟨by omega, ?_⟩
    have : 1 ≤ 2 ^ sh := Nat.one_le_two_pow
    calc m % 2 ^ 52 < 2 ^ 52 * 1 := by omega
      _ ≤ 2 ^ 52 * 2 ^ sh := Nat.mul_le_mul_left _ this
  next he =>
    rcases Nat.lt_or_ge (m / 2 ^ 52 - 1) sh with hs | hs
    · left
      refine ⟨by omega, ?_⟩
      have hp : 2 ^ (m / 2 ^ 52 - 1 + 1) ≤ 2 ^ sh := Nat.pow_le_pow_right (by norm_num) (by omega)
      calc (2 ^ 52 + m % 2 ^ 52) * 2 ^ (m / 2 ^ 52 - 1) < 2 ^ 53 * 2 ^ (m / 2 ^ 52 - 1) :=
            Nat.mul_lt_mul_of_pos_right (by omega) (by positivity)
        _ = 2 ^ 52 * 2 ^ (m / 2 ^ 52 - 1 + 1) := by rw [Nat.pow_succ]; ring
        _ ≤ 2 ^ 52 * 2 ^ sh := Nat.mul_le_mul_left _ hp
    · right
      refine ⟨(2 ^ 52 + m % 2 ^ 52) * 2 ^ (m / 2 ^ 52 - 1 - sh), ?_⟩
      rw [Nat.mul_assoc, ← Nat.pow_add, Nat.sub_add_cancel hs]

/-- Rounding to nearest, ties to even: no magnitude is nearer to `n / d`, and where another is as near, the pattern is even. -/
theorem roundMag_nearest (n : Nat) {d : Nat} (hd : 0 < d) (hfin : roundMag n d < infMag) (m : Nat) :
    |(magUnits (roundMag n d) : Int) * d - n| ≤ |(magUnits m : Int) * d - n|
      ∧ (|(magUnits (roundMag n d) : Int) * d - n| = |(magUnits m : Int) * d - n| →
        magUnits m = magUnits (roundMag n d) ∨ roundMag n d % 2 = 0) := by
  rw [roundMag_eq] at hfin ⊢
  rw [min_eq_left (by omega)]
  clear hfin
  have hq := (shiftOf_spec (n / d)).2
  have hk := mantissa_le n hd
  have hk' := le_mantissa n hd
  generalize shiftOf (n / d) = sh at *
  have hD : 0 < d * 2 ^ sh := by positivity
  rw [magUnits_shift hk hk']
  have near := roundQuot_nearest n (d * 2 ^ sh) hD
  generalize roundQuot n (d * 2 ^ sh) = k at *
  have scale : ∀ j : Nat, ((j * 2 ^ sh : Nat) : Int) * d - n = (j : Int) * (d * 2 ^ sh : Nat) - n := by
    intro j; push_cast; ring
  rw [scale]
  rcases magUnits_grid sh m with ⟨h0, hm⟩ | ⟨j, hm⟩
  · -- below the binade: strictly further than the bottom of the binade
    have hn : 2 ^ 52 * 2 ^ sh * d ≤ n := (Nat.le_div_iff_mul_le hd).mp (hq h0)
    have hb := (near (2 ^ 52)).1
    have hlt : magUnits m * d < 2 ^ 52 * 2 ^ sh * d := Nat.mul_lt_mul_of_pos_right hm hd
    have e : ((2 ^ 52 : Nat) : Int) * (d * 2 ^ sh : Nat) = ((2 ^ 52 * 2 ^ sh * d : Nat) : Int) := by push_cast; ring
    rw [e] at hb
    have e2 : (magUnits m : Int) * d = ((magUnits m * d : Nat) : Int) := by push_cast; rfl
    rw [e2]
    generalize magUnits m * d = A at *
    generalize 2 ^ 52 * 2 ^ sh * d = B at *
    generalize (k : Int) * (d * 2 ^ sh : Nat) - n = X at *
    have h1 : |(B : Int) - n| = n - B := by rw [abs_of_nonpos (by omega)]; ring
    have h2 : |(A : Int) - n| = n - A := by rw [abs_of_nonpos (by omega)]; ring
    rw [h1] at hb
    rw [h2]
    constructor
    · omega
    · intro; omega
  · rw [hm, scale]
    refine ⟨(near j).1, fun he => ?_⟩
    rcases (near j).2 he with h | h
    · left; rw [h]
    · right; omega

/-- The two nearest mantissas below and at `2^53`, at the binade of shift `e + 1`: the upper one is rounded to exactly from the
midpoint on. -/
theorem mantissa_top (n d e : Nat) (hd : 0 < d) (hk : roundQuot n (d * 2 ^ (e + 1)) ≤ 2 ^ 53) :
    2 ^ 53 ≤ roundQuot n (d * 2 ^ (e + 1)) ↔ (2 ^ 54 - 1) * 2 ^ e * d ≤ n := by
  have hD : 0 < d * 2 ^ (e + 1) := by positivity
  have n1 := roundQuot_nearest n (d * 2 ^ (e + 1)) hD (2 ^ 53 - 1)
  have n2 := roundQuot_nearest n (d * 2 ^ (e + 1)) hD (2 ^ 53)
  have hDe : d * 2 ^ (e + 1) = 2 * (2 ^ e * d) := by rw [Nat.pow_succ']; ring
  rw [Nat.mul_assoc]
  rw [hDe] at hD n1 n2 hk ⊢
  have hY : 0 < 2 ^ e * d := by positivity
  generalize 2 ^ e * d = Y at *
  have hmono : ∀ j, roundQuot n (2 * Y) ≤ j → (roundQuot n (2 * Y) : Int) * (2 * Y : Nat) ≤ (j : Int) * (2 * Y : Nat) :=
    fun j h => by exact_mod_cast Nat.mul_le_mul_right (2 * Y) h
  have hm := hmono (2 ^ 53 - 1)
  have hm' := hmono (2 ^ 53 - 2)
  have heq : roundQuot n (2 * Y) = 2 ^ 53 → (roundQuot n (2 * Y) : Int) * (2 * Y : Nat) = (2 ^ 53 : Int) * (2 * Y) := by
    intro h; rw [h]; push_cast; ring
  have e1 : ((2 ^ 53 - 1 : Nat) : Int) * (2 * Y : Nat) = (2 ^ 53 - 1) * (2 * Y) := by push_cast; ring
  have e2 : ((2 ^ 53 : Nat) : Int) * (2 * Y : Nat) = 2 ^ 53 * (2 * Y) := by push_cast; ring
  have e3 : ((2 ^ 53 - 2 : Nat) : Int) * (2 * Y : Nat) = (2 ^ 53 - 2) * (2 * Y) := by push_cast; ring
  rw [e1] at n1 hm
  rw [e3] at hm'
  rw [e2] at n2
  generalize (roundQuot n (2 * Y) : Int) * (2 * Y : Nat) = K at *
  generalize roundQuot n (2 * Y) = k at *
  obtain ⟨n1, -⟩ := n1
  obtain ⟨n2, n2'⟩ := n2
  constructor
  · intro h
    have := heq (by omega)
    rcases abs_cases (K - n) with a | a <;> rcases abs_cases (((2 : Int) ^ 53 - 1) * (2 * Y) - n) with b | b <;> omega
  · intro h
    by_contra hc
    have := hm (by omega)
    rcases Nat.lt_or_ge (2 ^ 53 - 2) k with hk2 | hk2
    · rcases abs_cases (K - n) with a | a <;> rcases abs_cases ((2 : Int) ^ 53 * (2 * Y) - n) with b | b <;> omega
    have := hm' hk2
    rcases abs_cases (K - n) with a | a <;> rcases abs_cases ((2 : Int) ^ 53 * (2 * Y) - n) with b | b <;> omega

theorem roundMag_top (n e : Nat) {d : Nat} (hd : 0 < d) :
    (e + 3) * 2 ^ 52 ≤ shiftOf (n / d) * 2 ^ 52 + roundQuot n (d * 2 ^ shiftOf (n / d))
      ↔ (2 ^ 54 - 1) * 2 ^ e * d ≤ n := by
  have h1 := (shiftOf_spec (n / d)).1
  have h2 := (shiftOf_spec (n / d)).2
  have hk := mantissa_le n hd
  have hk' := le_mantissa n hd
  generalize shiftOf (n / d) = sh at *
  have hpow : ∀ a b : Nat, a ≤ b → 2 ^ a ≤ 2 ^ b := fun a b h => Nat.pow_le_pow_right (by norm_num) h
  rcases Nat.lt_trichotomy sh (e + 1) with h | h | h
  · -- below the top binade
    constructor
    · intro; omega
    · intro hn
      exfalso
      have hq : n < 2 ^ 53 * 2 ^ sh * d := (Nat.div_lt_iff_lt_mul hd).mp h1
      have h3 := hpow sh e (by omega)
      have h4 : 2 ^ 53 * 2 ^ sh * d ≤ 2 ^ 53 * 2 ^ e * d := Nat.mul_le_mul_right d (Nat.mul_le_mul_left _ h3)
      have h5 : 2 ^ 53 * 2 ^ e * d ≤ (2 ^ 54 - 1) * 2 ^ e * d :=
        Nat.mul_le_mul_right d (Nat.mul_le_mul_right _ (by norm_num))
      exact absurd (lt_of_lt_of_le hq (le_trans h4 (le_trans h5 hn))) (lt_irrefl _)
  · subst h
    rw [← mantissa_top n d e hd hk]
    omega
  · have h3 := hk' (by omega)
    constructor
    · intro _
      have hq : 2 ^ 52 * 2 ^ sh * d ≤ n := (Nat.le_div_iff_mul_le hd).mp (h2 (by omega))
      have h4 := hpow (e + 2) sh (by omega)
      have h5 : 2 ^ 52 * 2 ^ (e + 2) * d ≤ 2 ^ 52 * 2 ^ sh * d := Nat.mul_le_mul_right d (Nat.mul_le_mul_left _ h4)
      have h6 : (2 ^ 54 - 1) * 2 ^ e * d ≤ 2 ^ 52 * 2 ^ (e + 2) * d := by
        refine Nat.mul_le_mul_right d ?_
        have h4e : 2 ^ (e + 2) = 2 ^ e * 4 := by rw [Nat.pow_add]
        rw [h4e]
        generalize 2 ^ e = X
        omega
      exact le_trans h6 (le_trans h5 hq)
    · intro; omega

/-- Rounding overflows exactly from half a last place above the largest finite magnitude. -/
theorem roundMag_overflow (n : Nat) {d : Nat} (hd : 0 < d) :
    roundMag n d = infMag ↔ (2 ^ 54 - 1) * 2 ^ 2044 * d ≤ n := by
  rw [← roundMag_top n 2044 hd, roundMag_eq]
  exact min_eq_right_iff

/-- The largest finite magnitude is below the overflow bound. -/
theorem magUnits_lt_overflow {m e : Nat} (hm : m < (e + 3) * 2 ^ 52) : magUnits m < (2 ^ 54 - 1) * 2 ^ e := by
  have h1 : magUnits m ≤ magUnits ((e + 1) * 2 ^ 52 + (2 ^ 53 - 1)) := magUnits_strictMono.monotone (by omega)
  rw [magUnits_shift (by norm_num) (fun _ => by norm_num), Nat.pow_succ' (n := e)] at h1
  have h4 : 0 < 2 ^ e := by positivity
  generalize 2 ^ e = X at *
  omega

/-- A representable value rounds to itself. -/
theorem roundMag_exact {m : Nat} (hm : m < infMag) {d : Nat} (hd : 0 < d) : roundMag (magUnits m * d) d = m := by
  have hlt : roundMag (magUnits m * d) d < infMag := by
    refine lt_of_le_of_ne (by rw [roundMag_eq]; exact min_le_right _ _) fun he => ?_
    rw [roundMag_overflow _ hd] at he
    exact absurd (Nat.le_of_mul_le_mul_right he hd) (not_le.mpr (magUnits_lt_overflow hm))
  have h := (roundMag_nearest (magUnits m * d) hd hlt m).1
  have e : (magUnits m : Int) * d - (magUnits m * d : Nat) = 0 := by push_cast; ring
  rw [e, abs_zero] at h
  have h0 := abs_nonpos_iff.mp h
  have h1 : magUnits (roundMag (magUnits m * d) d) * d = magUnits m * d := by
    have : (magUnits (roundMag (magUnits m * d) d) : Int) * d = ((magUnits m * d : Nat) : Int) := by omega
    exact_mod_cast this
  exact magUnits_strictMono.injective (Nat.eq_of_mul_eq_mul_right hd h1)

theorem roundMag_le (n d : Nat) : roundMag n d ≤ infMag := by
  rw [roundMag_eq]; exact min_le_right _ _

end Sys2Proof.Machine
end

