-- ==== Sys2Proof/Machine/Assembler.lean ====
section
/-! DEFINITION. The assembler text of `30_encoding.md` R101 and the pseudo-instructions of R102, down to command packets. The
block never sees the text: no step reads anything here. -/

namespace Sys2Proof.Machine

open Sys2Proof

/-! ## Pseudo-instructions (R102) -/

/-- `PROCESS_BLOCK`: one frame per pair of input samples, all with the same flags (also `45_pipeline.md` R269). -/
def processBlock (bypass silL silR : Bool) (frames : List (F64 × F64)) : List Instr :=
  frames.map fun f => .processFrame bypass silL silR f.1 f.2

/-- `SET_CUTOFFS`: the four stages in order. -/
def setCutoffs (a b c d : F64) : List Instr :=
  [.setCutoff .inHpf a, .setCutoff .inLpf b, .setCutoff .outHpf c, .setCutoff .outLpf d]

/-- `INIT`: the boot sequence (also `70_reset_and_hazards.md` R320). -/
def initSequence (fs : F64) (wave : BitVec 8) (f a b c d wet : F64) : List Instr :=
  [.configure fs, .setCarrier wave f] ++ setCutoffs a b c d ++ [.setMix wet, .reset]

/-- `BYPASS_FRAME`. -/
def bypassFrame (inL inR : F64) : List Instr := [.processFrame true false false inL inR]

/-! ## Characters and fields -/

/-- The characters of a text up to, and without, the first one that `p` accepts; and the rest after it, if there is one. -/
def splitFirst (p : Char → Bool) : List Char → List Char × Option (List Char)
  | [] => ([], none)
  | c :: cs => if p c then ([], some cs) else let r := splitFirst p cs; (c :: r.1, r.2)

/-- The pieces of a text between the characters that `p` accepts. -/
def splitAll (p : Char → Bool) : List Char → List (List Char)
  | [] => [[]]
  | c :: cs =>
    match splitAll p cs with
    | [] => [[c]]
    | piece :: rest => if p c then [] :: piece :: rest else (c :: piece) :: rest

/-- The characters that may stand around a mnemonic and an operand: R101 names none (DESIGN CHOICE, log 14). -/
def isBlank (c : Char) : Bool := c == ' ' || c == '\t' || c == '\r'

/-- The text without the blanks at its two ends. -/
def trimBlanks (cs : List Char) : List Char := ((cs.dropWhile isBlank).reverse.dropWhile isBlank).reverse

/-! ## Operands (R101) -/

/-- The digits in order of value, in either case (DESIGN CHOICE, log 14). -/
def digitRows : List (List Char) := ["0123456789abcdef".toList, "0123456789ABCDEF".toList]

/-- The place of a character among the digits of a base. -/
def digitIn (base : Nat) (c : Char) : Option Nat :=
  digitRows.findSome? fun row => (row.take base).findIdx? (· == c)

/-- The number a list of digits stands for; none if one is no digit. -/
def digitsValue (base : Nat) (cs : List Char) : Option Nat :=
  cs.foldlM (fun n c => (digitIn base c).map fun d => base * n + d) 0

/-- An unsigned decimal integer with at least one digit. -/
def asmNat (cs : List Char) : Option Nat := if cs.isEmpty then none else digitsValue 10 cs

/-- `0x` and exactly 16 hexadecimal digits: a raw pattern. -/
def asmHex : List Char → Option Word
  | '0' :: 'x' :: ds => if ds.length = 16 then (digitsValue 16 ds).map (BitVec.ofNat 64) else none
  | _ => none

/-- Whether a minus sign leads, and the rest after a sign. R101 shows only the minus sign; a plus sign is taken too, before a
number and before its exponent (DESIGN CHOICE, log 14). -/
def asmSign : List Char → Bool × List Char
  | '-' :: cs => (true, cs)
  | '+' :: cs => (false, cs)
  | cs => (false, cs)

/-- The digits before and after a decimal point, as an integer and the number of digits after the point. Digits on one side
of the point are enough, which R101 leaves open (DESIGN CHOICE, log 14). -/
def asmFixed (cs : List Char) : Option (Nat × Nat) :=
  match splitFirst (· == '.') cs with
  | (whole, none) => (asmNat whole).map fun n => (n, 0)
  | (whole, some frac) =>
    if whole.isEmpty && frac.isEmpty then none
    else (digitsValue 10 (whole ++ frac)).map fun n => (n, frac.length)

/-- A decimal number denotes `RN` of its exact value. The exponent's letter may be a capital, which R101 leaves open. A zero written with a minus sign is `-0.0`, as the programs of
`95_test_vectors.md` write it (DESIGN CHOICE, log 14); past the binary64 range see `fOfRat`. -/
def asmDecimal (cs : List Char) : Option F64 :=
  let s := asmSign cs
  let parts := splitFirst (fun c => c == 'e' || c == 'E') s.2
  let scale : Option (Bool × Nat) := match parts.2 with
    | none => some (false, 0)
    | some e => let x := asmSign e; (asmNat x.2).map fun n => (x.1, n)
  match asmFixed parts.1, scale with
  | some (n, places), some (down, k) =>
    if n = 0 then some (fPack s.1 0)
    else some (fOfRat s.1 (if down then n else n * 10 ^ k) (10 ^ places * (if down then 10 ^ k else 1)))
  | _, _ => none

/-- A binary64 operand: a raw pattern or a decimal number. -/
def asmF64 (cs : List Char) : Option F64 :=
  match asmHex cs with
  | some w => some w
  | none => asmDecimal cs

/-- The offset of UDL_READ, a `U64` (R100): an integer that fits, or a raw pattern. -/
def asmU64 (cs : List Char) : Option Word :=
  match asmHex cs with
  | some w => some w
  | none => (asmNat cs).bind fun n => if n < 2 ^ 64 then some (BitVec.ofNat 64 n) else none

/-- A waveform name, or an integer 0..255, which is written in decimal (DESIGN CHOICE, log 14). -/
def asmWave (cs : List Char) : Option (BitVec 8) :=
  if cs = "sine".toList then some 0
  else if cs = "triangle".toList then some 1
  else if cs = "square".toList then some 2
  else if cs = "saw".toList then some 3
  else (asmNat cs).bind fun n => if n < 256 then some (BitVec.ofNat 8 n) else none

def asmStage (cs : List Char) : Option Stage :=
  if cs = "in_hpf".toList then some .inHpf
  else if cs = "in_lpf".toList then some .inLpf
  else if cs = "out_hpf".toList then some .outHpf
  else if cs = "out_lpf".toList then some .outLpf
  else none

def asmChan (cs : List Char) : Option Chan :=
  if cs = ['L'] then some .left else if cs = ['R'] then some .right else none

/-- The pieces of a unit name between its dots (R94). -/
def unitPieces (cs : List Char) : List (List Char) := splitAll (· == '.') cs

def asmDry (cs : List Char) : Option Chan :=
  match unitPieces cs with
  | [u, c] => if u = "dry".toList then asmChan c else none
  | _ => none

def asmHt (cs : List Char) : Option Chan :=
  match unitPieces cs with
  | [u, c] => if u = "ht".toList then asmChan c else none
  | _ => none

def asmIir (cs : List Char) : Option (Stage × Chan) :=
  match unitPieces cs with
  | [u, s, c] => if u = "iir".toList then (asmStage s).bind fun st => (asmChan c).map fun ch => (st, ch) else none
  | _ => none

def asmFir (cs : List Char) : Option FilterKind :=
  match unitPieces cs with
  | [u, k] =>
    if u = "fir".toList then
      if k = "lpf".toList then some .lpf else if k = "hpf".toList then some .hpf else none
    else none
  | _ => none

/-- PROCESS_FRAME's flags: `-`, or names joined by a bar; the three bits are BYPASS, SIL_L, SIL_R. The names may come in any
order and more than once, and blanks may stand around the bar, which R101 leaves open (DESIGN CHOICE, log 14). -/
def asmFlags (cs : List Char) : Option (Bool × Bool × Bool) :=
  if cs = ['-'] then some (false, false, false)
  else
    let names := (splitAll (· == '|') cs).map trimBlanks
    if names.all fun n => n = "bypass".toList || n = "silL".toList || n = "silR".toList then
      some (names.contains "bypass".toList, names.contains "silL".toList, names.contains "silR".toList)
    else none

def asmSideband (cs : List Char) : Option Bool :=
  if cs = "lower".toList then some true else if cs = "upper".toList then some false else none

/-! ## Lines -/

/-- A line without its comment, split into its mnemonic and its operands: the mnemonic ends at the first blank, and blanks
around an operand are dropped (DESIGN CHOICE, log 14). -/
def asmParts (line : List Char) : List Char × List (List Char) :=
  let text := trimBlanks (splitFirst (· == ';') line).1
  match splitFirst isBlank text with
  | (m, none) => (m, [])
  | (m, some rest) => (m, (splitAll (· == ',') rest).map trimBlanks)

/-- The commands with no operand. -/
def asmPlain (m : List Char) : Option Instr :=
  if m = "NOP".toList then some .nop
  else if m = "RESET".toList then some .reset
  else if m = "READ_STATE".toList then some .readState
  else if m = "UDDS_RESET".toList then some .uddsReset
  else if m = "UDDS_READ".toList then some .uddsRead
  else none

/-- The commands with one operand. -/
def asmOne (m a : List Char) : Option Instr :=
  if m = "CONFIGURE".toList then (asmF64 a).map .configure
  else if m = "SET_MIX".toList then (asmF64 a).map .setMix
  else if m = "UDL_RESET".toList then (asmDry a).map .udlReset
  else if m = "UDDS_PROCESS".toList then (asmWave a).map .uddsProcess
  else if m = "UHT_RESET".toList then (asmHt a).map .uhtReset
  else if m = "UIIR_RESET".toList then (asmIir a).map fun u => .uiirReset u.1 u.2
  else if m = "UFIR_RESET".toList then (asmFir a).map .ufirReset
  else none

/-- The commands with two operands. -/
def asmTwo (m a b : List Char) : Option Instr :=
  if m = "SET_CARRIER".toList then (asmWave a).bind fun w => (asmF64 b).map fun f => .setCarrier w f
  else if m = "SET_CUTOFF".toList then (asmStage a).bind fun st => (asmF64 b).map fun hz => .setCutoff st hz
  else if m = "UDL_ENQUEUE".toList then (asmDry a).bind fun c => (asmF64 b).map fun x => .udlEnqueue c x
  else if m = "UDL_READ".toList then (asmDry a).bind fun c => (asmU64 b).map fun i => .udlRead c i
  else if m = "UDDS_SETUP".toList then (asmF64 a).bind fun fs => (asmF64 b).map fun f => .uddsSetup fs f
  else if m = "UHT_PROCESS".toList then (asmHt a).bind fun c => (asmF64 b).map fun x => .uhtProcess c x
  else if m = "UIIR_PROCESS".toList then (asmIir a).bind fun u => (asmF64 b).map fun x => .uiirProcess u.1 u.2 x
  else if m = "UFIR_PROCESS".toList then (asmFir a).bind fun k => (asmF64 b).map fun x => .ufirProcess k x
  else none

/-- The commands with three operands. -/
def asmThree (m a b c : List Char) : Option Instr :=
  if m = "PROCESS_FRAME".toList then
    (asmFlags a).bind fun g => (asmF64 b).bind fun l => (asmF64 c).map fun r => .processFrame g.1 g.2.1 g.2.2 l r
  else if m = "UIIR_SETUP".toList then
    (asmIir a).bind fun u => (asmF64 b).bind fun fs => (asmF64 c).map fun fc => .uiirSetup u.1 u.2 fs fc
  else if m = "UFIR_SETUP".toList then
    (asmFir a).bind fun k => (asmF64 b).bind fun fs => (asmF64 c).map fun fc => .ufirSetup k fs fc
  else none

/-- UMIX, the one command with five operands. -/
def asmUmix (a : List Char) (xs : List (List Char)) : Option Instr :=
  match asmSideband a, xs.mapM asmF64 with
  | some lower, some [z, zH, x, xH] => some (.umix lower z zH x xH)
  | _, _ => none

/-- The pseudo-instructions (R102). -/
def asmPseudo (m : List Char) (ops : List (List Char)) : Option (List Instr) :=
  if m = "BYPASS_FRAME".toList then
    match ops.mapM asmF64 with
    | some [l, r] => some (bypassFrame l r)
    | _ => none
  else if m = "SET_CUTOFFS".toList then
    match ops.mapM asmF64 with
    | some [a, b, c, d] => some (setCutoffs a b c d)
    | _ => none
  else if m = "INIT".toList then
    match ops with
    | fs :: w :: rest =>
      match asmF64 fs, asmWave w, rest.mapM asmF64 with
      | some fs, some w, some [f, a, b, c, d, wet] => some (initSequence fs w f a b c d wet)
      | _, _, _ => none
    | _ => none
  else if m = "PROCESS_BLOCK".toList then
    match ops with
    | g :: n :: rest =>
      match asmFlags g, asmNat n, rest.mapM asmF64 with
      | some g, some n, some xs =>
        if xs.length = 2 * n then some (processBlock g.1 g.2.1 g.2.2 ((xs.take n).zip (xs.drop n))) else none
      | _, _, _ => none
    | _ => none
  else none

/-- The commands of one line: none where the line is not of a form of R101 or R102, and no command for an empty one. -/
def asmLine (line : List Char) : Option (List Instr) :=
  let p := asmParts line
  if p.1.isEmpty && p.2.isEmpty then some []
  else
    let one := match p.2 with
      | [] => asmPlain p.1
      | [a] => asmOne p.1 a
      | [a, b] => asmTwo p.1 a b
      | [a, b, c] => asmThree p.1 a b c
      | a :: xs => if p.1 = "UMIX".toList then asmUmix a xs else none
    match one with
    | some i => some [i]
    | none => asmPseudo p.1 p.2

/-- The commands of a text, line by line; none where one line has no form of R101 or R102 (DESIGN CHOICE, log 14). -/
def asmText (text : String) : Option (List Instr) :=
  ((splitAll (· == '\n') text.toList).mapM asmLine).map List.flatten

/-- The command packets of a text (R90). -/
def assemble (text : String) : Option (List Packet) := (asmText text).map fun is => is.map encode

end Sys2Proof.Machine
end

