-- ==== Sys2Proof/Tests/Slice0.lean ====
section
/-! SUPPORT. The model's own tests: ill-formed packets, words written out from the spec's encoding, one-step results from the
spec's examples and vectors, and for each statement with hypotheses a state and operands that meet them. -/

namespace Sys2Proof.Tests

open Sys2Proof Sys2Proof.Machine

set_option Elab.async false

/-! ## A small configuration (`95_test_vectors.md` L2.5) and small states -/

/-- The configuration EX: `WT_LEN = 16`, `HT_LEN = 7`, `FIR_LEN = 5`, reference tables. -/
def exCfg : Config := {
  wtLen := 16, htLen := 7, firLen := 5, firPassHz := 0x40D3880000000000#64, dryAlign := 0,
  wtD := [[0x0000000000000000#64, 0x3FD87DE2A6AEA963#64, 0x3FE6A09E667F3BCD#64, 0x3FED906BCF328D46#64, 0x3FF0000000000000#64],
    [0x0000000000000000#64, 0x3FD0000000000000#64, 0x3FE0000000000000#64, 0x3FE8000000000000#64, 0x3FF0000000000000#64],
    [0x3FF0000000000000#64, 0x3FF0000000000000#64, 0x3FF0000000000000#64, 0x3FF0000000000000#64, 0x3FF0000000000000#64],
    [0x3FF0000000000000#64, 0x3FEC000000000000#64, 0x3FE8000000000000#64, 0x3FE4000000000000#64, 0x3FE0000000000000#64, 0x3FD8000000000000#64, 0x3FD0000000000000#64, 0x3FC0000000000000#64, 0x0000000000000000#64]],
  wtH := [[0xBFF0000000000000#64, 0xBFED906BCF328D46#64, 0xBFE6A09E667F3BCD#64, 0xBFD87DE2A6AEA963#64, 0x0000000000000000#64],
    [0xBFE7C22E5B6C1A90#64, 0xBFE6BECDBF63A476#64, 0xBFE387447E0A6EB7#64, 0xBFDAB928DC3A8887#64, 0x0000000000000000#64],
    [0xBFF072FB1688F178#64, 0xBFF072FB1688F178#64, 0xBFE1F487AD72CA68#64, 0xBFD06D868F24172A#64, 0x0000000000000000#64],
    [0xBFE32C4068EDBAA8#64, 0xBFE32C4068EDBAA8#64, 0xBFC5CA2A93264982#64, 0x3FB12CE7045CB1CB#64, 0x3FCC3DC98F7E969C#64, 0x3FD4B8C0503B439C#64, 0x3FD903FA1152700F#64, 0x3FDB736B8848508F#64, 0x3FDC3DC98F7E969C#64]],
  htG := [0#64, 0xBFD9AB236B9CF786#64, 0x3FD9AB236B9CF786#64, 0#64], coefs := .reference }

/-- The answer is a next state. -/
def done : Result → Bool
  | .next _ => true
  | _ => false

/-- The state a run answers, or the given one. -/
def final (r : Result) (d : State) : State :=
  match r with
  | .next t => t
  | _ => d

theorem eq_next_final {r : Result} (d : State) (h : done r = true) : r = .next (final r d) := by
  cases r with
  | next t => rfl
  | fault e => cases e
  | refused e => simp [done] at h

/-- The answer is this refusal. -/
def refusedWith (r : Result) (e : Refusal) : Bool :=
  match r with
  | .refused x => x == e
  | _ => false

/-- The state after some commands that complete. -/
def after (is : List Instr) (s : State) : State := final (execAll is s) s

/-- The result words of the last response. -/
def answers (s : State) : List Word := (s.resp.map Response.results).getD []

/-- The status word of the last response. -/
def statusOf (s : State) : Option Word := s.resp.map Response.status

/-- Power-on with EX. -/
def exOn : State := State.powerOn exCfg

/-- Power-on, then `INIT 8.0, sine, 1.0, 0.25, 3.0, 0.25, 3.0, 0.5` (R102, program P1). -/
def exBoot : State := after
  [.configure 0x4020000000000000#64, .setCarrier 0 0x3FF0000000000000#64, .setCutoff .inHpf 0x3FD0000000000000#64,
    .setCutoff .inLpf 0x4008000000000000#64, .setCutoff .outHpf 0x3FD0000000000000#64,
    .setCutoff .outLpf 0x4008000000000000#64, .setMix 0x3FE0000000000000#64, .reset] exOn

/-- The same with a new carrier, so that the rate is cached. -/
def exLive : State := after [.setCarrier 0 0x4000000000000000#64] exBoot

/-- Power-on, then the low-pass FIR set up past the pass-through threshold. -/
def exPass : State := after [.ufirSetup .lpf 0x40E7700000000000#64 0x40D3880000000000#64] exOn

/-- A port with one packet waiting. -/
def waiting (ws : List Word) (s : State) : State := { s with cmds := [bytesOf ws] }

theorem exOn_inv : exOn.Inv := ⟨by decide +kernel, by decide +kernel, by decide +kernel⟩
theorem exBoot_inv : exBoot.Inv := ⟨by decide +kernel, by decide +kernel, by decide +kernel⟩
theorem exLive_inv : exLive.Inv := ⟨by decide +kernel, by decide +kernel, by decide +kernel⟩
theorem exPass_inv : exPass.Inv := ⟨by decide +kernel, by decide +kernel, by decide +kernel⟩

/-! ## Ill-formed packets, one per check of R97 (and the examples of R302) -/

/-- Neither the table nor the decoder accepts the words, and the decoder says why. -/
def rejects (ws : List Word) (st : Status) : Bool :=
  !wellFormedWords ws && decide (decode (bytesOf ws) = .error ⟨st, BitVec.ofNat 8 (ws.headD 0).toNat⟩)

theorem test_rejects_reserved_opcode : rejects [0x08#64] .illegalOpcode = true := by decide +kernel
theorem test_rejects_custom_opcode : rejects [0x0000000100000099#64] .illegalOpcode = true := by decide +kernel
theorem test_rejects_reserved_header_bits : rejects [0x0000000001000000#64] .reservedBits = true := by decide +kernel
theorem test_rejects_wrong_unit : rejects [0x2221#64, 0#64, 0#64] .illegalUnit = true := by decide +kernel
theorem test_rejects_reserved_immediate : rejects [0x0000000000040003#64] .reservedBits = true := by decide +kernel
theorem test_rejects_wrong_payload_count : rejects [0x00#64, 0x00#64] .illegalLength = true := by decide +kernel
theorem test_rejects_empty_packet :
    wellFormedWords [] = false ∧ decode [] = .error ⟨.illegalLength, 0⟩ := by decide +kernel
theorem test_rejects_odd_bytes : decode [0x07, 0, 0, 0, 0, 0, 0] = .error ⟨.illegalLength, 0⟩
    ∧ decode [0x07, 0, 0, 0, 0, 0, 0, 0, 9] = .error ⟨.illegalLength, 7⟩ := by decide +kernel

/-! ## Decoding words written out from R91, R94-R96 -/

/-- Each list of words decodes to its command. -/
def decodesTo (l : List (List Word × Instr)) : Prop := ∀ e ∈ l, decode (bytesOf e.1) = .ok e.2

theorem test_decode_core : decodesTo [([0x0#64], .nop), ([0x1#64, 5#64], .configure 5#64),
    ([0xFF0002#64, 7#64], .setCarrier 255 7#64), ([0x20003#64, 9#64], .setCutoff .outHpf 9#64),
    ([0x4#64, 1#64], .setMix 1#64), ([0x60005#64, 1#64, 2#64], .processFrame false true true 1#64 2#64),
    ([0x6#64], .reset), ([0x7#64], .readState)] := by unfold decodesTo; decide +kernel
theorem test_decode_delay_line : decodesTo [([0x2020#64, 3#64], .udlEnqueue .left 3#64),
    ([0x2121#64, 4#64], .udlRead .right 4#64), ([0x2122#64], .udlReset .right)] := by unfold decodesTo; decide +kernel
theorem test_decode_oscillator : decodesTo [([0x28#64, 3#64, 4#64], .uddsSetup 3#64 4#64),
    ([0x30029#64], .uddsProcess 3), ([0x2A#64], .uddsReset), ([0x2B#64], .uddsRead)] := by unfold decodesTo; decide +kernel
theorem test_decode_hilbert : decodesTo [([0x1030#64, 3#64], .uhtProcess .left 3#64),
    ([0x1131#64], .uhtReset .right)] := by unfold decodesTo; decide +kernel
theorem test_decode_biquad : decodesTo [([0x3638#64, 3#64, 4#64], .uiirSetup .outLpf .left 3#64 4#64),
    ([0x3339#64, 3#64], .uiirProcess .inLpf .right 3#64), ([0x303A#64], .uiirReset .inHpf .left)] := by
  unfold decodesTo; decide +kernel
theorem test_decode_fir : decodesTo [([0x4140#64, 3#64, 4#64], .ufirSetup .hpf 3#64 4#64),
    ([0x4041#64, 3#64], .ufirProcess .lpf 3#64), ([0x4142#64], .ufirReset .hpf)] := by unfold decodesTo; decide +kernel
theorem test_decode_mixer : decodesTo [([0x10048#64, 1#64, 2#64, 3#64, 4#64], .umix true 1#64 2#64 3#64 4#64)] := by
  unfold decodesTo; decide +kernel
theorem test_decode_table_word : decodeTableWord 64 0x2121 = some (.udlRead .right 0) := by decide +kernel
theorem test_fetch_word_runs : statusOf (final (step (exOn.withFetchWord 64 0x2B)) exOn) = some 0x2B00#64 := by
  decide +kernel

/-! ## Arithmetic -/

theorem test_add_ties_to_even : fAdd [] 0x3FF0000000000000#64 0x3CA0000000000000#64 = 0x3FF0000000000000#64
    ∧ fAdd [] 0x3FF0000000000001#64 0x3CA0000000000000#64 = 0x3FF0000000000002#64 := by decide +kernel
theorem test_mul_subnormal_and_overflow : fMul [] 0x0000000000000003#64 0x3FE0000000000000#64 = 0x0000000000000002#64
    ∧ fMul [] 0x7FE0000000000000#64 0xC000000000000000#64 = 0xFFF0000000000000#64 := by decide +kernel
theorem test_round_half_away : fRound 0xC004000000000000#64 = -3 := by decide +kernel

/-! ## One step of each command (examples of the command rules, programs P1 and P5) -/

/-- What one command answers on a state. -/
def reply (i : Instr) (s : State) : Option Response := (final (exec i s) { s with resp := none }).resp

theorem test_nop : reply .nop exOn = some ⟨0#64, []⟩ := by decide +kernel
theorem test_configure : answers (after [.configure 0x40E7700000000000#64, .readState] exOn) = [6#64] := by decide +kernel
theorem test_setCarrier : (after [.configure 0x4020000000000000#64, .setCarrier 0 0x3FF4CCCCCCCCCCCD#64] exOn).dds
    = ⟨0, 2, 2, 10, -6, some 0x4020000000000000#64, true⟩ := by decide +kernel
theorem test_setCarrier_flips : (after [.setCarrier 0 0xBFF0000000000000#64] exBoot).sw = true := by decide +kernel
theorem test_setCutoff_refused : refusedWith (exec (.setCutoff .outLpf 0x4010000000000000#64) exBoot) .domainCutoff
    = true := by decide +kernel
theorem test_setMix : (after [.setMix 0x3FD0000000000000#64] exOn).dryg = 0x3FE8000000000000#64 := by decide +kernel
theorem test_frame_steps_the_oscillator :
    (after [.processFrame false false false 0x3FF0000000000000#64 0x3FE0000000000000#64] exBoot).dds.phase = 2 := by
  decide +kernel
theorem test_bypass : reply (.processFrame true false true 0x3FE0000000000000#64 7#64) exOn
    = some ⟨0x20500#64, [0x3FE0000000000000#64, 0#64]⟩ := by decide +kernel
theorem test_reset : (after [.configure 0x4030000000000000#64, .reset] exBoot).resetPending = false := by decide +kernel
theorem test_readState : answers (after [.readState] exBoot) = [0x3FC#64] := by decide +kernel
theorem test_udl : answers (after [.udlEnqueue .left 1#64, .udlEnqueue .left 2#64, .udlRead .left 1] exOn) = [1#64] := by
  decide +kernel
theorem test_udlRead_range : reply (.udlRead .left 4) exOn = some ⟨0x2105#64, []⟩ := by decide +kernel
theorem test_udlReset : answers (after [.udlEnqueue .right 1#64, .udlReset .right, .udlRead .right 0] exOn) = [0#64] := by
  decide +kernel
theorem test_udds : answers (after [.uddsSetup 0x4020000000000000#64 0x3FF4CCCCCCCCCCCD#64, .uddsProcess 0, .uddsRead] exOn)
    = [3#64, 2#64, 0xFFFFFFFFFFFFFFFC#64, 10#64, 0xFFFFFFFFFFFFFFFA#64, 1#64, 0x4020000000000000#64] := by
  decide +kernel
theorem test_uddsProcess_unsupported : answers (after [.uddsProcess 4] exBoot) = [0#64, 0#64] := by decide +kernel
theorem test_uddsReset : (after [.uddsReset] exLive).dds.src = none := by decide +kernel
theorem test_uht : answers (after [.uhtProcess .left 0x3FF0000000000000#64, .uhtProcess .left 0, .uhtProcess .left 0] exOn)
    = [0#64, 0xBFD9AB236B9CF786#64] := by decide +kernel
theorem test_uhtReset : (after [.uhtProcess .left 1#64, .uhtReset .left] exOn).ht = exOn.ht := by decide +kernel
theorem test_uiir : answers (after [.uiirSetup .inLpf .left 0x4010000000000000#64 0x3FF0000000000000#64,
    .uiirProcess .inLpf .left 0x3FF0000000000000#64] exOn) = [0x3FD2BEC333018867#64] := by decide +kernel
theorem test_uiirReset : (((after [.uiirReset .inHpf .left] exBoot).iir.inHpf).left).coefV = true := by decide +kernel
theorem test_ufir : answers (after [.ufirSetup .lpf 0x4010000000000000#64 0x3FF0000000000000#64,
    .ufirProcess .lpf 0x3FF0000000000000#64, .ufirProcess .lpf 0] exOn) = [0x3FCA133F35C10108#64] := by decide +kernel
theorem test_ufirSetup_pass : exPass.fir.lpf.pass = true := by decide +kernel
theorem test_ufirReset : (after [.ufirProcess .lpf 7#64, .ufirReset .lpf] exPass).fir.lpf.dl = exOn.fir.lpf.dl := by
  decide +kernel
theorem test_umix : reply (.umix true 0x3FF0000000000000#64 0x3FE0000000000000#64 0x3FD0000000000000#64
    0xC000000000000000#64) exOn = some ⟨0x4800#64, [0xBFE8000000000000#64]⟩ := by decide +kernel

/-! ## Witnesses: for each statement with hypotheses, a state and operands that meet them all -/

theorem witness_legal_packet : decode (encode .nop) = .ok .nop := by decide +kernel

/-- One header for each outcome of the decode order. -/
theorem witness_first_failing_check :
    (∀ r ∈ opcodeTable, bitsOf r.pattern 7 0 ≠ bitsOf 0x08#64 7 0)
    ∧ (∃ r ∈ opcodeTable, bitsOf r.pattern 7 0 = bitsOf 0x1000003#64 7 0 ∧ bitsOf 0x1000003#64 63 24 ≠ 0)
    ∧ (∃ r ∈ opcodeTable, bitsOf r.pattern 7 0 = bitsOf 0x2221#64 7 0
      ∧ bitsOf (0x2221#64 &&& r.mask) 15 8 ≠ bitsOf r.pattern 15 8)
    ∧ (∃ r ∈ opcodeTable, bitsOf r.pattern 7 0 = bitsOf 0x40003#64 7 0
      ∧ bitsOf (0x40003#64 &&& r.mask) 23 16 ≠ bitsOf r.pattern 23 16)
    ∧ ∃ r ∈ opcodeTable, bitsOf r.pattern 7 0 = bitsOf 0x30003#64 7 0 ∧ bitsOf 0x30003#64 63 24 = 0
      ∧ bitsOf (0x30003#64 &&& r.mask) 15 8 = bitsOf r.pattern 15 8
      ∧ bitsOf (0x30003#64 &&& r.mask) 23 16 = bitsOf r.pattern 23 16 ∧ r.payload = 1 := by decide +kernel

theorem witness_step_runs : (waiting [6#64] exOn).cmds = [bytesOf [6#64]] ∧ decode (bytesOf [6#64]) = .ok .reset
    ∧ exOn.cmds = [] := by decide +kernel

theorem witness_illegal_packet : (waiting [8#64] exOn).cmds = [bytesOf [8#64]]
    ∧ decode (bytesOf [8#64]) = .error ⟨.illegalOpcode, 8⟩ ∧ [(7 : Byte)].length % 8 ≠ 0
    ∧ (waiting [] exOn).cmds = [[]] := by decide +kernel

/-- UDL_READ at its first offset out of range, waiting at the port. -/
theorem witness_nonOk_status : ∃ t r, step (waiting [0x2021#64, 4#64] exOn) = .next t ∧ t.resp = some r
    ∧ bitsOf r.status 7 0 ≠ 0 :=
  ⟨_, ⟨0x2105#64, []⟩, eq_next_final exOn (by decide +kernel), by decide +kernel, by decide +kernel⟩

theorem witness_answered_once : (∃ t, step (waiting [6#64] exOn) = .next t) ∧ (waiting [6#64] exOn).cmds ≠ []
    ∧ ∃ t, exec (.processFrame true true false 0 0) exOn = .next t :=
  ⟨⟨_, eq_next_final exOn (by decide +kernel)⟩, by decide +kernel, _, eq_next_final exOn (by decide +kernel)⟩

theorem witness_tables_constant : ∃ t, step (waiting [6#64] exOn) = .next t :=
  ⟨_, eq_next_final exOn (by decide +kernel)⟩

theorem witness_refusals : exOn.Inv ∧ refusalOf exOn (.uddsProcess 0) = some .ddsNotSetUp
    ∧ refusalOf exOn (.processFrame false false false 0 0) = some .notConfigured
    ∧ exBoot.Inv ∧ refusalOf exBoot (.processFrame false false false 0 0) = none
    ∧ refusalOf exBoot (.configure 0x4010000000000000#64) = some .domainCutoff
    ∧ refusalOf exBoot (.configure 0x4020000000000000#64) = none :=
  ⟨exOn_inv, by decide +kernel, by decide +kernel, exBoot_inv, by decide +kernel, by decide +kernel, by decide +kernel⟩

theorem witness_step_keeps : (waiting [5#64, 0#64, 0#64] exBoot).Inv
    ∧ ∃ t, step (waiting [5#64, 0#64, 0#64] exBoot) = .next t :=
  ⟨⟨by decide +kernel, by decide +kernel, by decide +kernel⟩, _, eq_next_final exOn (by decide +kernel)⟩

theorem witness_admitted_configuration : exCfg.valid = true := by decide +kernel

/-- The value of a pattern with few units: 1 and the largest finite value. -/
theorem fVal_one : fVal 0x3FF0000000000000#64 = 1 := fVal_fOne
theorem fVal_max : fVal 0x7FEFFFFFFFFFFFFF#64 = (2 ^ 53 - 1) * 2 ^ 971 := by
  rw [fVal_of_fInt (k := (2 ^ 53 - 1) * 2 ^ 971) (e := 1074) (f := 0) (by decide +kernel) rfl]
  norm_num

/-- Sums and products below and past the overflow bound, and an exact zero. -/
theorem witness_rounding : fFinite 0x3FF0000000000000#64 = true ∧ fFinite 0x7FEFFFFFFFFFFFFF#64 = true
    ∧ |fVal 0x3FF0000000000000#64 + fVal 0x3FF0000000000000#64| < overflowBound
    ∧ overflowBound ≤ |fVal 0x7FEFFFFFFFFFFFFF#64 + fVal 0x7FEFFFFFFFFFFFFF#64|
    ∧ |fVal 0x3FF0000000000000#64 * fVal 0x3FF0000000000000#64| < overflowBound
    ∧ overflowBound ≤ |fVal 0x7FEFFFFFFFFFFFFF#64 * fVal 0x7FEFFFFFFFFFFFFF#64|
    ∧ fVal 0x3FF0000000000000#64 + fVal 0xBFF0000000000000#64 = 0 := by
  have hm : fVal 0xBFF0000000000000#64 = -1 := by
    rw [fVal_of_fInt (k := -1) (e := 1074) (f := 0) (by decide +kernel) rfl]; norm_num
  have h971 : (2 : ℚ) ^ 971 = 2 * 2 ^ 970 := pow_succ' 2 970
  have hb : overflowBound = (2 ^ 54 - 1) * 2 ^ 970 := by
    rw [overflowBound, sub_mul, one_mul, ← pow_add]
  have h1 : (1 : ℚ) ≤ 2 ^ 970 := one_le_pow₀ (by norm_num)
  rw [fVal_one, fVal_max, hm, hb, h971]
  revert h1
  generalize (2 : ℚ) ^ 970 = X
  intro h1
  refine ⟨by decide, by decide, ?_, ?_, ?_, ?_, by norm_num⟩
  · rw [abs_of_nonneg (by norm_num)]; norm_num; linarith
  · rw [abs_of_nonneg (by norm_num; linarith)]; norm_num; linarith
  · rw [abs_of_nonneg (by norm_num)]; norm_num; linarith
  · rw [abs_of_nonneg (by norm_num; nlinarith)]; norm_num; nlinarith

/-- Infinities with a finite value, with each other, and with a non-zero value. -/
theorem witness_infinite_operands : fIsInf 0x7FF0000000000000#64 = true ∧ fIsInf 0xFFF0000000000000#64 = true
    ∧ fIsNan 0x3FF0000000000000#64 = false ∧ fMag 0x3FF0000000000000#64 ≠ 0 ∧ fIsInf 0x3FF0000000000000#64 = false
    ∧ fMag 0x7FF0000000000000#64 ≠ 0 ∧ fNegBit 0x7FF0000000000000#64 = false := by decide +kernel

/-- Arithmetic and comparison of infinities. -/
theorem test_infinities : fAdd [] 0xFFF0000000000000#64 0x7FEFFFFFFFFFFFFF#64 = 0xFFF0000000000000#64
    ∧ fMul [] 0xBFF0000000000000#64 0x7FF0000000000000#64 = 0xFFF0000000000000#64
    ∧ fLt 0xFFF0000000000000#64 0xFFEFFFFFFFFFFFFF#64 = true := by decide +kernel

theorem witness_no_nan : fIsNan 0x7FF0000000000000#64 = false ∧ fFinite 0#64 = true := by decide +kernel
theorem witness_nan_operand : fIsNan 0x7FF8000000000000#64 = true := by decide +kernel

theorem witness_delay_line : lineOk 4 (DelayLine.powerOn 4) = true ∧ 3 < 4 ∧ 2 + 1 < 4 := by decide +kernel

theorem witness_delay_line_commands : exOn.Inv ∧ (3#64).toNat < exOn.cfg.dryCap ∧ exOn.cfg.dryCap ≤ (4#64).toNat :=
  ⟨exOn_inv, by decide +kernel, by decide +kernel⟩

/-- UDDS_SETUP with no rate cached, with the same rate cached, and with another. -/
theorem witness_oscillator_setup : exBoot.Inv ∧ exLive.Inv ∧ rateOk 0x4020000000000000#64 = true
    ∧ rateOk 0x4030000000000000#64 = true ∧ ddsFreqOk exBoot.cfg 0x3FF4CCCCCCCCCCCD#64 = true
    ∧ ddsFreqOk exLive.cfg 0x3FF4CCCCCCCCCCCD#64 = true
    ∧ (∀ r, exBoot.dds.src = some r → fVal r ≠ fVal 0x4020000000000000#64)
    ∧ (∃ r, exLive.dds.src = some r ∧ fVal r = fVal 0x4020000000000000#64)
    ∧ ∀ r, exLive.dds.src = some r → fVal r ≠ fVal 0x4030000000000000#64 := by
  have h0 : exBoot.dds.src = none := by decide +kernel
  have h1 : exLive.dds.src = some 0x4020000000000000#64 := by decide +kernel
  refine ⟨exBoot_inv, exLive_inv, by decide +kernel, by decide +kernel, by decide +kernel, by decide +kernel, ?_,
    ⟨_, h1, rfl⟩, ?_⟩
  · intro r hr; rw [h0] at hr; cases hr
  · intro r hr
    rw [h1] at hr
    cases hr
    rw [Ne, fVal_eq_iff]
    decide +kernel

theorem witness_oscillator_process : exBoot.dds.valid = true := by decide +kernel

/-- The ends of the quadrants, each waveform class. -/
theorem witness_lookup : exCfg.valid = true ∧ (∀ p ∈ [0, 3, 4, 7, 8, 11, 12, 15], p < exCfg.wtLen)
    ∧ (2#8).toNat < 3 ∧ (3#8).toNat = 3 ∧ 4 ≤ (4#8).toNat ∧ 2 * 7 < exCfg.wtLen := by decide +kernel

theorem witness_error_range : IsStepping exBoot.dds 0 8 ∧ errInRange exBoot.dds
    ∧ (∃ t, exec (.uddsProcess 0) exBoot = .next t)
    ∧ (∃ t, exec (.processFrame false false false 0 0) exBoot = .next t)
    ∧ (∃ t, exec .uddsReset exBoot = .next t) ∧ (∃ t, exec .reset exBoot = .next t) ∧ exBoot.dds.src = none
    ∧ ∃ t, exec (.uddsSetup 0x4020000000000000#64 0x3FF4CCCCCCCCCCCD#64) exBoot = .next t :=
  ⟨by unfold IsStepping; decide +kernel, by unfold errInRange; decide +kernel,
    ⟨_, eq_next_final exOn (by decide +kernel)⟩, ⟨_, eq_next_final exOn (by decide +kernel)⟩, ⟨_, rfl⟩, ⟨_, rfl⟩,
    by decide +kernel, _, eq_next_final exOn (by decide +kernel)⟩

/-- A re-seeded oscillator and `M = 8` calls, four of each kind. -/
theorem witness_average_frequency : exBoot.dds.valid = true ∧ IsStepping exBoot.dds 0 8 ∧ 0 < exBoot.cfg.wtLen
    ∧ exBoot.dds.phase < exBoot.cfg.wtLen
    ∧ (∃ t, execAll (List.replicate 4 (.uddsProcess 0) ++ List.replicate 4 (.processFrame false false false 0 0)) exBoot
      = .next t)
    ∧ exBoot.dds.phase = 0 ∧ exBoot.dds.err = 2 * ((0 : Nat) : Int) - ((8 : Nat) : Int) ∧ errInRange exBoot.dds :=
  ⟨by decide +kernel, by unfold IsStepping; decide +kernel, by decide +kernel, by decide +kernel,
    ⟨_, eq_next_final exOn (by decide +kernel)⟩, by decide +kernel, by decide +kernel,
    by unfold errInRange; decide +kernel⟩

theorem witness_in_phase_delay : exOn.Inv ∧ exec (.uhtReset .left) exOn = .next (final (exec (.uhtReset .left) exOn) exOn)
    ∧ ∃ t, execAll (([1#64, 2#64, 3#64] ++ [4#64]).map (Instr.uhtProcess .left))
      (final (exec (.uhtReset .left) exOn) exOn) = .next t :=
  ⟨exOn_inv, eq_next_final exOn (by decide +kernel), _, eq_next_final exOn (by decide +kernel)⟩

theorem witness_biquad : filterRateOk 0x4010000000000000#64 = true ∧ cutoffOk 0x3FF0000000000000#64 = true
    ∧ twiceBelow 0x3FF0000000000000#64 0x4010000000000000#64 = true
    ∧ ((exBoot.iir.get .inHpf).get .left).coefV = true := by decide +kernel

theorem witness_unit_resets : exBoot.Inv := exBoot_inv

theorem witness_fir_setup : exOn.Inv ∧ filterRateOk 0x4010000000000000#64 = true
    ∧ firCutoffOk 0x3FF0000000000000#64 = true ∧ twiceBelow 0x3FF0000000000000#64 0x4010000000000000#64 = true :=
  ⟨exOn_inv, by decide +kernel, by decide +kernel, by decide +kernel⟩

/-- The terms of R205 exist, for the rate 4 and the cutoff 1. -/
theorem witness_fir_terms : ∃ v : Nat → ℝ, FirTermsAre exOn.cfg.firLen 0x4010000000000000#64 0x3FF0000000000000#64 v :=
  ⟨_, fun _ hw j _ _ hn => by subst hw hn; exact rfl⟩

theorem witness_fir_process : (exPass.fir.get .lpf).coefV = true := by decide +kernel

theorem witness_fir_pass_through : exPass.Inv ∧ exPass.fir.lpf.pass = true
    ∧ exec (.ufirReset .lpf) exPass = .next (final (exec (.ufirReset .lpf) exPass) exPass)
    ∧ ∃ t, execAll (([1#64, 2#64] ++ [3#64]).map (Instr.ufirProcess .lpf))
      (final (exec (.ufirReset .lpf) exPass) exPass) = .next t :=
  ⟨exPass_inv, by decide +kernel, eq_next_final exPass (by decide +kernel), _, eq_next_final exPass (by decide +kernel)⟩

/-- A carrier change that changes the sign class. -/
theorem witness_set_carrier_formula : fFinite 0xBFF0000000000000#64 = true ∧ exBoot.cfV = true
    ∧ ∃ t, exec (.setCarrier 0 0xBFF0000000000000#64) exBoot = .next t :=
  ⟨by decide +kernel, by decide +kernel, _, eq_next_final exOn (by decide +kernel)⟩

/-- One command of each kind that changes `SW`. -/
theorem witness_switching_flag :
    (∃ t, exBoot.Inv ∧ exec (.setCarrier 0 0xBFF0000000000000#64) exBoot = .next t ∧ t.sw ≠ exBoot.sw)
    ∧ (let s := { exBoot with sw := true, dds := { exBoot.dds with phase := 4 } }
      ∃ t, s.Inv ∧ exec (.processFrame false false false 0 0) s = .next t ∧ t.sw ≠ s.sw)
    ∧ (let s := { exBoot with sw := true }
      ∃ t, s.Inv ∧ exec .reset s = .next t ∧ t.sw ≠ s.sw) :=
  ⟨⟨_, exBoot_inv, eq_next_final exOn (by decide +kernel), by decide +kernel⟩,
    ⟨_, ⟨by decide +kernel, by decide +kernel, by decide +kernel⟩, eq_next_final exOn (by decide +kernel),
      by decide +kernel⟩,
    ⟨_, ⟨by decide +kernel, by decide +kernel, by decide +kernel⟩, eq_next_final exOn (by decide +kernel),
      by decide +kernel⟩⟩

/-- CONFIGURE at a new rate, with all four cutoffs set and no FIR, and with a FIR set up. -/
theorem witness_configure : exBoot.Inv ∧ exPass.Inv ∧ rateOk 0x4030000000000000#64 = true
    ∧ rateOk 0x40E7700000000000#64 = true
    ∧ (∀ st, exBoot.fcV.get st = true → 2 * fVal (exBoot.fc.get st) < fVal 0x4030000000000000#64)
    ∧ (∀ k, (exBoot.fir.get k).coefV = false) ∧ (∀ st, exPass.fcV.get st = false)
    ∧ (exPass.fir.get .lpf).coefV = true ∧ (exPass.fir.get .hpf).coefV = false
    ∧ 2 * fVal (exPass.fir.get .lpf).fc < fVal 0x40E7700000000000#64 := by
  refine ⟨exBoot_inv, exPass_inv, by decide +kernel, by decide +kernel, fun st _ => ?_, fun k => ?_, fun st => ?_,
    by decide +kernel, by decide +kernel, ?_⟩
  · refine ((twiceBelow_iff _ _).mp ?_).2.2
    cases st <;> decide +kernel
  · cases k <;> decide +kernel
  · cases st <;> decide +kernel
  · exact ((twiceBelow_iff _ _).mp (by decide +kernel)).2.2

theorem witness_set_carrier : exBoot.Inv ∧ carrierOk exBoot.cfg 0xC000000000000000#64 = true :=
  ⟨exBoot_inv, by decide +kernel⟩

theorem witness_set_cutoff : exBoot.Inv ∧ cutoffOk 0x4000000000000000#64 = true
    ∧ (exBoot.srV = true → 2 * fVal 0x4000000000000000#64 < fVal exBoot.sr) :=
  ⟨exBoot_inv, by decide +kernel, fun _ => ((twiceBelow_iff _ _).mp (by decide +kernel)).2.2⟩

/-- Both ends of the wet domain. -/
theorem witness_set_mix : exBoot.Inv ∧ wetOk 0#64 = true ∧ wetOk 0x3FF0000000000000#64 = true ∧ fVal 0#64 = 0
    ∧ fVal 0x3FF0000000000000#64 = 1 :=
  ⟨exBoot_inv, by decide +kernel, by decide +kernel, fVal_posZero, fVal_fOne⟩

theorem witness_frame : exBoot.Inv ∧ exBoot.srV = true ∧ exBoot.cfV = true ∧ (∀ st, exBoot.fcV.get st = true)
    ∧ exBoot.mixV = true ∧ exBoot.resetPending = false :=
  ⟨exBoot_inv, by decide +kernel, by decide +kernel, fun st => by cases st <;> decide +kernel, by decide +kernel,
    by decide +kernel⟩

/-- A frame of a channel with wet 0, and one with wet 1. -/
theorem witness_wet_and_dry :
    (let s := after [.setMix 0#64] exBoot
      let r := frameChannel [] s.cfg s.wet s.dryg (chanUnits s .left) 0x3FF0000000000000#64 false 0#64 0#64
      IsFrameChannel s (chanUnits s .left) r.1 0x3FF0000000000000#64 false 0#64 0#64 r.2
      ∧ fMag s.wet = 0 ∧ s.dryg = 0x3FF0000000000000#64 ∧ fFinite r.1.outLpf.y1 = true
      ∧ fIsNan (dlRead r.1.dry s.cfg.dDry) = false ∧ dlRead r.1.dry s.cfg.dDry ≠ 0x8000000000000000#64)
    ∧ (let s := after [.setMix 0x3FF0000000000000#64] exBoot
      let r := frameChannel [] s.cfg s.wet s.dryg (chanUnits s .left) 0x3FF0000000000000#64 true 0#64 0#64
      IsFrameChannel s (chanUnits s .left) r.1 0x3FF0000000000000#64 true 0#64 0#64 r.2
      ∧ s.wet = 0x3FF0000000000000#64 ∧ s.dryg = 0#64 ∧ fFinite (dlRead r.1.dry s.cfg.dDry) = true
      ∧ fIsNan r.1.outLpf.y1 = false ∧ r.1.outLpf.y1 ≠ 0x8000000000000000#64) :=
  ⟨⟨isFrameChannel_frameChannel [] _ _ _ _ _ _, by decide +kernel, by decide +kernel, by decide +kernel,
      by decide +kernel, by decide +kernel⟩,
    ⟨isFrameChannel_frameChannel [] _ _ _ _ _ _, by decide +kernel, by decide +kernel, by decide +kernel,
      by decide +kernel, by decide +kernel⟩⟩

/-- A block whose setup registers are those of its boot commands. -/
theorem witness_fresh_pipeline : exBoot.Inv ∧ exBoot.srV = true ∧ exBoot.cfV = true
    ∧ (∀ st, exBoot.fcV.get st = true) ∧ exBoot.mixV = true
    ∧ SameSetup exBoot (final (execAll (bootCommands exBoot) (State.powerOn exBoot.cfg)) exOn) := by
  have he : final (execAll (bootCommands exBoot) (State.powerOn exBoot.cfg)) exOn = exBoot := by decide +kernel
  refine ⟨exBoot_inv, by decide +kernel, by decide +kernel, fun st => by cases st <;> decide +kernel, by decide +kernel, ?_⟩
  rw [he]
  exact ⟨rfl, rfl, rfl, rfl, rfl, rfl, rfl, rfl, rfl, rfl, rfl, rfl, rfl, rfl, rfl, fun _ _ => rfl,
    fun _ => ⟨rfl, rfl, rfl, rfl, rfl⟩⟩

theorem witness_idempotent : (∃ t, exec (.configure 0x4030000000000000#64) exBoot = .next t)
    ∧ ∃ t, exec (.setCarrier 1 0xBFF0000000000000#64) exBoot = .next t :=
  ⟨⟨_, eq_next_final exOn (by decide +kernel)⟩, _, eq_next_final exOn (by decide +kernel)⟩

theorem witness_unit_command : 0x20 ≤ bitsOf ((encodeWords .uddsReset).headD 0) 7 0
    ∧ ∃ t, exec .uddsReset exBoot = .next t := ⟨by decide +kernel, _, rfl⟩

theorem witness_instances : Chan.right ≠ Chan.left ∧ FilterKind.hpf ≠ FilterKind.lpf
    ∧ (∃ t, exec (.udlReset .left) exOn = .next t) ∧ (∃ t, exec (.uhtReset .left) exOn = .next t)
    ∧ (∃ t, exec (.uiirReset .inHpf .left) exOn = .next t) ∧ (∃ t, exec (.ufirReset .lpf) exOn = .next t)
    ∧ ∃ t, exec .uddsReset exOn = .next t :=
  ⟨by decide, by decide, ⟨_, rfl⟩, ⟨_, rfl⟩, ⟨_, rfl⟩, ⟨_, rfl⟩, _, rfl⟩

/-- A first rate, a changed rate, and a command with the flag set. -/
theorem witness_rate_change : exOn.Inv ∧ exOn.srV = false ∧ (∃ t, exec (.configure 0x4030000000000000#64) exOn = .next t)
    ∧ exBoot.Inv ∧ (∃ t, exec (.configure 0x4030000000000000#64) exBoot = .next t)
    ∧ fVal 0x4030000000000000#64 ≠ fVal exBoot.sr
    ∧ (after [.configure 0x4030000000000000#64] exBoot).resetPending = true := by
  refine ⟨exOn_inv, by decide +kernel, ⟨_, eq_next_final exOn (by decide +kernel)⟩, exBoot_inv,
    ⟨_, eq_next_final exOn (by decide +kernel)⟩, ?_, by decide +kernel⟩
  rw [Ne, fVal_eq_iff]
  decide +kernel

theorem witness_live_retuning : exLive.Inv ∧ (∃ r, exLive.dds.src = some r ∧ fVal r = fVal exLive.sr)
    ∧ (∃ t, exec (.setCarrier 0 0x3FF0000000000000#64) exLive = .next t)
    ∧ ∃ t, exec (.setCutoff .inLpf 0x4000000000000000#64) exLive = .next t := by
  have h : exLive.dds.src = some exLive.sr := by decide +kernel
  exact ⟨exLive_inv, ⟨_, h, rfl⟩, ⟨_, eq_next_final exOn (by decide +kernel)⟩,
    _, eq_next_final exOn (by decide +kernel)⟩

/-- A setup of each kind on an invalid cache. -/
theorem witness_reseed : exBoot.Inv ∧ exBoot.dds.src = none ∧ exBoot.cfV = true ∧ exBoot.srV = true
    ∧ (∃ t, exec (.processFrame false false false 0 0) exBoot = .next t)
    ∧ (∃ t, exec (.configure 0x4020000000000000#64) exBoot = .next t)
    ∧ (∃ t, exec (.setCarrier 0 0x4000000000000000#64) exBoot = .next t)
    ∧ fVal 0x4000000000000000#64 ≠ fVal exBoot.cf
    ∧ ∃ t, exec (.uddsSetup 0x4020000000000000#64 0#64) exBoot = .next t := by
  refine ⟨exBoot_inv, by decide +kernel, by decide +kernel, by decide +kernel, ⟨_, eq_next_final exOn (by decide +kernel)⟩,
    ⟨_, eq_next_final exOn (by decide +kernel)⟩, ⟨_, eq_next_final exOn (by decide +kernel)⟩, ?_,
    _, eq_next_final exOn (by decide +kernel)⟩
  rw [Ne, fVal_eq_iff]
  decide +kernel

/-! ## Assembler text (R101, R102) -/

/-- The examples of R103. -/
theorem test_assembler_examples :
    (asmText "NOP\nCONFIGURE 8.0\nSET_CARRIER saw, -1.0\nSET_CUTOFF out_lpf, 2.0\nSET_MIX 0.5\nPROCESS_FRAME bypass|silR, 0.5, 0.0\nUDL_READ dry.R, 3\nUIIR_SETUP iir.out_lpf.R, 4.0, 1.0\nUMIX lower, 1.0, 0.5, 0.25, -2.0").map
        (fun is => is.map encodeWords)
      = some [[0x0000000000000000#64], [0x0000000000000001#64, 0x4020000000000000#64],
        [0x0000000000030002#64, 0xBFF0000000000000#64], [0x0000000000030003#64, 0x4000000000000000#64],
        [0x0000000000000004#64, 0x3FE0000000000000#64],
        [0x0000000000050005#64, 0x3FE0000000000000#64, 0x0000000000000000#64],
        [0x0000000000002121#64, 0x0000000000000003#64],
        [0x0000000000003738#64, 0x4010000000000000#64, 0x3FF0000000000000#64],
        [0x0000000000010048#64, 0x3FF0000000000000#64, 0x3FE0000000000000#64, 0x3FD0000000000000#64,
          0xC000000000000000#64]] := by decide +kernel

/-- A decimal is rounded once (`0.1`, `7.4999`); a raw pattern is kept; a bad operand is refused. -/
theorem test_assembler_numbers : asmF64 "0.1".toList = some 0x3FB999999999999A#64
    ∧ asmF64 "7.4999".toList = some 0x401DFFE5C91D14E4#64 ∧ asmF64 "1e-3".toList = some 0x3F50624DD2F1A9FC#64
    ∧ asmF64 "0x7FF0000000000001".toList = some 0x7FF0000000000001#64 ∧ asmF64 "0x7FF".toList = none
    ∧ asmWave "256".toList = none ∧ asmF64 "1e400".toList = some 0x7FF0000000000000#64
    ∧ asmF64 "0x7ff000000000000g".toList = none := by decide +kernel

/-- The boot sequence of program P1 (`95_test_vectors.md`). -/
theorem test_assembler_init :
    asmText "INIT 8.0, sine, 1.0, 0.25, 3.0, 0.25, 3.0, 0.5" = some [.configure 0x4020000000000000#64,
      .setCarrier 0 0x3FF0000000000000#64, .setCutoff .inHpf 0x3FD0000000000000#64,
      .setCutoff .inLpf 0x4008000000000000#64, .setCutoff .outHpf 0x3FD0000000000000#64,
      .setCutoff .outLpf 0x4008000000000000#64, .setMix 0x3FE0000000000000#64, .reset] := by decide +kernel

end Sys2Proof.Tests
end

section
/-! PROOFS. `round(v)` of `00_scope.md` R14: the model rounds the magnitude in units of `2^-1074` by one exact integer
division, which is the floor of the formula, and then gives it the sign. -/

namespace Sys2Proof.Machine

open Sys2Proof

/-- A pattern's value is negative exactly when its sign bit is set and it is not the zero `-0.0`. -/
theorem fVal_neg_iff (a : F64) : fVal a < 0 ↔ fNegBit a = true ∧ fUnits a ≠ 0 := by
  rw [← fVal_posZero, fVal_lt_iff, show fInt posZero = 0 by decide, fInt]
  cases fNegBit a <;> simp [Nat.pos_iff_ne_zero]

/-- The magnitude of a value is its units: the sign bit does not enter. -/
theorem abs_fVal (a : F64) : |fVal a| = (fUnits a : ℚ) / 2 ^ 1074 := by
  rw [fVal, abs_div, abs_of_pos (a := (2 : ℚ) ^ 1074) (by positivity), fInt]
  cases fNegBit a <;> simp

/-- The integer magnitude that `round` computes: units rounded to a multiple of `2^1074`, a half upwards. -/
def roundUnits (a : F64) : Nat := (fUnits a + 2 ^ 1073) / 2 ^ 1074

theorem fRound_eq (a : F64) : fRound a = if fNegBit a then -(roundUnits a : Int) else (roundUnits a : Int) := rfl

/-- The integer division computes the floor of R14's formula: a half is `2^1073` units. -/
theorem floor_abs_fVal_add_half (a : F64) : ⌊|fVal a| + 1 / 2⌋ = (roundUnits a : Int) := by
  have half : (1 / 2 : ℚ) = 2 ^ 1073 / 2 ^ 1074 := by
    rw [pow_succ (2 : ℚ) 1073, div_mul_cancel_left₀ (by positivity), one_div]
  calc ⌊|fVal a| + 1 / 2⌋ = ⌊((fUnits a + 2 ^ 1073 : Nat) : ℚ) / ((2 ^ 1074 : Nat) : ℚ)⌋ := by
        rw [abs_fVal, half, ← add_div, Nat.cast_add, Nat.cast_pow, Nat.cast_pow, Nat.cast_ofNat]
    _ = (roundUnits a : Int) := Rat.floor_natCast_div_natCast _ _

theorem roundUnits_of_fUnits_eq_zero {a : F64} (h : fUnits a = 0) : roundUnits a = 0 := by
  have hzero : |fVal a| = 0 := by rw [abs_fVal, h, Nat.cast_zero, zero_div]
  have hfloor : ⌊(0 : ℚ) + 1 / 2⌋ = 0 := by norm_num
  rw [← Int.natCast_eq_zero, ← floor_abs_fVal_add_half, hzero, hfloor]

/-- R14's formula, for every pattern's value. The two signs differ only at `-0.0`, where the integer is 0. -/
theorem fRound_eq_sign_mul_floor (a : F64) :
    fRound a = (if fVal a < 0 then -1 else 1) * ⌊|fVal a| + 1 / 2⌋ := by
  rw [floor_abs_fVal_add_half, fRound_eq]
  by_cases hneg : fNegBit a = true
  · by_cases hzero : fUnits a = 0
    · simp [roundUnits_of_fUnits_eq_zero hzero]
    · have hlt : fVal a < 0 := (fVal_neg_iff a).mpr ⟨hneg, hzero⟩
      simp [hneg, hlt]
  · have hnlt : ¬ fVal a < 0 := fun h => hneg ((fVal_neg_iff a).mp h).1
    simp [hneg, hnlt]

/-- Settles O19: R14's formula is an equation of the model, and the rule's four examples are evaluated. -/
theorem roundingToAnIntegerIsHalfAwayFromZero : Obligations.RoundingToAnIntegerIsHalfAwayFromZero :=
  ⟨fun a _ => fRound_eq_sign_mul_floor a, by decide +kernel, by decide +kernel, by decide +kernel, by decide +kernel⟩

end Sys2Proof.Machine
end

section
/-! PROOFS. No command writes the configuration (`10_state.md` R39): every command ends by answering a state, by refusing,
by a requirement that branches between such ends, or by setups of units, and each of these ends keeps it. -/

namespace Sys2Proof.Machine

open Sys2Proof

/-- An answer to a command run from `s` keeps the configuration: a next state, where there is one, holds that of `s`. -/
def KeepsCfg (s : State) (r : Result) : Prop := ∀ t, r = .next t → t.cfg = s.cfg

/-! ## The ways a command ends -/

theorem keepsCfg_next {s t : State} (h : t.cfg = s.cfg) : KeepsCfg s (.next t) := by
  rintro _ ⟨⟩
  exact h

theorem keepsCfg_refused {s : State} {e : Refusal} : KeepsCfg s (.refused e) := by
  rintro _ ⟨⟩

theorem keepsCfg_ite {s : State} {p : Prop} [Decidable p] {a b : Result} (ha : KeepsCfg s a) (hb : KeepsCfg s b) :
    KeepsCfg s (if p then a else b) := by
  split
  · exact ha
  · exact hb

/-- A command that sets up one unit and stores what the setup answers. -/
theorem keepsCfg_finish_setup {α : Type} {s : State} {op : Op} {setup : Except Refusal α} {store : α → State}
    (h : ∀ a, (store a).cfg = s.cfg) : KeepsCfg s (finish op (setup >>= fun a => pure (store a))) := by
  intro t ht
  obtain ⟨u, hu, rfl⟩ := finish_next.mp ht
  obtain ⟨a, -, ha⟩ := except_bind_ok.mp hu
  cases ha
  exact h a

/-! ## The core's commands (`45_pipeline.md` R262-R266) -/

theorem keepsCfg_execConfigure (fs : F64) (s : State) : KeepsCfg s (execConfigure fs s) := by
  intro t ht
  obtain ⟨-, u, hu, rfl⟩ := execConfigure_next ht
  obtain ⟨_, _, _, _, _, _, _, -, -, -, -, -, -, -, rfl⟩ := configureUnits_ok hu
  rfl

theorem keepsCfg_execSetCarrier (wave : BitVec 8) (f : F64) (s : State) : KeepsCfg s (execSetCarrier wave f s) :=
  keepsCfg_ite keepsCfg_refused <| keepsCfg_ite (keepsCfg_next rfl) <|
    keepsCfg_ite (keepsCfg_finish_setup fun _ => rfl) (keepsCfg_next rfl)

theorem keepsCfg_execSetCutoff (st : Stage) (hz : F64) (s : State) : KeepsCfg s (execSetCutoff st hz s) :=
  keepsCfg_ite keepsCfg_refused <| keepsCfg_ite keepsCfg_refused <| keepsCfg_ite (keepsCfg_next rfl) <|
    keepsCfg_ite (keepsCfg_finish_setup fun _ => rfl) (keepsCfg_next rfl)

theorem keepsCfg_execSetMix (wet : F64) (s : State) : KeepsCfg s (execSetMix wet s) :=
  keepsCfg_ite keepsCfg_refused <| keepsCfg_ite (keepsCfg_next rfl) (keepsCfg_next rfl)

@[simp] theorem runFrame_cfg (s : State) (aL aR : F64) : (runFrame s aL aR).1.cfg = s.cfg := rfl

theorem keepsCfg_execProcessFrame (bypass silL silR : Bool) (inL inR : F64) (s : State) :
    KeepsCfg s (execProcessFrame bypass silL silR inL inR s) := by
  intro t ht
  cases bypass with
  | true => exact keepsCfg_next (respondSilence_cfg ..) t ht
  | false =>
    obtain ⟨-, -, -, -, -, rfl⟩ := execProcessFrame_next ht
    simp

/-! ## Every command, every step -/

/-- No command writes the configuration (R39). The commands with requirements or setups have a lemma above or their
branches written out here; every other one answers a state that `s` gives with other fields replaced. -/
theorem exec_keepsCfg (i : Instr) (s : State) : KeepsCfg s (exec i s) := by
  cases i with
  | configure fs => exact keepsCfg_execConfigure fs s
  | setCarrier wave f => exact keepsCfg_execSetCarrier wave f s
  | setCutoff st hz => exact keepsCfg_execSetCutoff st hz s
  | setMix wet => exact keepsCfg_execSetMix wet s
  | processFrame bypass silL silR inL inR => exact keepsCfg_execProcessFrame bypass silL silR inL inR s
  | uddsSetup | uiirSetup | ufirSetup => exact keepsCfg_finish_setup fun _ => rfl
  | udlRead => exact keepsCfg_ite (keepsCfg_next rfl) (keepsCfg_next rfl)
  | uddsProcess | uiirProcess | ufirProcess => exact keepsCfg_ite keepsCfg_refused (keepsCfg_next rfl)
  | nop | reset | readState | udlEnqueue | udlReset | uddsReset | uddsRead | uhtProcess | uhtReset | uiirReset | ufirReset
  | umix => exact keepsCfg_next rfl

/-- A packet that decodes runs its command on the port advanced past it; a rejected packet only answers its status. -/
theorem step_keepsCfg (s : State) : KeepsCfg s (step s) := by
  unfold step
  split
  case h_1 => exact keepsCfg_next rfl
  case h_2 rest _ =>
    split
    case h_1 i _ => exact exec_keepsCfg i { s with cmds := rest }
    case h_2 => exact keepsCfg_next rfl

/-- Settles O10: a step is one command on the advanced port, and no command writes the configuration. -/
theorem tablesAreConstant : Obligations.TablesAreConstant := fun s => step_keepsCfg s

end Sys2Proof.Machine
end

section
/-! PROOFS. The carrier oscillator (`41_dds.md`): UDDS_RESET and UDDS_READ (R155, R156), whose result words hold the registers
because the invariant keeps each inside 64 bits, and the wavetable lookup (R146), whose mirror formulas follow from splitting
the phase into its quadrant and the offset in it. -/

namespace Sys2Proof.Machine

open Sys2Proof

/-! ## Facts of the layers below -/

/-- The sizes a wavetable may have (`00_scope.md` R7). -/
theorem valid_wtLen {c : Config} (h : c.valid = true) : 4 ≤ c.wtLen ∧ c.wtLen % 4 = 0 ∧ c.wtLen ≤ 2 ^ 52 := by
  simp only [Config.valid, Config.sizesOk, Bool.and_eq_true, decide_eq_true_eq] at h
  tauto

/-- An admitted period is four quadrants. -/
theorem valid_quadrants {c : Config} (h : c.valid = true) : c.wtLen = 4 * c.q4 ∧ c.half = 2 * c.q4 ∧ 0 < c.q4 := by
  obtain ⟨hmin, hmod, -⟩ := valid_wtLen h
  simp only [Config.q4, Config.half]
  omega

/-- Negation flips bit 63 (`00_scope.md` R11): the bits below are the magnitude, and bit 63 is its complement. -/
theorem fNeg_eq_xor (a : F64) : fNeg a = a ^^^ 0x8000000000000000#64 := by
  have hmag : fMag (a ^^^ 0x8000000000000000#64) = fMag a := by
    rw [fMag, BitVec.toNat_xor, Nat.xor_mod_two_pow]
    exact Nat.xor_zero _
  have hhigh : (a ^^^ 0x8000000000000000#64).toNat / 2 ^ 63 = a.toNat / 2 ^ 63 ^^^ 1 := by
    rw [BitVec.toNat_xor, Nat.xor_div_two_pow]
    rfl
  have hsign : fNegBit (a ^^^ 0x8000000000000000#64) = !fNegBit a := by
    by_cases hset : 2 ^ 63 ≤ a.toNat
    · rw [show a.toNat / 2 ^ 63 = 1 by omega, Nat.xor_self] at hhigh
      simp only [fNegBit, hset, decide_true, Bool.not_true, decide_eq_false_iff_not]
      omega
    · rw [show a.toNat / 2 ^ 63 = 0 by omega, Nat.zero_xor] at hhigh
      simp only [fNegBit, hset, decide_false, Bool.not_false, decide_eq_true_eq]
      omega
  rw [fNeg, ← hsign, ← hmag, fPack_fNegBit_fMag]

/-! ## The registers as result words (R156) -/

/-- What the invariant says of the DDS registers: the phase inside the period, and every other integer in the range of
`00_scope.md` R13. -/
theorem inv_dds_ranges {s : State} (h : s.Inv) :
    s.dds.phase < s.cfg.wtLen ∧ s.dds.step < 2 ^ 62 ∧ inRange s.dds.err = true ∧ inRange s.dds.incS = true
      ∧ inRange s.dds.incF = true := by
  have h := h.2.1
  simp only [ddsOk, Bool.and_eq_true, decide_eq_true_eq] at h
  tauto

/-- A signed result word holds an integer of R13's range. -/
theorem toInt_ofInt_of_inRange {x : Int} (h : inRange x = true) : (BitVec.ofInt 64 x).toInt = x := by
  simp only [inRange, Bool.and_eq_true, decide_eq_true_eq] at h
  exact BitVec.toInt_ofInt_eq_self (by decide) (by omega) (by omega)

/-- A signed result word holds a natural number below `2^62`. -/
theorem toInt_ofNat_of_lt {n : Nat} (h : n < 2 ^ 62) : (BitVec.ofNat 64 n).toInt = n := by
  rw [BitVec.toInt_eq_toNat_of_lt] <;> rw [BitVec.toNat_ofNat] <;> omega

/-- UDDS_RESET writes the phase, the error seed and the cache, and answers no result words. -/
theorem exec_uddsReset (s : State) :
    exec .uddsReset s = .next { s with
      dds := { s.dds with phase := 0, err := (s.dds.incS + s.dds.incF) / 2, src := none }
      resp := some ⟨0x2A00#64, []⟩ } := rfl

/-- UDDS_READ only answers the register words. -/
theorem exec_uddsRead (s : State) :
    exec .uddsRead s = .next { s with resp := some ⟨0x2B00#64, ddsWords s.dds⟩ } := rfl

/-- Settles O27: the two commands are their equations, and each result word holds its register because the invariant keeps the
phase below `WT_LEN ≤ 2^52` and the other integers inside `[-2^62, 2^62)`. -/
theorem oscillatorResetAndReadComplete : Obligations.OscillatorResetAndReadComplete := by
  intro s hs
  obtain ⟨hphase, hstep, herr, hincS, hincF⟩ := inv_dds_ranges hs
  obtain ⟨-, -, hlen⟩ := valid_wtLen (inv_cfg hs)
  refine ⟨exec_uddsReset s, _, _, _, _, _, _, _, exec_uddsRead s, ?_, toInt_ofNat_of_lt hstep, toInt_ofInt_of_inRange herr,
    toInt_ofInt_of_inRange hincS, toInt_ofInt_of_inRange hincF, ?_, ?_⟩
  case refine_1 => exact Nat.mod_eq_of_lt (by omega)
  case refine_2 =>
    intro hsrc
    rw [hsrc]
    exact ⟨rfl, rfl⟩
  case refine_3 =>
    intro q hsrc
    rw [hsrc]
    exact ⟨rfl, rfl⟩

/-! ## The wavetable lookup (R146) -/

/-- R146's rule for the quarter-wave tables, at offset `r` of quadrant `k`. -/
theorem lookup_quadrant (c : Config) {w : BitVec 8} (hw : w.toNat < 3) (k : Nat) {r : Nat} (hr : r < c.q4) :
    lookup c w (c.q4 * k + r) =
      if k = 0 then (c.romD w.toNat r, c.romH w.toNat r)
      else if k = 1 then (c.romD w.toNat (c.q4 - r), fNeg (c.romH w.toNat (c.q4 - r)))
      else if k = 2 then (fNeg (c.romD w.toNat r), fNeg (c.romH w.toNat r))
      else (fNeg (c.romD w.toNat (c.q4 - r)), c.romH w.toNat (c.q4 - r)) := by
  have hdiv : (c.q4 * k + r) / c.q4 = k := by
    rw [Nat.mul_add_div (by omega), Nat.div_eq_of_lt hr, Nat.add_zero]
  have hmod : (c.q4 * k + r) % c.q4 = r := by rw [Nat.mul_add_mod, Nat.mod_eq_of_lt hr]
  simp only [lookup, if_pos hw, hdiv, hmod]

/-- The same by phase interval: a sine, triangle or square is read forwards in the first and third quadrants and backwards in
the second and fourth, with the signs of R146. -/
theorem lookup_quarterWave {c : Config} (hc : c.valid = true) {w : BitVec 8} (hw : w.toNat < 3) {p : Nat}
    (hp : p < c.wtLen) :
    lookup c w p =
      if p < c.q4 then (c.romD w.toNat p, c.romH w.toNat p)
      else if p < 2 * c.q4 then (c.romD w.toNat (2 * c.q4 - p), fNeg (c.romH w.toNat (2 * c.q4 - p)))
      else if p < 3 * c.q4 then (fNeg (c.romD w.toNat (p - 2 * c.q4)), fNeg (c.romH w.toNat (p - 2 * c.q4)))
      else (fNeg (c.romD w.toNat (4 * c.q4 - p)), c.romH w.toNat (4 * c.q4 - p)) := by
  obtain ⟨hlen, -, -⟩ := valid_quadrants hc
  split_ifs with h1 h2 h3
  · have h := lookup_quadrant c hw 0 h1
    rwa [Nat.mul_zero, Nat.zero_add] at h
  · have h := lookup_quadrant c hw 1 (r := p - c.q4) (by omega)
    rwa [show c.q4 * 1 + (p - c.q4) = p by omega, show c.q4 - (p - c.q4) = 2 * c.q4 - p by omega] at h
  · have h := lookup_quadrant c hw 2 (r := p - 2 * c.q4) (by omega)
    rwa [show c.q4 * 2 + (p - 2 * c.q4) = p by omega] at h
  · have h := lookup_quadrant c hw 3 (r := p - 3 * c.q4) (by omega)
    rwa [show c.q4 * 3 + (p - 3 * c.q4) = p by omega, show c.q4 - (p - 3 * c.q4) = 4 * c.q4 - p by omega] at h

/-- R146's rule for the sawtooth: the stored half period forwards, then backwards with the direct sample negated. -/
theorem lookup_sawtooth {c : Config} (hc : c.valid = true) {w : BitVec 8} (hw : w.toNat = 3) (p : Nat) :
    lookup c w p =
      if p ≤ 2 * c.q4 then (c.romD w.toNat p, c.romH w.toNat p)
      else (fNeg (c.romD w.toNat (4 * c.q4 - p)), c.romH w.toNat (4 * c.q4 - p)) := by
  obtain ⟨hlen, hhalf, -⟩ := valid_quadrants hc
  simp [lookup, hw, hlen, hhalf]

/-- An unsupported waveform reads as a zero pair. -/
theorem lookup_unsupported (c : Config) {w : BitVec 8} (hw : 4 ≤ w.toNat) (p : Nat) : lookup c w p = (posZero, posZero) := by
  simp only [lookup, if_neg (show ¬ w.toNat < 3 by omega), if_neg (show ¬ w.toNat = 3 by omega)]

/-- Settles O28: one rule per waveform class, with negation as the flip of bit 63 and the period as four quadrants. -/
theorem lookupMirrorsTheStoredQuadrant : Obligations.LookupMirrorsTheStoredQuadrant := by
  intro c w p hc hp
  simp only [← fNeg_eq_xor]
  exact ⟨fun hw => lookup_quarterWave hc hw hp, fun hw => lookup_sawtooth hc hw p, fun hw => lookup_unsupported c hw p⟩

end Sys2Proof.Machine
end

section
/-! PROOFS. The resets of single units: UHT_RESET (`42_hilbert.md` R182), UIIR_RESET and UFIR_RESET (`43_filters.md` R203,
R209). Each is one equation for the next state; run again on that state, it stores what it finds there. -/

namespace Sys2Proof.Machine

open Sys2Proof

/-! ## Units at rest -/

/-- Clearing a line gives the line of its capacity that is at rest (`40_delay_line.md` R123). -/
theorem dlClear_eq_lineAtRest {cap : Nat} {u : DelayLine} (h : u.buf.length = cap) : dlClear u = lineAtRest cap := by
  rw [← h]
  rfl

@[simp] theorem lineAtRest_buf_length (cap : Nat) : (lineAtRest cap).buf.length = cap := List.length_replicate

@[simp] theorem iirAtRest_iirAtRest (u : Iir) : iirAtRest (iirAtRest u) = iirAtRest u := rfl

/-! ## The resets as equations -/

/-- UIIR_RESET puts the one biquad at rest (R203). -/
theorem exec_uiirReset (s : State) (st : Stage) (c : Chan) :
    exec (.uiirReset st c) s = .next { s with
      iir := s.iir.set st ((s.iir.get st).set c (iirAtRest ((s.iir.get st).get c))), resp := some ⟨0x3A00#64, []⟩ } := rfl

/-- UFIR_RESET puts the delay line of the one FIR at rest (R209). -/
theorem exec_ufirReset {s : State} {k : FilterKind} (h : (s.fir.get k).dl.buf.length = s.cfg.firLen) :
    exec (.ufirReset k) s = .next { s with
      fir := s.fir.set k { s.fir.get k with dl := lineAtRest s.cfg.firLen }, resp := some ⟨0x4200#64, []⟩ } := by
  rw [← dlClear_eq_lineAtRest h]
  rfl

/-- UHT_RESET puts the line of the one transformer at rest (R182). -/
theorem exec_uhtReset {s : State} {c : Chan} (h : (s.ht.get c).buf.length = s.cfg.htLen) :
    exec (.uhtReset c) s
      = .next { s with ht := s.ht.set c (lineAtRest s.cfg.htLen), resp := some ⟨0x3100#64, []⟩ } := by
  rw [← dlClear_eq_lineAtRest h]
  rfl

/-! ## A second reset -/

/-- Settles O37: the equations above, at `s` and again at the state they give. The invariant fixes the size of a line, and
a line at rest has that size too. -/
theorem unitResetsZeroTheState : Obligations.UnitResetsZeroTheState := by
  intro s st c k hs
  obtain ⟨hfir, -⟩ := lineOk_iff.mp (inv_fir_dl hs k)
  obtain ⟨hht, -⟩ := lineOk_iff.mp (inv_ht hs c)
  refine ⟨⟨_, exec_uiirReset s st c, ?biquadAgain, rfl⟩, ⟨_, exec_ufirReset hfir, ?firAgain, rfl⟩,
    ⟨_, exec_uhtReset hht, ?hilbertAgain, rfl⟩⟩
  case biquadAgain =>
    rw [exec_uiirReset]
    simp only [Staged.get_set_same, Staged.set_set, Stereo.get_set_same, Stereo.set_set, iirAtRest_iirAtRest]
  case firAgain =>
    rw [exec_ufirReset (by simp only [PerKind.get_set_same, lineAtRest_buf_length])]
    simp only [PerKind.get_set_same, PerKind.set_set]
  case hilbertAgain =>
    rw [exec_uhtReset (by simp only [Stereo.get_set_same, lineAtRest_buf_length])]
    simp only [Stereo.set_set]

end Sys2Proof.Machine
end

section
/-! PROOFS. The mixer (`44_mixer.md`): UMIX is one application of the mixing law (R240, R246), and SET_CARRIER (R263) is one
equation on its domain, once its comparisons are those of exact values, its flip test (R242) compares sign classes, and the
DDS setup it runs is known to succeed. -/

namespace Sys2Proof.Machine

open Sys2Proof

/-! ## UMIX (R240, R246) -/

/-- UMIX answers the mixing law of its operands. -/
theorem exec_umix (s : State) (lower : Bool) (z zH x xH : F64) :
    exec (.umix lower z zH x xH) s = .next { s with
      nanCount := s.nanCount + 1, resp := some ⟨0x4800#64, [mix (nanTag s) lower z zH x xH]⟩ } := rfl

/-- Settles O41: UMIX is its equation, and the model's `mix` is the law of R240 for each sideband. -/
theorem mixCommandFollowsTheMixingLaw : Obligations.MixCommandFollowsTheMixingLaw := by
  intro s lower z zH x xH
  obtain ⟨p, q, hp, hq, hm⟩ := isMix_mix (nanTag s) lower z zH x xH
  refine ⟨p, q, _, hp, hq, ?lowerSideband, ?upperSideband, exec_umix s lower z zH x xH⟩
  case lowerSideband =>
    rintro rfl
    exact hm
  case upperSideband =>
    rintro rfl
    exact hm

/-! ## The comparisons of SET_CARRIER (R242, R263) -/

/-- Equality of finite patterns is equality of their values. -/
theorem fEq_eq_decide {a b : F64} (ha : fFinite a = true) (hb : fFinite b = true) :
    fEq a b = decide (fVal a = fVal b) := by
  rw [Bool.eq_iff_iff, fEq_iff ha hb, decide_eq_true_iff]

/-- The sign class of a finite carrier frequency is that of its value; the value of `-0.0` is not negative. -/
theorem carrierNeg_eq_decide {f : F64} (hf : fFinite f = true) : carrierNeg f = decide (fVal f < 0) := by
  rw [Bool.eq_iff_iff, carrierNeg, fLt_iff hf (by decide), fVal_posZero, decide_eq_true_iff]

theorem inv_carrier_finite {s : State} (hs : s.Inv) (hc : s.cfV = true) : fFinite s.cf = true :=
  fFinite_of_carrierOk (inv_carrier hs hc)

/-- The test for an unchanged frequency, where there is a previous one. -/
theorem carrierUnchanged_eq {s : State} (hs : s.Inv) {f : F64} (hf : fFinite f = true) :
    (s.cfV && fEq f s.cf) = (s.cfV && decide (fVal f = fVal s.cf)) := by
  cases hc : s.cfV with
  | false => rfl
  | true => rw [fEq_eq_decide hf (inv_carrier_finite hs hc)]

/-- The flip test toggles `SW` exactly where a previous frequency has the other sign class. -/
theorem swAfterCarrier_eq {s : State} (hs : s.Inv) {f : F64} (hf : fFinite f = true) :
    swAfterCarrier s.sw s.cfV s.cf f
      = (s.sw ^^ (s.cfV && (decide (fVal s.cf < 0) != decide (fVal f < 0)))) := by
  cases hc : s.cfV with
  | false => simp [swAfterCarrier]
  | true =>
    rw [← carrierNeg_eq_decide (inv_carrier_finite hs hc), ← carrierNeg_eq_decide hf, swAfterCarrier]
    cases carrierNeg s.cf != carrierNeg f <;> simp

/-! ## SET_CARRIER as an equation (R263) -/

/-- The DDS setup that SET_CARRIER runs cannot fail: a rate that is set is one of its domain, and a carrier frequency of the
domain has its magnitude in the domain of the DDS. -/
theorem ddsSetup_carrier {s : State} (hs : s.Inv) (hr : s.srV = true) {f : F64} (hf : carrierOk s.cfg f = true) :
    ddsSetup s.cfg s.dds s.sr (fAbs f) = .ok (ddsLoad s.cfg s.dds s.sr (fAbs f)) :=
  ddsSetup_ok.mpr ⟨inv_rate hs hr, ddsFreqOk_fAbs hf, rfl⟩

/-- SET_CARRIER on its domain: nothing for an unchanged frequency and waveform; otherwise the carrier registers, and the DDS
where the frequency changed and a rate is set. -/
theorem exec_setCarrier {s : State} (hs : s.Inv) (w : BitVec 8) {f : F64} (hf : carrierOk s.cfg f = true) :
    exec (.setCarrier w f) s = .next (respond
      (if s.cfV && fEq f s.cf && w == s.wf then s
      else { carrierRegs s w f with
        dds := if !(s.cfV && fEq f s.cf) && s.srV then ddsLoad s.cfg s.dds s.sr (fAbs f) else s.dds })
      .setCarrier []) := by
  change execSetCarrier w f s = _
  rw [execSetCarrier, hf, Bool.not_and, if_neg (by decide)]
  by_cases hsame : (s.cfV && fEq f s.cf && w == s.wf) = true
  · rw [if_pos hsame, if_pos hsame]
  · rw [if_neg hsame, if_neg hsame]
    by_cases hload : ((!s.cfV || !fEq f s.cf) && s.srV) = true
    · have hr : s.srV = true := (Bool.and_eq_true_iff.mp hload).2
      rw [if_pos hload, if_pos hload, ddsSetup_carrier hs hr hf]
      rfl
    · rw [if_neg hload, if_neg hload]
      rfl

/-- Settles O46: SET_CARRIER's equation, with its two tests read as comparisons of exact values and the magnitude as the
pattern with bit 63 cleared. -/
theorem setCarrierUpdatesTheCarrier : Obligations.SetCarrierUpdatesTheCarrier := by
  intro s w f hs hf same
  have hfinite := fFinite_of_carrierOk hf
  have hsame : (s.cfV && fEq f s.cf) = same := carrierUnchanged_eq hs hfinite
  rw [exec_setCarrier hs w hf, hsame, fAbs_eq_and, ← swAfterCarrier_eq hs hfinite]
  by_cases hnop : (same && w == s.wf) = true
  · rw [if_pos hnop, if_pos hnop]
    rfl
  · rw [if_neg hnop, if_neg hnop]
    rfl

end Sys2Proof.Machine
end

section
/-! PROOFS. Non-OK statuses (`60_exceptions.md` R303): a command that completes either answers OK, or is UDL_READ out of its
range, which like a packet the decoder rejects answers a status and writes nothing else. -/

namespace Sys2Proof.Machine

open Sys2Proof

/-! ## The status field (`30_encoding.md` R92) -/

theorem statusCode_lt (st : Status) : statusCode st < 2 ^ 8 := by
  cases st <;> decide

/-- The echo and the silence bits stand above the code, so bits 7:0 read it back. -/
theorem bitsOf_statusWord (st : Status) (echo : Byte) (silL silR : Bool) :
    bitsOf (statusWord st echo silL silR) 7 0 = statusCode st := by
  have hcode := statusCode_lt st
  simp only [bitsOf, statusWord, BitVec.toNat_ofNat]
  omega

/-! ## The ways a completed command answers -/

/-- The state holds a response whose status is OK. -/
def AnsweredOk (t : State) : Prop := ∃ r, t.resp = some r ∧ bitsOf r.status 7 0 = 0

theorem answeredOk_respond (s : State) (op : Op) (qs : List Word) : AnsweredOk (respond s op qs) :=
  ⟨_, respond_resp s op qs, bitsOf_statusWord ..⟩

theorem answeredOk_respondSilence (s : State) (op : Op) (silL silR : Bool) (qs : List Word) :
    AnsweredOk (respondSilence s op silL silR qs) :=
  ⟨_, respondSilence_resp s op silL silR qs, bitsOf_statusWord ..⟩

/-- An answer to a command run from `s` is OK, or is a status and leaves `s` as it was. -/
def OkOrStatusOnly (s : State) (r : Result) : Prop :=
  ∀ t, r = .next t → AnsweredOk t ∨ ∃ st echo, t = respondStatus s st echo

theorem okOrStatusOnly_next_of_answeredOk {s t : State} (h : AnsweredOk t) : OkOrStatusOnly s (.next t) := by
  rintro _ ⟨⟩
  exact .inl h

theorem okOrStatusOnly_next_respond {s t : State} {op : Op} {qs : List Word} :
    OkOrStatusOnly s (.next (respond t op qs)) :=
  okOrStatusOnly_next_of_answeredOk (answeredOk_respond t op qs)

theorem okOrStatusOnly_next_respondStatus {s : State} {st : Status} {echo : Byte} :
    OkOrStatusOnly s (.next (respondStatus s st echo)) := by
  rintro _ ⟨⟩
  exact .inr ⟨st, echo, rfl⟩

theorem okOrStatusOnly_refused {s : State} {e : Refusal} : OkOrStatusOnly s (.refused e) := by
  rintro _ ⟨⟩

theorem okOrStatusOnly_ite {s : State} {p : Prop} [Decidable p] {a b : Result} (ha : OkOrStatusOnly s a)
    (hb : OkOrStatusOnly s b) : OkOrStatusOnly s (if p then a else b) := by
  split
  · exact ha
  · exact hb

/-- A command that ends with its setups' answer completes only with OK. -/
theorem okOrStatusOnly_finish {s : State} {op : Op} {setups : Except Refusal State} :
    OkOrStatusOnly s (finish op setups) := by
  intro t ht
  obtain ⟨u, -, rfl⟩ := finish_next.mp ht
  exact .inl (answeredOk_respond u op [])

/-! ## The core's commands (`45_pipeline.md` R263-R266) -/

theorem okOrStatusOnly_execSetCarrier (wave : BitVec 8) (f : F64) (s : State) :
    OkOrStatusOnly s (execSetCarrier wave f s) :=
  okOrStatusOnly_ite okOrStatusOnly_refused <| okOrStatusOnly_ite okOrStatusOnly_next_respond <|
    okOrStatusOnly_ite okOrStatusOnly_finish okOrStatusOnly_next_respond

theorem okOrStatusOnly_execSetCutoff (st : Stage) (hz : F64) (s : State) : OkOrStatusOnly s (execSetCutoff st hz s) :=
  okOrStatusOnly_ite okOrStatusOnly_refused <| okOrStatusOnly_ite okOrStatusOnly_refused <|
    okOrStatusOnly_ite okOrStatusOnly_next_respond <| okOrStatusOnly_ite okOrStatusOnly_finish okOrStatusOnly_next_respond

theorem okOrStatusOnly_execSetMix (wet : F64) (s : State) : OkOrStatusOnly s (execSetMix wet s) :=
  okOrStatusOnly_ite okOrStatusOnly_refused <|
    okOrStatusOnly_ite okOrStatusOnly_next_respond okOrStatusOnly_next_respond

theorem okOrStatusOnly_execProcessFrame (bypass silL silR : Bool) (inL inR : F64) (s : State) :
    OkOrStatusOnly s (execProcessFrame bypass silL silR inL inR s) := by
  intro t ht
  cases bypass with
  | true => exact okOrStatusOnly_next_of_answeredOk (answeredOk_respondSilence ..) t ht
  | false =>
    obtain ⟨-, -, -, -, -, rfl⟩ := execProcessFrame_next ht
    exact .inl (answeredOk_respondSilence ..)

/-! ## Every command, every step -/

/-- UDL_READ is the one command with a status of its own (R97, check 7); it answers that one on the state unchanged. -/
theorem exec_okOrStatusOnly (i : Instr) (s : State) : OkOrStatusOnly s (exec i s) := by
  cases i with
  | udlRead => exact okOrStatusOnly_ite okOrStatusOnly_next_respondStatus okOrStatusOnly_next_respond
  | setCarrier wave f => exact okOrStatusOnly_execSetCarrier wave f s
  | setCutoff st hz => exact okOrStatusOnly_execSetCutoff st hz s
  | setMix wet => exact okOrStatusOnly_execSetMix wet s
  | processFrame bypass silL silR inL inR => exact okOrStatusOnly_execProcessFrame bypass silL silR inL inR s
  | configure | uddsSetup | uiirSetup | ufirSetup => exact okOrStatusOnly_finish
  | uddsProcess | uiirProcess | ufirProcess => exact okOrStatusOnly_ite okOrStatusOnly_refused okOrStatusOnly_next_respond
  | nop | reset | readState | udlEnqueue | udlReset | uddsReset | uddsRead | uhtProcess | uhtReset | uiirReset | ufirReset
  | umix => exact okOrStatusOnly_next_respond

/-- A packet leaves the port whether its command runs or the decoder rejects it. -/
theorem step_okOrStatusOnly {s : State} {p : Packet} {rest : List Packet} (h : s.cmds = p :: rest) :
    OkOrStatusOnly { s with cmds := rest } (step s) := by
  simp only [step, h]
  split
  case h_1 i _ => exact exec_okOrStatusOnly i { s with cmds := rest }
  case h_2 => exact okOrStatusOnly_next_respondStatus

/-- Settles O8: a step that answers another status than OK only advances the port and leaves that status as its response. -/
theorem nonOkStatusHasNoEffect : Obligations.NonOkStatusHasNoEffect := by
  intro s t p rest r hcmds hstep hresp hstatus
  rcases step_okOrStatusOnly hcmds t hstep with ⟨r', hr', hok⟩ | ⟨st, echo, rfl⟩
  · obtain rfl : r' = r := Option.some.inj (hr'.symm.trans hresp)
    exact absurd hok hstatus
  · obtain rfl : ⟨statusWord st echo false false, []⟩ = r := Option.some.inj hresp
    exact ⟨rfl, rfl⟩

end Sys2Proof.Machine
end

section
/-! PROOFS. Encoding (`30_encoding.md`): the two round trips between commands and packets (R91, R94-R100), and the decoder
against the opcode table, whose rows are compared with the decoder's own tables field by field (R96, R97). -/

namespace Sys2Proof

/-! ## What the unit ids and immediates of the encoder read back as (R94, R95) -/

@[simp] theorem chanOfUnit_dryUnit (c : Chan) : chanOfUnit (dryUnit c) = c := by cases c <;> decide

@[simp] theorem chanOfUnit_htUnit (c : Chan) : chanOfUnit (htUnit c) = c := by cases c <;> decide

@[simp] theorem chanOfUnit_iirUnit (st : Stage) (c : Chan) : chanOfUnit (iirUnit st c) = c := by
  cases st <;> cases c <;> decide

@[simp] theorem stageOfUnit_iirUnit (st : Stage) (c : Chan) : stageOfUnit (iirUnit st c) = st := by
  cases st <;> cases c <;> decide

@[simp] theorem kindOfUnit_firUnit (k : FilterKind) : kindOfUnit (firUnit k) = k := by cases k <;> decide

@[simp] theorem stageOfImm_ofNat_stageNum (st : Stage) : stageOfImm (BitVec.ofNat 8 (stageNum st)) = st := by
  cases st <;> decide

/-! ## Decoding what was encoded (R91, R94-R96, R100) -/

/-- A command's packet is a header and a payload that pass the checks and assemble to the command. -/
structure EncodesAs (i : Instr) (op : Op) (unit imm : Byte) (ps : List Word) : Prop where
  words : encodeWords i = opHeader op unit imm :: ps
  unitLegal : unit ∈ legalUnits op
  immLegal : imm &&& reservedImm op = 0
  count : ps.length = payloadCount op
  assembles : assemble op unit imm ps = i

/-- Every command has such a header and payload. -/
theorem exists_encodesAs (i : Instr) : ∃ op unit imm ps, EncodesAs i op unit imm ps := by
  cases i with
  | nop | reset | readState | uddsReset | uddsRead | configure | setMix | uddsSetup =>
    exact ⟨_, _, _, _, rfl, by decide, by decide, rfl, rfl⟩
  | setCarrier | uddsProcess => exact ⟨_, _, _, _, rfl, by decide, BitVec.and_zero, rfl, rfl⟩
  | setCutoff st => exact ⟨_, _, _, _, rfl, by decide, by cases st <;> decide, rfl, by simp [assemble]⟩
  | processFrame b l r =>
    exact ⟨_, _, _, _, rfl, by decide, by cases b <;> cases l <;> cases r <;> decide, rfl,
      by cases b <;> cases l <;> cases r <;> rfl⟩
  | udlEnqueue c | udlRead c | udlReset c =>
    exact ⟨_, _, _, _, rfl, by cases c <;> decide, by decide, rfl, by simp [assemble]⟩
  | uhtProcess c | uhtReset c => exact ⟨_, _, _, _, rfl, by cases c <;> decide, by decide, rfl, by simp [assemble]⟩
  | uiirSetup st c | uiirProcess st c | uiirReset st c =>
    exact ⟨_, _, _, _, rfl, by cases st <;> cases c <;> decide, by decide, rfl, by simp [assemble]⟩
  | ufirSetup k | ufirProcess k | ufirReset k =>
    exact ⟨_, _, _, _, rfl, by cases k <;> decide, by decide, rfl, by simp [assemble]⟩
  | umix lower => exact ⟨_, _, _, _, rfl, by decide, by cases lower <;> decide, rfl, by cases lower <;> rfl⟩

@[simp] theorem immField_opHeader (op : Op) (unit imm : Byte) : immField (opHeader op unit imm) = imm :=
  immField_headerWord _ _ _

/-- Settles O1: the header and the payload of a command pass the decoder's checks and assemble to the command. -/
theorem decodingAnEncodedCommandGivesItBack : Obligations.DecodingAnEncodedCommandGivesItBack := by
  intro i
  obtain ⟨op, unit, imm, ps, h⟩ := exists_encodesAs i
  rw [encode, h.words, decode_bytesOf,
    decodeWords_opHeader op unit imm ps h.unitLegal (by rw [immField_opHeader, h.immLegal]) h.count, h.assembles]

/-! ## Encoding what was decoded (R94-R98) -/

theorem dryUnit_chanOfUnit {u : Byte} (h : u ∈ legalUnits .udlReset) : dryUnit (chanOfUnit u) = u := by
  revert u; decide

theorem htUnit_chanOfUnit {u : Byte} (h : u ∈ legalUnits .uhtReset) : htUnit (chanOfUnit u) = u := by
  revert u; decide

theorem iirUnit_ofUnit {u : Byte} (h : u ∈ legalUnits .uiirReset) : iirUnit (stageOfUnit u) (chanOfUnit u) = u := by
  revert u; decide

theorem firUnit_kindOfUnit {u : Byte} (h : u ∈ legalUnits .ufirReset) : firUnit (kindOfUnit u) = u := by
  revert u; decide

/-- Immediates without reserved bits hold nothing but what they mean (R95). -/
theorem stageNum_stageOfImm {imm : Byte} (h : imm &&& reservedImm .setCutoff = 0) :
    BitVec.ofNat 8 (stageNum (stageOfImm imm)) = imm := by
  revert imm; decide +kernel

theorem frameImm_getLsbD {imm : Byte} (h : imm &&& reservedImm .processFrame = 0) :
    frameImm (imm.getLsbD 0) (imm.getLsbD 1) (imm.getLsbD 2) = imm := by
  revert imm; decide +kernel

theorem lowerImm_getLsbD {imm : Byte} (h : imm &&& reservedImm .umix = 0) :
    BitVec.ofNat 8 (imm.getLsbD 0).toNat = imm := by
  revert imm; decide +kernel

theorem imm_eq_zero {imm : Byte} (h : imm &&& 0xFF = 0) : imm = 0 := by
  revert imm; decide +kernel

theorem unit_eq_zero {u : Byte} (h : u ∈ [(0x00 : Byte)]) : u = 0 := List.mem_singleton.mp h

theorem eq_getD_zero {ps : List Word} (h : ps.length = 1) : [ps.getD 0 0] = ps := by
  obtain ⟨a, rfl⟩ := List.length_eq_one_iff.mp h
  rfl

theorem eq_getD_two {ps : List Word} (h : ps.length = 2) : [ps.getD 0 0, ps.getD 1 0] = ps := by
  obtain ⟨a, b, rfl⟩ := List.length_eq_two.mp h
  rfl

theorem eq_getD_four {ps : List Word} (h : ps.length = 4) :
    [ps.getD 0 0, ps.getD 1 0, ps.getD 2 0, ps.getD 3 0] = ps := by
  match ps, h with
  | [a, b, c, d], _ => rfl

/-- A header and payload that pass the checks are the words of the command they assemble to. -/
theorem encodeWords_assemble (op : Op) {unit imm : Byte} {ps : List Word} (hu : unit ∈ legalUnits op)
    (hi : imm &&& reservedImm op = 0) (hp : ps.length = payloadCount op) :
    encodeWords (assemble op unit imm ps) = opHeader op unit imm :: ps := by
  cases op with
  | nop | reset | readState | uddsReset | uddsRead =>
    rw [unit_eq_zero hu, imm_eq_zero hi, List.eq_nil_of_length_eq_zero hp]; rfl
  | configure | setMix => rw [unit_eq_zero hu, imm_eq_zero hi, ← eq_getD_zero hp]; rfl
  | uddsSetup => rw [unit_eq_zero hu, imm_eq_zero hi, ← eq_getD_two hp]; rfl
  | setCarrier => rw [unit_eq_zero hu, ← eq_getD_zero hp]; rfl
  | uddsProcess => rw [unit_eq_zero hu, List.eq_nil_of_length_eq_zero hp]; rfl
  | setCutoff =>
    rw [unit_eq_zero hu, assemble, encodeWords, stageNum_stageOfImm hi, eq_getD_zero hp]
  | processFrame =>
    rw [unit_eq_zero hu, assemble, encodeWords, frameImm_getLsbD hi, eq_getD_two hp]
  | umix =>
    rw [unit_eq_zero hu, assemble, encodeWords, lowerImm_getLsbD hi, eq_getD_four hp]
  | udlEnqueue | udlRead =>
    rw [imm_eq_zero hi, assemble, encodeWords, dryUnit_chanOfUnit hu, eq_getD_zero hp]
  | udlReset =>
    rw [imm_eq_zero hi, List.eq_nil_of_length_eq_zero hp, assemble, encodeWords, dryUnit_chanOfUnit hu]
  | uhtProcess => rw [imm_eq_zero hi, assemble, encodeWords, htUnit_chanOfUnit hu, eq_getD_zero hp]
  | uhtReset =>
    rw [imm_eq_zero hi, List.eq_nil_of_length_eq_zero hp, assemble, encodeWords, htUnit_chanOfUnit hu]
  | uiirSetup => rw [imm_eq_zero hi, assemble, encodeWords, iirUnit_ofUnit hu, eq_getD_two hp]
  | uiirProcess => rw [imm_eq_zero hi, assemble, encodeWords, iirUnit_ofUnit hu, eq_getD_zero hp]
  | uiirReset =>
    rw [imm_eq_zero hi, List.eq_nil_of_length_eq_zero hp, assemble, encodeWords, iirUnit_ofUnit hu]
  | ufirSetup => rw [imm_eq_zero hi, assemble, encodeWords, firUnit_kindOfUnit hu, eq_getD_two hp]
  | ufirProcess => rw [imm_eq_zero hi, assemble, encodeWords, firUnit_kindOfUnit hu, eq_getD_zero hp]
  | ufirReset =>
    rw [imm_eq_zero hi, List.eq_nil_of_length_eq_zero hp, assemble, encodeWords, firUnit_kindOfUnit hu]

/-- A packet that decodes is framed, and its words decode (R97, check 1). -/
theorem decode_ok {p : Packet} {i : Instr} (h : decode p = .ok i) :
    ∃ hd ps, p = bytesOf (hd :: ps) ∧ decodeWords hd ps = .ok i := by
  unfold decode at h
  split at h
  · cases h
  next hframe =>
  have hwhole : bytesOf (wordsOf p) = p := bytesOf_wordsOf p (by omega)
  split at h
  · cases h
  next hd ps hw => exact ⟨hd, ps, by rw [← hw, hwhole], h⟩

/-- Settles O2: the words of the packet pass every check, and such words are the encoding of what they assemble to. -/
theorem everyLegalPacketIsAnEncoding : Obligations.EveryLegalPacketIsAnEncoding := by
  intro p i h
  obtain ⟨hd, ps, rfl, hdec⟩ := decode_ok h
  obtain ⟨op, -, rfl, hu, hi, hp, hhd⟩ := decodeWords_ok hdec
  rw [encode, encodeWords_assemble op hu hi hp, ← hhd]

end Sys2Proof
end

section
/-! PROOFS. The decoder against the opcode table (`30_encoding.md` R96, R97) and the answers of rejected packets
(R92, `60_exceptions.md` R301): each row of the table is compared with the decoder's own tables field by field. -/

namespace Sys2Proof

open Sys2Proof.Machine

/-! ## Header fields as bits (R91) -/

theorem toNat_opcField (h : Word) : (opcField h).toNat = bitsOf h 7 0 := by
  simp [opcField, bitsOf]

theorem toNat_unitField (h : Word) : (unitField h).toNat = bitsOf h 15 8 := BitVec.toNat_ofNat ..

theorem toNat_immField (h : Word) : (immField h).toNat = bitsOf h 23 16 := BitVec.toNat_ofNat ..

theorem rsvField_eq_bitsOf (h : Word) : rsvField h = bitsOf h 63 24 := by
  have := h.isLt
  simp only [rsvField, bitsOf]
  omega

theorem unitField_eq_extract (h : Word) : unitField h = h.extractLsb' 8 8 := by
  rw [unitField, BitVec.extractLsb', Nat.shiftRight_eq_div_pow]

theorem immField_eq_extract (h : Word) : immField h = h.extractLsb' 16 8 := by
  rw [immField, BitVec.extractLsb', Nat.shiftRight_eq_div_pow]

theorem opcField_eq_extract (h : Word) : opcField h = h.extractLsb' 0 8 := rfl

@[simp] theorem opcField_and (h m : Word) : opcField (h &&& m) = opcField h &&& opcField m := by
  simp only [opcField_eq_extract, BitVec.extractLsb'_and]

@[simp] theorem unitField_and (h m : Word) : unitField (h &&& m) = unitField h &&& unitField m := by
  simp only [unitField_eq_extract, BitVec.extractLsb'_and]

@[simp] theorem immField_and (h m : Word) : immField (h &&& m) = immField h &&& immField m := by
  simp only [immField_eq_extract, BitVec.extractLsb'_and]

/-- A mask whose reserved field is all ones keeps that field. -/
theorem rsvField_and (h : Word) {m : Word} (hm : rsvField m = 2 ^ 40 - 1) : rsvField (h &&& m) = rsvField h := by
  have := h.isLt
  rw [rsvField] at hm
  rw [rsvField, BitVec.toNat_and, Nat.and_div_two_pow, hm, Nat.and_two_pow_sub_one_eq_mod, rsvField]
  omega

/-- A word is its four fields. -/
theorem word_eq_iff_fields (a b : Word) :
    a = b ↔ opcField a = opcField b ∧ unitField a = unitField b ∧ immField a = immField b ∧ rsvField a = rsvField b := by
  refine ⟨fun h => by simp [h], ?_⟩
  rintro ⟨hopc, hunit, himm, hrsv⟩
  have hopc := congrArg BitVec.toNat hopc
  have hunit := congrArg BitVec.toNat hunit
  have himm := congrArg BitVec.toNat himm
  simp only [opcField, unitField, immField, BitVec.toNat_ofNat, rsvField] at hopc hunit himm hrsv
  exact BitVec.eq_of_toNat_eq (by omega)

/-! ## The rows of the opcode table (R96) -/

/-- A row of the opcode table says of the header and of the payload what the decoder's own tables say of its command. -/
structure RowAgrees (r : TableRow) : Prop where
  opc : opcField r.pattern = opCode r.op
  opcMask : opcField r.mask = 0xFF
  rsv : rsvField r.pattern = 0
  rsvMask : rsvField r.mask = 2 ^ 40 - 1
  unit : ∀ u : Byte, u &&& unitField r.mask = unitField r.pattern ↔ u ∈ legalUnits r.op
  imm : ∀ i : Byte, i &&& immField r.mask = immField r.pattern ↔ i &&& reservedImm r.op = 0
  payload : r.payload = payloadCount r.op

theorem rowAgrees {r : TableRow} (h : r ∈ opcodeTable) : RowAgrees r := by
  have hwords : ∀ r ∈ opcodeTable, opcField r.pattern = opCode r.op ∧ opcField r.mask = 0xFF ∧ rsvField r.pattern = 0
      ∧ rsvField r.mask = 2 ^ 40 - 1 ∧ r.payload = payloadCount r.op := by decide +kernel
  have hunits : ∀ r ∈ opcodeTable, ∀ u : Byte,
      u &&& unitField r.mask = unitField r.pattern ↔ u ∈ legalUnits r.op := by decide +kernel
  have himms : ∀ r ∈ opcodeTable, ∀ i : Byte,
      i &&& immField r.mask = immField r.pattern ↔ i &&& reservedImm r.op = 0 := by decide +kernel
  obtain ⟨hopc, hmask, hrsv, hrsvMask, hpayload⟩ := hwords r h
  exact ⟨hopc, hmask, hrsv, hrsvMask, hunits r h, himms r h, hpayload⟩

theorem exists_row (op : Op) : ∃ r ∈ opcodeTable, r.op = op := by cases op <;> decide

/-- The command of a header whose opcode is a row's. -/
theorem opOfCode_row {r : TableRow} (hr : r ∈ opcodeTable) {h : Word} (hopc : opcField r.pattern = opcField h) :
    opOfCode (opcField h) = some r.op := by
  rw [← hopc, (rowAgrees hr).opc, opOfCode_opCode]

/-- The checks of R97 on a header whose opcode is a row's, in the row's terms. -/
theorem decodeWords_row {r : TableRow} (hr : r ∈ opcodeTable) {h : Word} (ps : List Word)
    (hopc : opcField r.pattern = opcField h) :
    decodeWords h ps =
      if rsvField h ≠ 0 then .error ⟨.reservedBits, opcField h⟩
      else if unitField (h &&& r.mask) ≠ unitField r.pattern then .error ⟨.illegalUnit, opcField h⟩
      else if immField (h &&& r.mask) ≠ immField r.pattern then .error ⟨.reservedBits, opcField h⟩
      else if ps.length ≠ r.payload then .error ⟨.illegalLength, opcField h⟩
      else .ok (assemble r.op (unitField h) (immField h) ps) := by
  have hrow := rowAgrees hr
  simp only [decodeWords, opOfCode_row hr hopc, unitField_and, immField_and, ne_eq, hrow.unit, hrow.imm, hrow.payload]

/-- A row covers exactly the headers with its opcode whose reserved field is zero and whose unit and immediate match. -/
theorem covers_iff {r : TableRow} (hr : r ∈ opcodeTable) (h : Word) :
    r.covers h = true ↔ opcField r.pattern = opcField h ∧ unitField (h &&& r.mask) = unitField r.pattern
      ∧ immField (h &&& r.mask) = immField r.pattern ∧ rsvField h = 0 := by
  have hrow := rowAgrees hr
  have hmask : opcField h &&& 0xFF = opcField h := BitVec.and_allOnes
  rw [TableRow.covers, beq_iff_eq, word_eq_iff_fields, opcField_and, hrow.opcMask, hmask, rsvField_and h hrow.rsvMask,
    hrow.rsv, eq_comm (a := opcField h)]

/-- Settles O3: a command's row covers a header exactly where the decoder's checks on it pass. -/
theorem legalExactlyWhenTheOpcodeTableCoversIt : Obligations.LegalExactlyWhenTheOpcodeTableCoversIt := by
  intro h ps
  simp only [wellFormedWords, List.any_eq_true, Bool.and_eq_true, beq_iff_eq]
  constructor
  · rintro ⟨i, hdec⟩
    obtain ⟨op, hop, -, hunit, himm, hcount, hhd⟩ := decodeWords_ok hdec
    obtain ⟨r, hr, rfl⟩ := exists_row op
    have hrow := rowAgrees hr
    have hrsv : rsvField h = 0 := by rw [hhd]; exact rsvField_headerWord _ _ _
    refine ⟨r, hr, (covers_iff hr h).mpr ⟨?_, ?_, ?_, hrsv⟩, by rw [hcount, hrow.payload]⟩
    · rw [hrow.opc, opCode_of_opOfCode hop]
    · rw [unitField_and]; exact (hrow.unit _).mpr hunit
    · rw [immField_and]; exact (hrow.imm _).mpr himm
  · rintro ⟨r, hr, hcov, hcount⟩
    obtain ⟨hopc, hunit, himm, hrsv⟩ := (covers_iff hr h).mp hcov
    refine ⟨assemble r.op (unitField h) (immField h) ps, ?_⟩
    rw [decodeWords_row hr ps hopc]
    simp only [hrsv, hunit, himm, hcount, ne_eq, not_true_eq_false, if_false]

/-- A header whose opcode is no row's names no command. -/
theorem opOfCode_eq_none {h : Word} (hno : ∀ r ∈ opcodeTable, opcField r.pattern ≠ opcField h) :
    opOfCode (opcField h) = none := by
  cases hop : opOfCode (opcField h) with
  | none => rfl
  | some op =>
    obtain ⟨r, hr, rfl⟩ := exists_row op
    exact absurd ((rowAgrees hr).opc.trans (opCode_of_opOfCode hop)) (hno r hr)

/-- Settles O4: a header with no row names no command, and the checks of a header with a row are read in the row's terms. -/
theorem firstFailingCheckDecidesTheStatus : Obligations.FirstFailingCheckDecidesTheStatus := by
  simp only [Obligations.FirstFailingCheckDecidesTheStatus, ← toNat_opcField, ← toNat_unitField, ← toNat_immField,
    ← rsvField_eq_bitsOf, BitVec.toNat_inj, ne_eq]
  refine ⟨fun h ps hno => ?_, fun r hr h ps hopc => ?_⟩
  · simp only [decodeWords, opOfCode_eq_none hno]
    rfl
  · rw [decodeWords_row hr ps hopc]
    split_ifs
    exacts [⟨_, rfl⟩, rfl, rfl, rfl, rfl]

end Sys2Proof

namespace Sys2Proof.Machine

open Sys2Proof

/-! ## One step (`20_memory.md` R76) -/

/-- A packet that decodes runs its command on the port moved past it. -/
theorem step_of_decode_ok {s : State} {p : Packet} {rest : List Packet} {i : Instr} (hc : s.cmds = p :: rest)
    (hd : decode p = .ok i) : step s = exec i { s with cmds := rest } := by
  simp only [step, hc, hd]

/-- A packet the decoder rejects answers its status. -/
theorem step_of_decode_error {s : State} {p : Packet} {rest : List Packet} {e : DecodeError} (hc : s.cmds = p :: rest)
    (hd : decode p = .error e) : step s = .next (respondStatus { s with cmds := rest } e.status e.echo) := by
  simp only [step, hc, hd]

/-- With no packet waiting nothing happens. -/
theorem step_of_idle {s : State} (hc : s.cmds = []) : step s = .next s := by
  simp only [step, hc]

/-- Settles O6: a step is one command on the advanced port, and nothing where no packet waits. -/
theorem stepRunsTheDecodedCommand : Obligations.StepRunsTheDecodedCommand :=
  ⟨fun _ _ _ _ hc hd => step_of_decode_ok hc hd, fun _ hc => step_of_idle hc⟩

/-! ## Packets the decoder rejects (R97, `60_exceptions.md` R301) -/

/-- The statuses that come of decoding. -/
def decodeStatus (st : Status) : Bool :=
  st == .illegalOpcode || st == .reservedBits || st == .illegalUnit || st == .illegalLength

theorem decodeStatus_of_decodeWords {h : Word} {ps : List Word} {e : DecodeError} (hd : decodeWords h ps = .error e) :
    decodeStatus e.status = true := by
  unfold decodeWords at hd
  split at hd
  · cases hd; rfl
  · split_ifs at hd <;> (cases hd; rfl)

theorem decodeStatus_of_decode {p : Packet} {e : DecodeError} (hd : decode p = .error e) :
    decodeStatus e.status = true := by
  unfold decode at hd
  split_ifs at hd
  · cases hd; rfl
  · split at hd
    · cases hd; rfl
    · exact decodeStatus_of_decodeWords hd

/-- The codes of R301 for the statuses of the decoder. -/
theorem code_of_decodeStatus {st : Status} (h : decodeStatus st = true) :
    (st = .illegalOpcode ∧ statusCode st = 1) ∨ (st = .reservedBits ∧ statusCode st = 2)
      ∨ (st = .illegalUnit ∧ statusCode st = 3) ∨ (st = .illegalLength ∧ statusCode st = 4) := by
  revert h
  cases st <;> decide

/-- Without silence bits a status word is its code and the echo. -/
theorem statusWord_no_silence (st : Status) (echo : Byte) :
    statusWord st echo false false = BitVec.ofNat 64 (statusCode st + 256 * echo.toNat) := rfl

/-- The framing error of a packet that is empty or no whole number of words. -/
theorem decode_of_not_framed {p : Packet} (h : p.length % 8 ≠ 0 ∨ p = []) :
    decode p = .error ⟨.illegalLength, if p.length < 8 then 0 else p.headD 0⟩ := by
  rcases h with h | rfl
  · rw [decode, if_pos h]; rfl
  · rfl

/-- Settles O7: the step only answers the decoder's status, whose code is one of four. -/
theorem illegalPacketAnswersItsStatus : Obligations.IllegalPacketAnswersItsStatus := by
  intro s p rest hc
  refine ⟨fun e he => ⟨_, code_of_decodeStatus (decodeStatus_of_decode he), ?_⟩, decode_of_not_framed⟩
  rw [step_of_decode_error hc he, respondStatus, statusWord_no_silence]

/-! ## The examples of the spec (R103) -/

/-- Settles O5: each list of words is the command's encoding by evaluation, so its bytes decode to the command. -/
theorem encodingExamplesOfTheSpec : Obligations.EncodingExamplesOfTheSpec := by
  have hwords : ∀ (i : Instr) (ws : List Word), encodeWords i = ws → decode (bytesOf ws) = .ok i ∧ encodeWords i = ws := by
    rintro i _ rfl
    exact ⟨decodingAnEncodedCommandGivesItBack i, rfl⟩
  intro e he
  refine hwords _ _ ?_
  revert e
  decide +kernel

end Sys2Proof.Machine
end

section
/-! PROOFS. What a completed command did: `Completes i s t` lists, command by command, the requirements that held and the
state the command answers; a command completes exactly as it says. Statements about what every command does are proved from it
by one case per constructor. -/

namespace Sys2Proof.Machine

open Sys2Proof

/-! ## CONFIGURE's setups as functions (`45_pipeline.md` R262) -/

/-- A stage's biquads after CONFIGURE. -/
def stageReload (s : State) (fs : F64) (st : Stage) : Stereo Iir :=
  if s.fcV.get st then
    ⟨iirLoad s.cfg st.kind (s.iir.get st).left fs (s.fc.get st), iirLoad s.cfg st.kind (s.iir.get st).right fs (s.fc.get st)⟩
  else s.iir.get st

/-- The DDS after CONFIGURE. -/
def ddsReload (s : State) (fs : F64) : Dds :=
  if s.cfV then ddsLoad s.cfg s.dds fs (fAbs s.cf) else s.dds

/-- A FIR after CONFIGURE. -/
def firReload (s : State) (fs : F64) (k : FilterKind) : Fir :=
  if (s.fir.get k).coefV then firLoad s.cfg k (s.fir.get k) fs (s.fir.get k).fc else s.fir.get k

/-- The state after CONFIGURE, but for the response. -/
def configureAll (s : State) (fs : F64) : State :=
  { configureRate s fs with
    iir := ⟨stageReload s fs .inHpf, stageReload s fs .inLpf, stageReload s fs .outHpf, stageReload s fs .outLpf⟩
    dds := ddsReload s fs
    fir := ⟨firReload s fs .lpf, firReload s fs .hpf⟩ }

@[simp] theorem configureAll_iir_get (s : State) (fs : F64) (st : Stage) :
    (configureAll s fs).iir.get st = stageReload s fs st := by cases st <;> rfl

@[simp] theorem configureAll_fir_get (s : State) (fs : F64) (k : FilterKind) :
    (configureAll s fs).fir.get k = firReload s fs k := by cases k <;> rfl

/-- What CONFIGURE and the setups it runs require. -/
structure ConfigureDomain (s : State) (fs : F64) : Prop where
  rate : rateOk fs = true
  stage : ∀ st, s.fcV.get st = true → cutoffOk (s.fc.get st) = true ∧ twiceBelow (s.fc.get st) fs = true
  carrier : s.cfV = true → ddsFreqOk s.cfg (fAbs s.cf) = true
  fir : ∀ k, (s.fir.get k).coefV = true → firCutoffOk (s.fir.get k).fc = true
    ∧ twiceBelow (s.fir.get k).fc fs = true ∧ firSumPositive s.cfg.firLen fs (s.fir.get k).fc = true

theorem configureStage_ok {s : State} {fs : F64} {st : Stage} {p : Stereo Iir} (hfs : filterRateOk fs = true) :
    configureStage s fs st = .ok p ↔
      (s.fcV.get st = true → cutoffOk (s.fc.get st) = true ∧ twiceBelow (s.fc.get st) fs = true)
        ∧ p = stageReload s fs st := by
  unfold configureStage stageReload
  cases s.fcV.get st with
  | true => simp only [if_true, iirSetupPair_ok, hfs, true_and, forall_const, and_assoc]
  | false => simpa using eq_comm

theorem configureDds_ok {s : State} {fs : F64} {d : Dds} (hfs : rateOk fs = true) :
    configureDds s fs = .ok d ↔ (s.cfV = true → ddsFreqOk s.cfg (fAbs s.cf) = true) ∧ d = ddsReload s fs := by
  unfold configureDds ddsReload
  cases s.cfV with
  | true => simp only [if_true, ddsSetup_ok, hfs, true_and, forall_const]
  | false => simpa using eq_comm

theorem configureFir_ok {s : State} {fs : F64} {k : FilterKind} {u : Fir} (hfs : filterRateOk fs = true) :
    configureFir s fs k = .ok u ↔
      ((s.fir.get k).coefV = true → firCutoffOk (s.fir.get k).fc = true
        ∧ twiceBelow (s.fir.get k).fc fs = true ∧ firSumPositive s.cfg.firLen fs (s.fir.get k).fc = true)
        ∧ u = firReload s fs k := by
  unfold configureFir firReload
  cases (s.fir.get k).coefV with
  | true => simp only [if_true, firSetup_ok, hfs, true_and, forall_const, and_assoc]
  | false => simpa using eq_comm

theorem configureChecks_eq_ok {s : State} {fs : F64} (h : ConfigureDomain s fs) : configureChecks s fs = .ok () := by
  have hstage : ∀ st, stageFits s fs st = true := fun st => by
    cases hv : s.fcV.get st with
    | false => simp [stageFits, hv]
    | true => simp [stageFits, (h.stage st hv).2]
  have hfir : ∀ k, ((s.fir.get k).coefV && !twiceBelow (s.fir.get k).fc fs) = false
      ∧ ((s.fir.get k).coefV && !firSumPositive s.cfg.firLen fs (s.fir.get k).fc) = false := fun k => by
    cases hv : (s.fir.get k).coefV with
    | false => simp
    | true => simp [h.fir k hv]
  have hl := hfir .lpf
  have hh := hfir .hpf
  simp only [PerKind.get_lpf, PerKind.get_hpf] at hl hh
  simp [configureChecks, h.rate, hstage, hl, hh]

/-- The setups CONFIGURE runs succeed exactly on their domains, and write what `configureAll` says. -/
theorem configureUnits_eq_ok {s : State} {fs : F64} (h : ConfigureDomain s fs) :
    configureUnits (configureRate s fs) fs = .ok (configureAll s fs) := by
  have hfs := filterRateOk_of_rateOk h.rate
  have hstage : ∀ st, configureStage (configureRate s fs) fs st = .ok (stageReload s fs st) := fun st =>
    (configureStage_ok hfs).mpr ⟨h.stage st, rfl⟩
  have hdds : configureDds (configureRate s fs) fs = .ok (ddsReload s fs) := (configureDds_ok h.rate).mpr ⟨h.carrier, rfl⟩
  have hfir : ∀ k, configureFir (configureRate s fs) fs k = .ok (firReload s fs k) := fun k =>
    (configureFir_ok hfs).mpr ⟨h.fir k, rfl⟩
  simp only [configureUnits, hstage, hdds, hfir]
  rfl

/-- CONFIGURE completes exactly on its domain. -/
theorem execConfigure_next_iff {fs : F64} {s t : State} :
    execConfigure fs s = .next t ↔ ConfigureDomain s fs ∧ t = respond (configureAll s fs) .configure [] := by
  constructor
  · intro h
    obtain ⟨hchecks, u, hunits, rfl⟩ := execConfigure_next h
    obtain ⟨hrate, -, -⟩ := configureChecks_ok hchecks
    have hfs := filterRateOk_of_rateOk hrate
    obtain ⟨i0, i1, i2, i3, d, l, r, h0, h1, h2, h3, hd, hl, hr, rfl⟩ := configureUnits_ok hunits
    obtain ⟨d0, rfl⟩ := (configureStage_ok hfs).mp h0
    obtain ⟨d1, rfl⟩ := (configureStage_ok hfs).mp h1
    obtain ⟨d2, rfl⟩ := (configureStage_ok hfs).mp h2
    obtain ⟨d3, rfl⟩ := (configureStage_ok hfs).mp h3
    obtain ⟨dd, rfl⟩ := (configureDds_ok hrate).mp hd
    obtain ⟨dl, rfl⟩ := (configureFir_ok hfs).mp hl
    obtain ⟨dr, rfl⟩ := (configureFir_ok hfs).mp hr
    exact ⟨⟨hrate, fun st => by cases st <;> assumption, dd, fun k => by cases k <;> assumption⟩, rfl⟩
  · rintro ⟨hdom, rfl⟩
    rw [execConfigure, configureChecks_eq_ok hdom]
    change finish .configure (configureUnits (configureRate s fs) fs) = _
    rw [configureUnits_eq_ok hdom]
    rfl

/-! ## Every completed command -/

/-- What a non-bypass frame requires (R266; log 13). -/
structure FrameReady (s : State) : Prop where
  configured : configured s = true
  noResetPending : s.resetPending = false
  ddsValid : s.dds.valid = true
  left : chanReady (chanUnits s .left) = true
  right : chanReady (chanUnits s .right) = true

/-- The state a non-bypass frame answers. -/
def frameDone (s : State) (aL aR : F64) : State :=
  respondSilence (runFrame s aL aR).1 .processFrame false false [(runFrame s aL aR).2.1, (runFrame s aL aR).2.2]

/-- The command completed from `s` and answered `t`. -/
inductive Completes : Instr → State → State → Prop
  | nop {s} : Completes .nop s (respond s .nop [])
  | configure {fs s} (dom : ConfigureDomain s fs) :
      Completes (.configure fs) s (respond (configureAll s fs) .configure [])
  | setCarrierSame {w f s} (dom : carrierOk s.cfg f = true) (hv : s.cfV = true) (he : fEq f s.cf = true)
      (hw : w = s.wf) : Completes (.setCarrier w f) s (respond s .setCarrier [])
  | setCarrierLoad {w f s} (dom : carrierOk s.cfg f = true) (hne : (s.cfV && fEq f s.cf) = false)
      (hr : s.srV = true) (rate : rateOk s.sr = true) (freq : ddsFreqOk s.cfg (fAbs f) = true) :
      Completes (.setCarrier w f) s
        (respond { carrierRegs s w f with dds := ddsLoad s.cfg s.dds s.sr (fAbs f) } .setCarrier [])
  | setCarrierKeep {w f s} (dom : carrierOk s.cfg f = true) (hne : (s.cfV && fEq f s.cf && w == s.wf) = false)
      (hno : s.srV = true → s.cfV = true ∧ fEq f s.cf = true) :
      Completes (.setCarrier w f) s (respond (carrierRegs s w f) .setCarrier [])
  | setCutoffSame {st hz s} (dom : cutoffOk hz = true) (below : s.srV = true → twiceBelow hz s.sr = true)
      (hv : s.fcV.get st = true) (he : fEq hz (s.fc.get st) = true) :
      Completes (.setCutoff st hz) s (respond s .setCutoff [])
  | setCutoffLoad {st hz s} (dom : cutoffOk hz = true) (below : twiceBelow hz s.sr = true)
      (hne : (s.fcV.get st && fEq hz (s.fc.get st)) = false) (hr : s.srV = true) (rate : filterRateOk s.sr = true) :
      Completes (.setCutoff st hz) s (respond { cutoffRegs s st hz with
        iir := s.iir.set st ⟨iirLoad s.cfg st.kind (s.iir.get st).left s.sr hz,
          iirLoad s.cfg st.kind (s.iir.get st).right s.sr hz⟩ } .setCutoff [])
  | setCutoffKeep {st hz s} (dom : cutoffOk hz = true) (hne : (s.fcV.get st && fEq hz (s.fc.get st)) = false)
      (hr : s.srV = false) : Completes (.setCutoff st hz) s (respond (cutoffRegs s st hz) .setCutoff [])
  | setMixSame {wet s} (dom : wetOk wet = true) (hv : s.mixV = true) (he : fEq wet s.wet = true) :
      Completes (.setMix wet) s (respond s .setMix [])
  | setMixStore {wet s} (dom : wetOk wet = true) (hne : (s.mixV && fEq wet s.wet) = false) :
      Completes (.setMix wet) s (respond { s with wet := wet, dryg := fSub [] fOne wet, mixV := true } .setMix [])
  | bypassFrame {silL silR inL inR s} : Completes (.processFrame true silL silR inL inR) s
      (respondSilence s .processFrame silL silR [frameInput silL inL, frameInput silR inR])
  | frame {silL silR inL inR s} (ready : FrameReady s) : Completes (.processFrame false silL silR inL inR) s
      (frameDone s (frameInput silL inL) (frameInput silR inR))
  | reset {s} : Completes .reset s (respond (resetAll s) .reset [])
  | readState {s} : Completes .readState s (respond s .readState [stateWord s])
  | udlEnqueue {c x s} : Completes (.udlEnqueue c x) s
      (respond { s with dry := s.dry.set c (dlEnq (s.dry.get c) x) } .udlEnqueue [])
  | udlRead {c i s} (dom : i.toNat < s.cfg.dryCap) :
      Completes (.udlRead c i) s (respond s .udlRead [dlRead (s.dry.get c) i.toNat])
  | udlReadPast {c i s} (past : s.cfg.dryCap ≤ i.toNat) :
      Completes (.udlRead c i) s (respondStatus s .operandRange (opCode .udlRead))
  | udlReset {c s} : Completes (.udlReset c) s (respond { s with dry := s.dry.set c (dlClear (s.dry.get c)) } .udlReset [])
  | uddsSetup {fs f s} (rate : rateOk fs = true) (freq : ddsFreqOk s.cfg f = true) :
      Completes (.uddsSetup fs f) s (respond { s with dds := ddsLoad s.cfg s.dds fs f } .uddsSetup [])
  | uddsProcess {w s} (hv : s.dds.valid = true) : Completes (.uddsProcess w) s
      (respond { s with dds := ddsAdvance s.cfg s.dds } .uddsProcess
        [(lookup s.cfg w s.dds.phase).1, (lookup s.cfg w s.dds.phase).2])
  | uddsReset {s} : Completes .uddsReset s (respond { s with dds := ddsReset s.dds } .uddsReset [])
  | uddsRead {s} : Completes .uddsRead s (respond s .uddsRead (ddsWords s.dds))
  | uhtProcess {c x s} : Completes (.uhtProcess c x) s
      (respond (bumpNan { s with ht := s.ht.set c (dlEnq (s.ht.get c) x) }) .uhtProcess
        [dlRead (dlEnq (s.ht.get c) x) s.cfg.centreH, htSum (nanTag s) s.cfg (dlEnq (s.ht.get c) x)])
  | uhtReset {c s} : Completes (.uhtReset c) s (respond { s with ht := s.ht.set c (dlClear (s.ht.get c)) } .uhtReset [])
  | uiirSetup {st c fs fc s} (rate : filterRateOk fs = true) (cutoff : cutoffOk fc = true)
      (below : twiceBelow fc fs = true) : Completes (.uiirSetup st c fs fc) s
        (respond (setIir s st c (iirLoad s.cfg st.kind (getIir s st c) fs fc)) .uiirSetup [])
  | uiirProcess {st c x s} (hv : (getIir s st c).coefV = true) : Completes (.uiirProcess st c x) s
      (respond (bumpNan (setIir s st c (iirProcess (nanTag s) (getIir s st c) x).1)) .uiirProcess
        [(iirProcess (nanTag s) (getIir s st c) x).2])
  | uiirReset {st c s} : Completes (.uiirReset st c) s
      (respond (setIir s st c (iirReset (getIir s st c))) .uiirReset [])
  | ufirSetup {k fs fc s} (rate : filterRateOk fs = true) (cutoff : firCutoffOk fc = true)
      (below : twiceBelow fc fs = true) (pos : firSumPositive s.cfg.firLen fs fc = true) :
      Completes (.ufirSetup k fs fc) s
        (respond { s with fir := s.fir.set k (firLoad s.cfg k (s.fir.get k) fs fc) } .ufirSetup [])
  | ufirProcess {k x s} (hv : (s.fir.get k).coefV = true) : Completes (.ufirProcess k x) s
      (respond (bumpNan { s with fir := s.fir.set k (firProcess (nanTag s) s.cfg (s.fir.get k) x).1 }) .ufirProcess
        [(firProcess (nanTag s) s.cfg (s.fir.get k) x).2])
  | ufirReset {k s} : Completes (.ufirReset k) s
      (respond { s with fir := s.fir.set k (firReset (s.fir.get k)) } .ufirReset [])
  | umix {lower z zH x xH s} : Completes (.umix lower z zH x xH) s
      (respond (bumpNan s) .umix [mix (nanTag s) lower z zH x xH])

/-! ### From the command to the list -/

theorem eq_of_next {t u : State} (h : (.next t : Result) = .next u) : t = u := by cases h; rfl

/-- A command that sets up one unit and stores what the setup answers. -/
theorem finish_setup_next {α : Type} {op : Op} {setup : Except Refusal α} {store : α → State} {t : State}
    (h : finish op (setup >>= fun a => pure (store a)) = .next t) :
    ∃ a, setup = .ok a ∧ t = respond (store a) op [] := by
  obtain ⟨u, hu, rfl⟩ := finish_next.mp h
  obtain ⟨a, ha, hs⟩ := except_bind_ok.mp hu
  cases hs
  exact ⟨a, ha, rfl⟩

/-- A command with one requirement. -/
theorem ite_refused_next {b : Bool} {e : Refusal} {r : Result} {t : State}
    (h : (if !b then .refused e else r) = .next t) : b = true ∧ r = .next t := by
  cases b with
  | true => exact ⟨rfl, h⟩
  | false => cases h

theorem completes_execSetCarrier {w : BitVec 8} {f : F64} {s t : State} (h : execSetCarrier w f s = .next t) :
    Completes (.setCarrier w f) s t := by
  obtain ⟨hf, h⟩ := ite_refused_next h
  split at h
  next hsame =>
    obtain rfl := eq_of_next h
    simp only [Bool.and_eq_true, beq_iff_eq] at hsame
    exact .setCarrierSame hf hsame.1.1 hsame.1.2 hsame.2
  next hsame =>
  rw [Bool.not_eq_true] at hsame
  split at h
  next hload =>
    obtain ⟨d, hd, rfl⟩ := finish_setup_next h
    obtain ⟨hrate, hfreq, rfl⟩ := ddsSetup_ok.mp hd
    rw [← Bool.not_and, Bool.and_eq_true, Bool.not_eq_true'] at hload
    exact .setCarrierLoad hf hload.1 hload.2 hrate hfreq
  next hload =>
    obtain rfl := eq_of_next h
    refine .setCarrierKeep hf hsame fun hr => ?_
    simpa [hr] using hload

theorem completes_execSetCutoff {st : Stage} {hz : F64} {s t : State} (h : execSetCutoff st hz s = .next t) :
    Completes (.setCutoff st hz) s t := by
  obtain ⟨hc, h⟩ := ite_refused_next h
  split at h
  · cases h
  next hbelow =>
  have hbelow : s.srV = true → twiceBelow hz s.sr = true := fun hr => by simpa [hr] using hbelow
  split at h
  next hsame =>
    obtain rfl := eq_of_next h
    rw [Bool.and_eq_true] at hsame
    exact .setCutoffSame hc hbelow hsame.1 hsame.2
  next hsame =>
  rw [Bool.not_eq_true] at hsame
  split at h
  next hr =>
    obtain ⟨p, hp, rfl⟩ := finish_setup_next h
    obtain ⟨hrate, -, -, rfl⟩ := iirSetupPair_ok.mp hp
    exact .setCutoffLoad hc (hbelow hr) hsame hr hrate
  next hr =>
    obtain rfl := eq_of_next h
    exact .setCutoffKeep hc hsame (Bool.not_eq_true _ ▸ hr)

theorem completes_execSetMix {wet : F64} {s t : State} (h : execSetMix wet s = .next t) :
    Completes (.setMix wet) s t := by
  obtain ⟨hw, h⟩ := ite_refused_next h
  split at h
  next hsame =>
    obtain rfl := eq_of_next h
    rw [Bool.and_eq_true] at hsame
    exact .setMixSame hw hsame.1 hsame.2
  next hsame =>
    obtain rfl := eq_of_next h
    exact .setMixStore hw (Bool.not_eq_true _ ▸ hsame)

theorem completes_execProcessFrame {bypass silL silR : Bool} {inL inR : F64} {s t : State}
    (h : execProcessFrame bypass silL silR inL inR s = .next t) :
    Completes (.processFrame bypass silL silR inL inR) s t := by
  cases bypass with
  | true =>
    obtain rfl := eq_of_next h
    exact .bypassFrame
  | false =>
    obtain ⟨hc, hp, hd, hl, hr, rfl⟩ := execProcessFrame_next h
    exact .frame ⟨hc, hp, hd, hl, hr⟩

/-- A command that answers a next state did what the list says. -/
theorem completes_of_exec {i : Instr} {s t : State} (h : exec i s = .next t) : Completes i s t := by
  cases i with
  | configure fs =>
    obtain ⟨hdom, rfl⟩ := execConfigure_next_iff.mp h
    exact .configure hdom
  | setCarrier w f => exact completes_execSetCarrier h
  | setCutoff st hz => exact completes_execSetCutoff h
  | setMix wet => exact completes_execSetMix h
  | processFrame => exact completes_execProcessFrame h
  | udlRead c i =>
    change execUdlRead c i s = _ at h
    unfold execUdlRead at h
    split at h
    next hpast => obtain rfl := eq_of_next h; exact .udlReadPast hpast
    next hin => obtain rfl := eq_of_next h; exact .udlRead (Nat.lt_of_not_le hin)
  | uddsSetup fs f =>
    obtain ⟨d, hd, rfl⟩ := finish_setup_next h
    obtain ⟨hrate, hfreq, rfl⟩ := ddsSetup_ok.mp hd
    exact .uddsSetup hrate hfreq
  | uiirSetup st c fs fc =>
    obtain ⟨u, hu, rfl⟩ := finish_setup_next h
    obtain ⟨hrate, hcut, hbelow, rfl⟩ := iirSetup_ok.mp hu
    exact .uiirSetup hrate hcut hbelow
  | ufirSetup k fs fc =>
    obtain ⟨u, hu, rfl⟩ := finish_setup_next h
    obtain ⟨hrate, hcut, hbelow, hpos, rfl⟩ := firSetup_ok.mp hu
    exact .ufirSetup hrate hcut hbelow hpos
  | uddsProcess => obtain ⟨hv, h⟩ := ite_refused_next h; obtain rfl := eq_of_next h; exact .uddsProcess hv
  | uiirProcess => obtain ⟨hv, h⟩ := ite_refused_next h; obtain rfl := eq_of_next h; exact .uiirProcess hv
  | ufirProcess => obtain ⟨hv, h⟩ := ite_refused_next h; obtain rfl := eq_of_next h; exact .ufirProcess hv
  | nop => obtain rfl := eq_of_next h; exact .nop
  | reset => obtain rfl := eq_of_next h; exact .reset
  | readState => obtain rfl := eq_of_next h; exact .readState
  | udlEnqueue => obtain rfl := eq_of_next h; exact .udlEnqueue
  | udlReset => obtain rfl := eq_of_next h; exact .udlReset
  | uddsReset => obtain rfl := eq_of_next h; exact .uddsReset
  | uddsRead => obtain rfl := eq_of_next h; exact .uddsRead
  | uhtProcess => obtain rfl := eq_of_next h; exact .uhtProcess
  | uhtReset => obtain rfl := eq_of_next h; exact .uhtReset
  | uiirReset => obtain rfl := eq_of_next h; exact .uiirReset
  | ufirReset => obtain rfl := eq_of_next h; exact .ufirReset
  | umix => obtain rfl := eq_of_next h; exact .umix

/-! ### From the list to the command -/

/-- What the list says of a command is what it answers. -/
theorem exec_of_completes {i : Instr} {s t : State} (h : Completes i s t) : exec i s = .next t := by
  cases h with
  | configure dom => exact execConfigure_next_iff.mpr ⟨dom, rfl⟩
  | setCarrierSame dom hv he hw => simp [exec, execSetCarrier, dom, hv, he, hw]
  | setCarrierLoad dom hne hr rate freq =>
    rename_i w f
    have hload : ((!s.cfV || !fEq f s.cf) && s.srV) = true := by rw [← Bool.not_and, hne, hr]; rfl
    simp only [exec, execSetCarrier, dom, hne, hload, Bool.false_and, ddsSetup_ok.mpr ⟨rate, freq, rfl⟩]
    rfl
  | setCarrierKeep dom hne hno =>
    rename_i w f
    have hload : ((!s.cfV || !fEq f s.cf) && s.srV) = false := by
      cases hr : s.srV with
      | false => exact Bool.and_false _
      | true => simp [hno hr]
    simp only [exec, execSetCarrier, dom, hne, hload]
    rfl
  | setCutoffSame dom below hv he =>
    rename_i st hz
    have hbelow : (s.srV && !twiceBelow hz s.sr) = false := by
      cases hr : s.srV with
      | false => rfl
      | true => simp [below hr]
    simp [exec, execSetCutoff, dom, hbelow, hv, he]
  | setCutoffLoad dom below hne hr rate =>
    simp only [exec, execSetCutoff, dom, hr, below, hne, iirSetupPair_ok.mpr ⟨rate, dom, below, rfl⟩]
    rfl
  | setCutoffKeep dom hne hr => simp [exec, execSetCutoff, dom, hr, hne]
  | setMixSame dom hv he => simp [exec, execSetMix, dom, hv, he]
  | setMixStore dom hne => simp [exec, execSetMix, dom, hne]
  | frame ready =>
    simp only [exec, execProcessFrame, ready.configured, ready.noResetPending, ready.ddsValid, ready.left, ready.right]
    rfl
  | udlRead dom => simp [exec, execUdlRead, Nat.not_le_of_lt dom]
  | udlReadPast past => simp [exec, execUdlRead, past]
  | uddsSetup rate freq => simp only [exec, execUddsSetup, ddsSetup_ok.mpr ⟨rate, freq, rfl⟩]; rfl
  | uddsProcess hv => simp [exec, execUddsProcess, hv]
  | uiirSetup rate cutoff below => simp only [exec, execUiirSetup, iirSetup_ok.mpr ⟨rate, cutoff, below, rfl⟩]; rfl
  | uiirProcess hv => simp [exec, execUiirProcess, hv]
  | ufirSetup rate cutoff below pos =>
    simp only [exec, execUfirSetup, firSetup_ok.mpr ⟨rate, cutoff, below, pos, rfl⟩]; rfl
  | ufirProcess hv => simp [exec, execUfirProcess, hv]
  | _ => rfl

/-- A command completes exactly as the list says. -/
theorem exec_next_iff {i : Instr} {s t : State} : exec i s = .next t ↔ Completes i s t :=
  ⟨completes_of_exec, exec_of_completes⟩

end Sys2Proof.Machine
end

section
/-! PROOFS. The block invariant (`Safety.lean`): its parts one by one, what each operation keeps of them, and every step
(`00_scope.md` R13, `10_state.md` R35-R38, `45_pipeline.md` R262-R266). -/

namespace Sys2Proof.Machine

open Sys2Proof

/-! ## The parts of the invariant -/

/-- The invariant, with one part per register group. -/
structure InvParts (s : State) : Prop where
  cfg : s.cfg.valid = true
  dry : ∀ c, lineOk s.cfg.dryCap (s.dry.get c) = true
  ht : ∀ c, lineOk s.cfg.htLen (s.ht.get c) = true
  firSized : ∀ k, firSized s.cfg (s.fir.get k) = true
  dds : ddsOk s.cfg s.dds = true
  rate : s.srV = true → rateOk s.sr = true
  carrier : s.cfV = true → carrierOk s.cfg s.cf = true
  ready : s.srV = true → s.cfV = true → s.dds.valid = true
  stage : ∀ st, stageOk s st = true
  mix : s.mixV = true → wetOk s.wet = true ∧ s.dryg = fSub [] fOne s.wet
  fir : ∀ k, firOk k (s.fir.get k) = true

theorem forall_chan {p : Chan → Prop} : (∀ c, p c) ↔ p .left ∧ p .right :=
  ⟨fun h => ⟨h _, h _⟩, fun ⟨hl, hr⟩ c => by cases c <;> assumption⟩

theorem forall_kind {p : FilterKind → Prop} : (∀ k, p k) ↔ p .lpf ∧ p .hpf :=
  ⟨fun h => ⟨h _, h _⟩, fun ⟨hl, hr⟩ k => by cases k <;> assumption⟩

theorem forall_stage {p : Stage → Prop} : (∀ st, p st) ↔ p .inHpf ∧ p .inLpf ∧ p .outHpf ∧ p .outLpf :=
  ⟨fun h => ⟨h _, h _, h _, h _⟩, fun ⟨h0, h1, h2, h3⟩ st => by cases st <;> assumption⟩

theorem not_or_eq_true {a b : Bool} : (!a || b) = true ↔ (a = true → b = true) := by cases a <;> simp

theorem inv_iff_parts (s : State) : s.Inv ↔ InvParts s := by
  have hsized : sized s = true ↔ s.cfg.valid = true ∧ (∀ c, lineOk s.cfg.dryCap (s.dry.get c) = true)
      ∧ (∀ c, lineOk s.cfg.htLen (s.ht.get c) = true) ∧ ∀ k, firSized s.cfg (s.fir.get k) = true := by
    simp only [sized, Bool.and_eq_true, forall_chan, forall_kind, Stereo.get_left, Stereo.get_right, PerKind.get_lpf,
      PerKind.get_hpf, and_assoc]
  have hparams : paramsOk s = true ↔ (s.srV = true → rateOk s.sr = true) ∧ (s.cfV = true → carrierOk s.cfg s.cf = true)
      ∧ (s.srV = true → s.cfV = true → s.dds.valid = true) ∧ (∀ st, stageOk s st = true)
      ∧ (s.mixV = true → wetOk s.wet = true ∧ s.dryg = fSub [] fOne s.wet) ∧ ∀ k, firOk k (s.fir.get k) = true := by
    simp only [paramsOk, Bool.and_eq_true, not_or_eq_true, and_imp, beq_iff_eq, forall_stage, forall_kind,
      PerKind.get_lpf, PerKind.get_hpf, and_assoc]
  rw [State.Inv, hsized, hparams]
  constructor
  · rintro ⟨⟨hcfg, hdry, hht, hfs⟩, hdds, hrate, hcar, hrd, hst, hmx, hfir⟩
    exact ⟨hcfg, hdry, hht, hfs, hdds, hrate, hcar, hrd, hst, hmx, hfir⟩
  · rintro ⟨hcfg, hdry, hht, hfs, hdds, hrate, hcar, hrd, hst, hmx, hfir⟩
    exact ⟨⟨hcfg, hdry, hht, hfs⟩, hdds, hrate, hcar, hrd, hst, hmx, hfir⟩

/-! ## Power-on -/

theorem ddsOk_powerOn {cfg : Config} (h : 0 < cfg.wtLen) : ddsOk cfg Dds.powerOn = true := by
  simp [ddsOk, Dds.powerOn, h, inRange]

theorem valid_sizes {c : Config} (h : c.valid = true) :
    0 < c.wtLen ∧ 3 ≤ c.htLen ∧ c.htLen % 4 = 3 ∧ 3 ≤ c.firLen ∧ c.firLen % 2 = 1 := by
  simp only [Config.valid, Config.sizesOk, Bool.and_eq_true, decide_eq_true_eq] at h
  omega

theorem firSized_powerOn {cfg : Config} (h : 0 < cfg.firLen) : firSized cfg (Fir.powerOn cfg.firLen) = true := by
  simp [firSized, Fir.powerOn, lineOk_powerOn h]

/-- Power-on has the invariant: no register holds a value, and every line has its size. -/
theorem powerOn_invParts {c : Config} (h : c.valid = true) : InvParts (State.powerOn c) := by
  obtain ⟨hwt, hht, -, hfir, -⟩ := valid_sizes h
  exact {
    cfg := h
    dry := fun ch => by cases ch <;> exact lineOk_powerOn (Nat.succ_pos _)
    ht := fun ch => by cases ch <;> exact lineOk_powerOn (show 0 < c.htLen by omega)
    firSized := fun k => by cases k <;> exact firSized_powerOn (show 0 < c.firLen by omega)
    dds := ddsOk_powerOn hwt
    rate := nofun
    carrier := nofun
    ready := nofun
    stage := fun st => by cases st <;> rfl
    mix := nofun
    fir := fun k => by cases k <;> rfl }

/-! ## The hardware's configuration (logs 3, 4) -/

@[simp] theorem fMag_bits (v : FiniteF64) : fMag v.bits = v.mag.val := by
  have := v.mag.isLt
  exact fMag_fPack v.neg (by omega)

@[simp] theorem fFinite_bits (v : FiniteF64) : fFinite v.bits = true := by
  have := v.mag.isLt
  simp only [fFinite, fMag_bits, infMag, decide_eq_true_eq]
  omega

@[simp] theorem freeTable_length (f : Nat → FiniteF64) (n : Nat) : (freeTable f n).length = n := by simp [freeTable]

@[simp] theorem clampedTable_length (f : Nat → FiniteF64) (n : Nat) : (clampedTable f n).length = n := by
  simp [clampedTable]

@[simp] theorem freeTable_finite (f : Nat → FiniteF64) (n : Nat) : (freeTable f n).all fFinite = true := by
  rw [List.all_eq_true]
  intro v hv
  obtain ⟨i, -, rfl⟩ := List.mem_map.mp hv
  exact fFinite_bits _

@[simp] theorem clampedTable_finite (f : Nat → FiniteF64) (n : Nat) : (clampedTable f n).all fFinite = true := by
  rw [List.all_eq_true]
  intro v hv
  obtain ⟨i, -, rfl⟩ := List.mem_map.mp hv
  exact fFinite_bits _

/-- Entry 0 of a clamped table is entry 1 (R151). -/
theorem clampedTable_clamped (f : Nat → FiniteF64) {n : Nat} (h : 2 ≤ n) :
    (clampedTable f n).getD 0 0#64 = (clampedTable f n).getD 1 0#64 := by
  have h0 : 0 < n := by omega
  have h1 : 1 < n := by omega
  simp [clampedTable, List.getD, h0, h1]

/-- The free threshold is positive and finite (R7). -/
theorem hardware_firPassHz : fFinite Config.hardware.firPassHz = true ∧ fLt posZero Config.hardware.firPassHz = true := by
  have hp := freeFirPass.isLt
  have hpass : Config.hardware.firPassHz = fPack false (freeFirPass.val + 1) := rfl
  have hmag : fMag Config.hardware.firPassHz = freeFirPass.val + 1 := by rw [hpass, fMag_fPack _ (by omega)]
  have hneg : fNegBit Config.hardware.firPassHz = false := by rw [hpass, fNegBit_fPack _ (by omega)]
  have hfinite : fFinite Config.hardware.firPassHz = true := by
    simp only [fFinite, hmag, infMag, decide_eq_true_eq]
    omega
  refine ⟨hfinite, ?_⟩
  have hkey : fKey posZero < fKey Config.hardware.firPassHz := by
    rw [show fKey posZero = 0 by decide, fKey, hneg, hmag]
    simp only [Bool.false_eq_true, if_false]
    omega
  simp only [fLt, fIsNan_of_fFinite hfinite, hkey, decide_true, Bool.and_true]
  decide

theorem hardware_sizesOk : Config.hardware.sizesOk = true := by
  have hq := freeWtQ.isLt
  obtain ⟨hfinite, hpos⟩ := hardware_firPassHz
  have hwt : Config.hardware.wtLen = 4 * (freeWtQ.val + 1) := rfl
  have hht : Config.hardware.htLen = 4 * freeHtQ + 3 := rfl
  have hfir : Config.hardware.firLen = 2 * freeFirQ + 3 := rfl
  simp only [Config.sizesOk, hfinite, hpos, hwt, hht, hfir, Bool.and_true, Bool.and_eq_true, decide_eq_true_eq]
  omega

theorem hardware_romsOk : Config.hardware.romsOk = true := by
  have hq4 : Config.hardware.q4 = freeWtQ.val + 1 := by simp only [Config.q4, Config.hardware]; omega
  have hhalf : Config.hardware.half = 2 * (freeWtQ.val + 1) := by simp only [Config.half, Config.hardware]; omega
  have hng : Config.hardware.ng = 2 * freeHtQ + 2 := by
    simp only [Config.ng, Config.centreH, Config.hardware]
    omega
  have hwtD : ∃ f0 f1 f2 f3, Config.hardware.wtD = [freeTable f0 (freeWtQ.val + 1 + 1), freeTable f1 (freeWtQ.val + 1 + 1),
      freeTable f2 (freeWtQ.val + 1 + 1), freeTable f3 (2 * (freeWtQ.val + 1) + 1)] := ⟨_, _, _, _, rfl⟩
  have hwtH : ∃ f0 f1 f2 f3, Config.hardware.wtH = [freeTable f0 (freeWtQ.val + 1 + 1), freeTable f1 (freeWtQ.val + 1 + 1),
      clampedTable f2 (freeWtQ.val + 1 + 1), clampedTable f3 (2 * (freeWtQ.val + 1) + 1)] := ⟨_, _, _, _, rfl⟩
  have hhtG : Config.hardware.htG = freeTable freeHtG (2 * freeHtQ + 2) := rfl
  have hclamp2 : Config.hardware.romH 2 0 = Config.hardware.romH 2 1 := clampedTable_clamped _ (by omega)
  have hclamp3 : Config.hardware.romH 3 0 = Config.hardware.romH 3 1 := clampedTable_clamped _ (by omega)
  obtain ⟨_, _, _, _, hwtD⟩ := hwtD
  obtain ⟨_, _, _, _, hwtH⟩ := hwtH
  simp only [Config.romsOk, hwtD, hwtH, hhtG, hq4, hhalf, hng, hclamp2, hclamp3, beq_self_eq_true, List.map_cons,
    List.map_nil, List.all_cons, List.all_nil, freeTable_length, clampedTable_length, freeTable_finite,
    clampedTable_finite, Bool.and_true, decide_true]

theorem hardware_valid : Config.hardware.valid = true := by
  rw [Config.valid, hardware_sizesOk, hardware_romsOk, Bool.and_self]

/-- Settles O13: every part of the invariant holds at power-on, and the free values of the hardware are admitted. -/
theorem powerOnHasTheBlockInvariant : Obligations.PowerOnHasTheBlockInvariant :=
  ⟨fun _ h => (inv_iff_parts _).mpr (powerOn_invParts h), hardware_valid,
    (inv_iff_parts _).mpr (powerOn_invParts hardware_valid)⟩

/-- Settles O14: every register and line of power-on is the one R320 lists. -/
theorem powerOnClearsEveryFlagAndLine : Obligations.PowerOnClearsEveryFlagAndLine := by
  refine ⟨rfl, rfl, forall_stage.mpr ⟨rfl, rfl, rfl, rfl⟩, rfl, rfl, rfl, rfl, forall_chan.mpr ⟨⟨rfl, rfl⟩, rfl, rfl⟩,
    fun st c => ?_, forall_kind.mpr ⟨⟨rfl, rfl, rfl⟩, rfl, rfl, rfl⟩⟩
  cases st <;> cases c <;> exact ⟨rfl, rfl, rfl, rfl, rfl⟩

end Sys2Proof.Machine
end

section
/-! PROOFS. Binary64 arithmetic (`00_scope.md` R11): sums and products of finite values are one rounding of the exact value,
infinities and NaNs come out as IEEE says, and the comparisons and domain checks are conditions on exact values. -/

namespace Sys2Proof.Machine

open Sys2Proof

/-! ## Signed units -/

/-- The sign a sign bit stands for. -/
def sgn (s : Bool) : Int := if s then -1 else 1

@[simp] theorem sgn_mul_sgn (s : Bool) : sgn s * sgn s = 1 := by cases s <;> rfl

@[simp] theorem abs_sgn (s : Bool) : |sgn s| = 1 := by cases s <;> rfl

theorem fInt_eq_sgn (a : F64) : fInt a = sgn (fNegBit a) * magUnits (fMag a) := by
  rw [fInt, fUnits_eq, sgn]
  cases fNegBit a <;> simp

theorem fInt_fPack (s : Bool) {m : Nat} (h : m < 2 ^ 63) : fInt (fPack s m) = sgn s * magUnits m := by
  rw [fInt_eq_sgn, fMag_fPack _ h, fNegBit_fPack _ h]

theorem infMag_lt : infMag < 2 ^ 63 := by norm_num [infMag]

theorem roundMag_lt (n d : Nat) : roundMag n d < 2 ^ 63 := (roundMag_le n d).trans_lt infMag_lt

theorem roundMag_zero {d : Nat} (hd : 0 < d) : roundMag 0 d = 0 := by
  have h := roundMag_exact (m := 0) (by decide) hd
  rwa [magUnits_zero, Nat.zero_mul] at h

/-! ## One rounding (R11) -/

/-- Of all signed magnitudes the rounded one is nearest to `n / d`, and even where another is as near. -/
theorem roundMag_nearest_int (n : Nat) {d : Nat} (hd : 0 < d) (hfin : roundMag n d < infMag) (K : Int) (m : Nat)
    (hK : |K| = magUnits m) :
    |(magUnits (roundMag n d) : Int) * d - n| ≤ |K * d - n|
      ∧ (|(magUnits (roundMag n d) : Int) * d - n| = |K * d - n| →
        K = magUnits (roundMag n d) ∨ roundMag n d % 2 = 0) := by
  rcases le_or_gt 0 K with hpos | hneg
  · rw [abs_of_nonneg hpos] at hK
    rw [hK]
    obtain ⟨hle, heq⟩ := roundMag_nearest n hd hfin m
    exact ⟨hle, fun h => (heq h).imp (fun e => by rw [e]) id⟩
  · have hzero := (roundMag_nearest n hd hfin 0).1
    rw [magUnits_zero, Nat.cast_zero, zero_mul, zero_sub, abs_neg, Nat.abs_cast] at hzero
    have hKd : K * d < 0 := mul_neg_of_neg_of_pos hneg (by exact_mod_cast hd)
    have hfar : |K * d - n| = n - K * d := by rw [abs_of_nonpos (by omega)]; ring
    rw [hfar]
    exact ⟨by omega, fun h => by omega⟩

/-- The distance of a pattern's value from `± n / d` units. -/
theorem abs_fVal_sub (w : F64) {r : ℚ} {s : Bool} {n d : Nat} (hd : 0 < d) (hr : r * (d * 2 ^ 1074) = sgn s * n) :
    |fVal w - r| = ((|sgn s * fInt w * d - n| : Int) : ℚ) / (d * 2 ^ 1074) := by
  have hD : (0 : ℚ) < d * 2 ^ 1074 := by positivity
  have hss : (sgn s : ℚ) * sgn s = 1 := by exact_mod_cast sgn_mul_sgn s
  have habs : |(sgn s : ℚ)| = 1 := by exact_mod_cast abs_sgn s
  have hdiff : (fVal w - r) * (d * 2 ^ 1074) = sgn s * (sgn s * fInt w * d - n) := by
    rw [sub_mul, hr, fVal]
    have : (fInt w : ℚ) / 2 ^ 1074 * (d * 2 ^ 1074) = fInt w * d := by field_simp
    rw [this]
    linear_combination (-(fInt w : ℚ) * d) * hss
  rw [eq_div_iff hD.ne', ← abs_of_pos hD, ← abs_mul, hdiff, abs_mul, habs, one_mul]
  push_cast
  rfl

/-- The rounded magnitude with the sign of the exact value is the nearest value, ties to even. -/
theorem nearest_roundMag {r : ℚ} {s : Bool} {n d : Nat} (hd : 0 < d) (hr : r * (d * 2 ^ 1074) = sgn s * n)
    (hfin : roundMag n d < infMag) : Nearest ((r : ℚ) : ℝ) (fPack s (roundMag n d)) := by
  have hlt := roundMag_lt n d
  have hD : (0 : ℚ) < d * 2 ^ 1074 := by positivity
  have hunits : sgn s * fInt (fPack s (roundMag n d)) = magUnits (roundMag n d) := by
    rw [fInt_fPack _ hlt, ← mul_assoc, sgn_mul_sgn, one_mul]
  refine ⟨by simp only [fFinite, fMag_fPack _ hlt, hfin, decide_true], fun w _ => ?_⟩
  have hK : |sgn s * fInt w| = magUnits (fMag w) := by
    rw [abs_mul, abs_sgn, one_mul, fInt_eq_sgn, abs_mul, abs_sgn, one_mul, Nat.abs_cast]
  obtain ⟨hle, heq⟩ := roundMag_nearest_int n hd hfin _ _ hK
  have hv := abs_fVal_sub (fPack s (roundMag n d)) hd hr
  have hw := abs_fVal_sub w hd hr
  rw [hunits] at hv
  rw [← Rat.cast_sub, ← Rat.cast_sub, ← Rat.cast_abs, ← Rat.cast_abs, Rat.cast_le, Rat.cast_inj, hv, hw,
    div_le_div_iff_of_pos_right hD, div_left_inj' hD.ne', Int.cast_le, Int.cast_inj]
  refine ⟨hle, fun h hne => ?_⟩
  rw [fMag_fPack _ hlt]
  rcases heq h with hsame | heven
  · refine absurd ?_ hne
    rw [fVal_eq_iff]
    have hss := sgn_mul_sgn s
    calc fInt (fPack s (roundMag n d)) = sgn s * (sgn s * fInt (fPack s (roundMag n d))) := by
          rw [← mul_assoc, hss, one_mul]
      _ = sgn s * (sgn s * fInt w) := by rw [hunits, hsame]
      _ = fInt w := by rw [← mul_assoc, hss, one_mul]
  · exact heven

/-- Rounding overflows exactly from the bound of R11 on. -/
theorem overflow_iff {r : ℚ} {s : Bool} {n d : Nat} (hd : 0 < d) (hr : r * (d * 2 ^ 1074) = sgn s * n) :
    overflowBound ≤ |r| ↔ roundMag n d = infMag := by
  have hD : (0 : ℚ) < d * 2 ^ 1074 := by positivity
  have habs : |(sgn s : ℚ)| = 1 := by exact_mod_cast abs_sgn s
  have hmul : |r| * (d * 2 ^ 1074) = n := by
    rw [← abs_of_pos hD, ← abs_mul, hr, abs_mul, habs, one_mul, Nat.abs_cast]
  have hbound : overflowBound * (d * 2 ^ 1074) = (((2 ^ 54 - 1) * 2 ^ 2044 * d : Nat) : ℚ) := by
    have hsplit : overflowBound = (2 ^ 54 - 1) * 2 ^ 970 := by rw [overflowBound, sub_mul, one_mul, ← pow_add]
    have h2044 : (2 : ℚ) ^ 2044 = 2 ^ 970 * 2 ^ 1074 := by rw [← pow_add]
    have h54 : ((2 ^ 54 - 1 : Nat) : ℚ) = 2 ^ 54 - 1 := by norm_num
    rw [hsplit, Nat.cast_mul, Nat.cast_mul, h54, Nat.cast_pow, Nat.cast_ofNat, h2044]
    generalize (2 : ℚ) ^ 970 = x
    generalize (2 : ℚ) ^ 1074 = y
    ring
  rw [← mul_le_mul_iff_left₀ hD, hbound, hmul, Nat.cast_le, roundMag_overflow n hd]

theorem overflowBound_pos : 0 < overflowBound := sub_pos.mpr (pow_lt_pow_right₀ (by norm_num) (by norm_num))

theorem lt_overflow_iff {r : ℚ} {s : Bool} {n d : Nat} (hd : 0 < d) (hr : r * (d * 2 ^ 1074) = sgn s * n) :
    |r| < overflowBound ↔ roundMag n d < infMag := by
  rw [← not_le, overflow_iff hd hr, lt_iff_le_and_ne]
  exact ⟨fun h => ⟨roundMag_le n d, h⟩, fun h => h.2⟩

theorem fPack_infMag (s : Bool) : fPack s infMag = if s then 0xFFF0000000000000#64 else 0x7FF0000000000000#64 := by
  cases s <;> decide

/-! ## Sums and products of finite values -/

/-- The sign of a rounded sum: that of the exact sum, and of an exact zero where both operands are negative. -/
def sumSign (a b : F64) : Bool := if fInt a + fInt b = 0 then fNegBit a && fNegBit b else decide (fInt a + fInt b < 0)

/-- A sum of finite values is one rounding of the exact sum. -/
theorem fAdd_finite (t : NanTag) {a b : F64} (ha : fFinite a = true) (hb : fFinite b = true) :
    fAdd t a b = fPack (sumSign a b) (roundMag (fInt a + fInt b).natAbs 1) := by
  simp only [fAdd, fIsNan_of_fFinite ha, fIsNan_of_fFinite hb, fIsInf_of_fFinite ha, fIsInf_of_fFinite hb, Bool.or_self,
    Bool.false_eq_true, if_false, sumSign]
  split
  next hzero => rw [hzero, Int.natAbs_zero, roundMag_zero Nat.one_pos]
  next => rfl

/-- A product of finite values is one rounding of the exact product. -/
theorem fMul_finite (t : NanTag) {a b : F64} (ha : fFinite a = true) (hb : fFinite b = true) :
    fMul t a b = fPack (fNegBit a != fNegBit b) (roundMag (fUnits a * fUnits b) (2 ^ 1074)) := by
  simp only [fMul, fIsNan_of_fFinite ha, fIsNan_of_fFinite hb, fIsInf_of_fFinite ha, fIsInf_of_fFinite hb, Bool.or_self,
    Bool.false_eq_true, if_false]

theorem fVal_add_units (a b : F64) : (fVal a + fVal b) * (((1 : Nat) : ℚ) * 2 ^ 1074) = sgn (sumSign a b)
    * ((fInt a + fInt b).natAbs : Nat) := by
  have hsum : (fVal a + fVal b) * (((1 : Nat) : ℚ) * 2 ^ 1074) = ((fInt a + fInt b : Int) : ℚ) := by
    rw [fVal, fVal]
    push_cast
    field_simp
  have hsign : fInt a + fInt b = sgn (sumSign a b) * ((fInt a + fInt b).natAbs : Nat) := by
    rw [sumSign]
    rcases lt_trichotomy (fInt a + fInt b) 0 with h | h | h
    · rw [if_neg h.ne, decide_eq_true h, sgn, if_pos rfl]; omega
    · rw [h]; simp
    · rw [if_neg h.ne', decide_eq_false (by omega), sgn]; simp only [Bool.false_eq_true, if_false]; omega
  rw [hsum]
  exact (congrArg (Int.cast : Int → ℚ) hsign).trans (by rw [Int.cast_mul, Int.cast_natCast])

theorem fVal_eq_sgn (a : F64) : fVal a = sgn (fNegBit a) * fUnits a / 2 ^ 1074 := by
  rw [fVal, fInt_eq_sgn, fUnits_eq]
  push_cast
  rfl

theorem sgn_bne (s r : Bool) : sgn (s != r) = sgn s * sgn r := by cases s <;> cases r <;> rfl

theorem fVal_mul_units (a b : F64) : fVal a * fVal b * (((2 ^ 1074 : Nat) : ℚ) * 2 ^ 1074)
    = sgn (fNegBit a != fNegBit b) * ((fUnits a * fUnits b : Nat) : ℚ) := by
  rw [fVal_eq_sgn, fVal_eq_sgn, sgn_bne, Int.cast_mul, Nat.cast_mul, Nat.cast_pow, Nat.cast_ofNat]
  field_simp

theorem sumSign_eq {a b : F64} (h : fVal a + fVal b ≠ 0) : sumSign a b = decide (fVal a + fVal b < 0) := by
  have hsum : fVal a + fVal b = ((fInt a + fInt b : Int) : ℚ) / 2 ^ 1074 := by rw [fVal, fVal, ← add_div, Int.cast_add]
  have hlt : fVal a + fVal b < 0 ↔ fInt a + fInt b < 0 := by
    rw [hsum, div_lt_iff₀ (by positivity), zero_mul]
    exact_mod_cast Iff.rfl
  have hne : fInt a + fInt b ≠ 0 := fun h0 => h (by rw [hsum, h0]; simp)
  rw [sumSign, if_neg hne]
  exact decide_eq_decide.mpr hlt.symm

/-! ## Infinite operands -/

theorem eq_of_sign_mag {a b : F64} (hs : fNegBit a = fNegBit b) (hm : fMag a = fMag b) : a = b := by
  rw [← fPack_fNegBit_fMag a, hs, hm, fPack_fNegBit_fMag]

theorem fIsInf_iff {a : F64} : fIsInf a = true ↔ fMag a = infMag := beq_iff_eq

theorem fIsNan_of_fIsInf {a : F64} (h : fIsInf a = true) : fIsNan a = false := by
  rw [fIsNan, fIsInf_iff.mp h]
  decide

/-- A pattern is a NaN, an infinity or finite. -/
theorem fFinite_of_not {a : F64} (hn : fIsNan a = false) (hi : fIsInf a = false) : fFinite a = true := by
  simp only [fIsNan, fIsInf, fFinite, decide_eq_false_iff_not, beq_eq_false_iff_ne, decide_eq_true_eq] at *
  omega

/-- An infinity keeps its value in a sum with anything but a NaN or the opposite infinity. -/
theorem fAdd_infinite (t : NanTag) {a b : F64} (ha : fIsInf a = true) (hb : fIsNan b = false)
    (hs : fIsInf b = true → fNegBit b = fNegBit a) : fAdd t a b = a ∧ fAdd t b a = a := by
  have hna := fIsNan_of_fIsInf ha
  cases hib : fIsInf b with
  | false => simp [fAdd, hna, hb, ha, hib]
  | true =>
    have hsign := hs hib
    have hsame : b = a := eq_of_sign_mag hsign ((fIsInf_iff.mp hib).trans (fIsInf_iff.mp ha).symm)
    rw [hsame]
    simp [fAdd, hna, ha]

/-- Settles O15: a sum is one rounding of the exact sum, whose overflow and zero are its sign's. -/
theorem additionIsCorrectlyRounded : Obligations.AdditionIsCorrectlyRounded := by
  refine ⟨fun t a b ha hb hs => fAdd_infinite t ha hb hs, fun t a b ha hb => ?_⟩
  intro r
  have hunits := fVal_add_units a b
  have hsum := fAdd_finite t ha hb
  refine ⟨fun hlt => ?nearest, fun hge => ?overflow, fun hne => ?sign, fun hzero => ?zero⟩
  case nearest => rw [hsum]; exact nearest_roundMag Nat.one_pos hunits ((lt_overflow_iff Nat.one_pos hunits).mp hlt)
  case overflow =>
    have hne : r ≠ 0 := fun h0 => by
      rw [h0, abs_zero] at hge
      exact absurd overflowBound_pos (not_lt.mpr hge)
    rw [hsum, (overflow_iff Nat.one_pos hunits).mp hge, fPack_infMag, sumSign_eq hne]
    simp only [decide_eq_true_eq, r]
  case sign => rw [hsum, fNegBit_fPack _ (roundMag_lt _ _), sumSign_eq hne]
  case zero =>
    have hint : fInt a + fInt b = 0 := by
      have h0 : ((fInt a + fInt b : Int) : ℚ) / 2 ^ 1074 = 0 := by rw [Int.cast_add, add_div]; exact hzero
      rw [div_eq_zero_iff, or_iff_left (by positivity)] at h0
      exact_mod_cast h0
    rw [hsum, hint, Int.natAbs_zero, roundMag_zero Nat.one_pos, sumSign, if_pos hint]
    cases fNegBit a && fNegBit b <;> decide

/-- Settles O16: negation is the flip of the sign bit. -/
theorem subtractionAddsTheNegation : Obligations.SubtractionAddsTheNegation := by
  intro t a b ha hb
  rw [← fNeg_eq_xor]
  refine ⟨?_, fun _ => fVal_fNeg b⟩
  simp [fSub, ha, hb]

theorem fMul_infinite (t : NanTag) {a b : F64} (ha : fIsInf a = true) (hb : fIsNan b = false) (h0 : fMag b ≠ 0) :
    fMul t a b = fPack (fNegBit a != fNegBit b) infMag ∧ fMul t b a = fPack (fNegBit a != fNegBit b) infMag := by
  have hna := fIsNan_of_fIsInf ha
  have hma : fMag a ≠ 0 := by rw [fIsInf_iff.mp ha]; decide
  simp [fMul, hna, hb, ha, h0, hma, bne_comm (a := fNegBit b)]

/-- Settles O17: a product is one rounding of the exact product, with the exclusive or of the signs. -/
theorem multiplicationIsCorrectlyRounded : Obligations.MultiplicationIsCorrectlyRounded := by
  refine ⟨fun t a b ha hb h0 => ?_, fun t a b ha hb => ?_⟩
  · have hr : fPack (fNegBit a != fNegBit b) infMag
        = if fNegBit a = fNegBit b then 0x7FF0000000000000#64 else 0xFFF0000000000000#64 := by
      rw [fPack_infMag]
      cases fNegBit a <;> cases fNegBit b <;> rfl
    rw [← hr]
    exact fMul_infinite t ha hb h0
  · have hunits := fVal_mul_units a b
    have hd : 0 < 2 ^ 1074 := by positivity
    rw [fMul_finite t ha hb]
    refine ⟨fun hlt => nearest_roundMag hd hunits ((lt_overflow_iff hd hunits).mp hlt), fun hge => ?_,
      fNegBit_fPack _ (roundMag_lt _ _)⟩
    rw [(overflow_iff hd hunits).mp hge, fMag_fPack _ infMag_lt]
    rfl

/-! ## NaN results (R305) -/

theorem fMag_nanResult (t : NanTag) (a b : F64) :
    fMag (nanResult t a b) = 0x7FF8000000000000 + (freeNan t a b).payload.toNat := by
  have := (freeNan t a b).payload.isLt
  exact fMag_fPack _ (by omega)

theorem fQuiet_nanResult (t : NanTag) (a b : F64) : fQuiet (nanResult t a b) = true := by
  rw [fQuiet, fMag_nanResult, decide_eq_true_eq]
  omega

theorem fIsNan_of_fQuiet {a : F64} (h : fQuiet a = true) : fIsNan a = true := by
  rw [fQuiet, decide_eq_true_eq] at h
  rw [fIsNan, decide_eq_true_eq, infMag]
  omega

theorem fIsNan_fPack (s : Bool) {m : Nat} (h : m ≤ infMag) : fIsNan (fPack s m) = false := by
  rw [fIsNan, fMag_fPack _ (h.trans_lt infMag_lt), decide_eq_false_iff_not]
  omega

@[simp] theorem fIsNan_fNeg (a : F64) : fIsNan (fNeg a) = fIsNan a := by simp [fIsNan]

@[simp] theorem fIsInf_fNeg (a : F64) : fIsInf (fNeg a) = fIsInf a := by simp [fIsInf]

/-- An operation's result where it is a NaN exactly on `p`: a quiet NaN there, and no NaN elsewhere. -/
def NanExactlyOn (r : F64) (p : Prop) : Prop := (p → fQuiet r = true) ∧ (¬ p → fIsNan r = false)

theorem NanExactlyOn.iff {r : F64} {p : Prop} (h : NanExactlyOn r p) : fIsNan r = true ↔ p := by
  refine ⟨fun hn => ?_, fun hp => fIsNan_of_fQuiet (h.1 hp)⟩
  by_contra hp
  rw [h.2 hp] at hn
  cases hn

theorem NanExactlyOn.quiet {r : F64} {p : Prop} (h : NanExactlyOn r p) (hn : fIsNan r = true) : fQuiet r = true :=
  h.1 (h.iff.mp hn)

theorem nanExactlyOn_fAdd (t : NanTag) (a b : F64) : NanExactlyOn (fAdd t a b)
    (fIsNan a = true ∨ fIsNan b = true ∨ (fIsInf a = true ∧ fIsInf b = true ∧ fNegBit a ≠ fNegBit b)) := by
  cases hna : fIsNan a with
  | true => simp [NanExactlyOn, fAdd, hna, fQuiet_nanResult]
  | false =>
  cases hnb : fIsNan b with
  | true => simp [NanExactlyOn, fAdd, hna, hnb, fQuiet_nanResult]
  | false =>
  cases hia : fIsInf a with
  | false =>
    cases hib : fIsInf b with
    | true => simp [NanExactlyOn, fAdd, hna, hnb, hia, hib]
    | false =>
      rw [fAdd_finite t (fFinite_of_not hna hia) (fFinite_of_not hnb hib)]
      simp [NanExactlyOn, fIsNan_fPack _ (roundMag_le _ _)]
  | true =>
    by_cases hop : fIsInf b = true ∧ fNegBit a ≠ fNegBit b
    · simp [NanExactlyOn, fAdd, hna, hnb, hia, hop, fQuiet_nanResult]
    · have hsum := (fAdd_infinite t hia hnb fun hib => by
        by_contra hne
        exact hop ⟨hib, Ne.symm hne⟩).1
      simp only [NanExactlyOn, hsum, hna]
      simp [hop]

theorem nanExactlyOn_fSub (t : NanTag) (a b : F64) : NanExactlyOn (fSub t a b)
    (fIsNan a = true ∨ fIsNan b = true ∨ (fIsInf a = true ∧ fIsInf b = true ∧ fNegBit a = fNegBit b)) := by
  cases hna : fIsNan a with
  | true => simp [NanExactlyOn, fSub, hna, fQuiet_nanResult]
  | false =>
  cases hnb : fIsNan b with
  | true => simp [NanExactlyOn, fSub, hna, hnb, fQuiet_nanResult]
  | false =>
    have h := nanExactlyOn_fAdd t a (fNeg b)
    have hsign : fNegBit a ≠ fNegBit (fNeg b) ↔ fNegBit a = fNegBit b := by
      rw [fNegBit_fNeg]
      cases fNegBit a <;> cases fNegBit b <;> decide
    rw [fIsNan_fNeg, fIsInf_fNeg, hsign, hna, hnb] at h
    simpa only [fSub, hna, hnb, Bool.or_self, Bool.false_eq_true, if_false] using h

theorem nanExactlyOn_fMul (t : NanTag) (a b : F64) : NanExactlyOn (fMul t a b)
    (fIsNan a = true ∨ fIsNan b = true ∨ (fIsInf a = true ∧ fMag b = 0) ∨ (fMag a = 0 ∧ fIsInf b = true)) := by
  cases hna : fIsNan a with
  | true => simp [NanExactlyOn, fMul, hna, fQuiet_nanResult]
  | false =>
  cases hnb : fIsNan b with
  | true => simp [NanExactlyOn, fMul, hna, hnb, fQuiet_nanResult]
  | false =>
  have hinf : ∀ {x : F64}, fIsInf x = true → fMag x ≠ 0 := fun h => by rw [fIsInf_iff.mp h]; decide
  by_cases hzero : fMag a = 0 ∨ fMag b = 0
  · cases hia : fIsInf a with
    | true =>
      have hb0 := hzero.resolve_left (hinf hia)
      simp [NanExactlyOn, fMul, hna, hnb, hia, hb0, fQuiet_nanResult]
    | false =>
      cases hib : fIsInf b with
      | true =>
        have ha0 := hzero.resolve_right (hinf hib)
        simp [NanExactlyOn, fMul, hna, hnb, hib, ha0, fQuiet_nanResult]
      | false =>
        rw [fMul_finite t (fFinite_of_not hna hia) (fFinite_of_not hnb hib)]
        exact ⟨fun h => by simp at h, fun _ => fIsNan_fPack _ (roundMag_le _ _)⟩
  · push Not at hzero
    obtain ⟨ha0, hb0⟩ := hzero
    simp only [NanExactlyOn, ha0, hb0, and_false, false_and, or_self, Bool.false_eq_true, false_imp_iff, not_false_eq_true,
      true_imp_iff, true_and]
    simp only [fMul, hna, hnb, ha0, hb0, Bool.or_self, Bool.false_eq_true, if_false]
    split
    · simp [fIsNan_fPack _ le_rfl]
    · exact fIsNan_fPack _ (roundMag_le _ _)

/-- Settles O18: each operation is a quiet NaN exactly on its invalid operands. -/
theorem nanResultsAreQuietAndOnlyFromInvalidOperations : Obligations.NanResultsAreQuietAndOnlyFromInvalidOperations :=
  fun t a b => ⟨(nanExactlyOn_fAdd t a b).quiet, (nanExactlyOn_fSub t a b).quiet, (nanExactlyOn_fMul t a b).quiet,
    (nanExactlyOn_fAdd t a b).iff, (nanExactlyOn_fSub t a b).iff, (nanExactlyOn_fMul t a b).iff⟩

/-! ## Comparisons (R11) -/

theorem fKey_posInf : fKey 0x7FF0000000000000#64 = infMag := by decide

theorem fKey_negInf : fKey 0xFFF0000000000000#64 = -(infMag : Int) := by decide

/-- The keys of values that are no NaN lie between those of the infinities, and only the infinities reach the ends. -/
theorem fKey_ends {a : F64} (h : fIsNan a = false) :
    -(infMag : Int) ≤ fKey a ∧ fKey a ≤ infMag ∧ (fKey a = infMag ↔ a = 0x7FF0000000000000#64)
      ∧ (fKey a = -(infMag : Int) ↔ a = 0xFFF0000000000000#64) := by
  have hm : fMag a ≤ infMag := by simpa [fIsNan] using h
  have hpos : 0 < infMag := by decide
  refine ⟨?_, ?_, ⟨fun hk => ?_, fun ha => by rw [ha, fKey_posInf]⟩, ⟨fun hk => ?_, fun ha => by rw [ha, fKey_negInf]⟩⟩
  · rw [fKey]; split <;> omega
  · rw [fKey]; split <;> omega
  · cases hs : fNegBit a with
    | true => simp only [fKey, hs, if_true] at hk; omega
    | false =>
      simp only [fKey, hs, Bool.false_eq_true, if_false, Nat.cast_inj] at hk
      exact eq_of_sign_mag (hs.trans (by decide)) (hk.trans (by decide))
  · cases hs : fNegBit a with
    | false => simp only [fKey, hs, Bool.false_eq_true, if_false] at hk; omega
    | true =>
      simp only [fKey, hs, if_true, neg_inj, Nat.cast_inj] at hk
      exact eq_of_sign_mag (hs.trans (by decide)) (hk.trans (by decide))

/-- Settles O20: comparisons compare keys, which order finite values as their exact values and have the infinities at their
ends. -/
theorem comparisonsCompareExactValues : Obligations.ComparisonsCompareExactValues := by
  refine ⟨fun a b ha hb => ⟨fLt_iff ha hb, fLe_iff ha hb, fEq_iff ha hb⟩, fun a ha => ?_, fun a b h => ?_⟩
  · obtain ⟨hlo, hhi, hp, hn⟩ := fKey_ends ha
    have hnp : fIsNan 0x7FF0000000000000#64 = false := by decide
    have hnn : fIsNan 0xFFF0000000000000#64 = false := by decide
    simp only [← hp, ← hn, ne_eq, fLt, fLe, fEq, ha, hnp, hnn, fKey_posInf, fKey_negInf, Bool.not_false, Bool.true_and,
      decide_eq_true_eq, decide_eq_false_iff_not]
    exact ⟨hhi, by omega, by omega, by omega, hlo, by omega, by omega, by omega, trivial, eq_comm, trivial, eq_comm⟩
  · rcases h with h | h <;> simp [fLt, fLe, fEq, h]

/-! ## The product check of a frequency (R304) -/

/-- Rounding stays below a power of two exactly below the midpoint under it. -/
theorem roundMag_lt_top_iff (n : Nat) {d e : Nat} (hd : 0 < d) (he : (e + 3) * 2 ^ 52 ≤ infMag) :
    roundMag n d < (e + 3) * 2 ^ 52 ↔ n < (2 ^ 54 - 1) * 2 ^ e * d := by
  rw [← not_le, ← not_le, ← roundMag_top n e hd, roundMag_eq, le_min_iff, and_iff_left he]

/-- An integer up to `2^52` is a binary64 value. -/
theorem exists_magUnits_eq {n : Nat} (h : n ≤ 2 ^ 52) : ∃ m < infMag, magUnits m = n * 2 ^ 1074 := by
  rcases Nat.eq_zero_or_pos n with rfl | hpos
  · exact ⟨0, by decide, by rw [magUnits_zero, Nat.zero_mul]⟩
  · have hlo : 2 ^ n.log2 ≤ n := Nat.log2_self_le hpos.ne'
    have hhi : n < 2 ^ (n.log2 + 1) := Nat.lt_log2_self
    have hl : n.log2 ≤ 52 := by
      rw [← Nat.lt_succ_iff, Nat.log2_lt hpos.ne']
      omega
    have hk1 : 2 ^ 52 ≤ n * 2 ^ (52 - n.log2) := by
      calc 2 ^ 52 = 2 ^ n.log2 * 2 ^ (52 - n.log2) := by rw [← Nat.pow_add, Nat.add_sub_cancel' hl]
        _ ≤ n * 2 ^ (52 - n.log2) := Nat.mul_le_mul_right _ hlo
    have hk2 : n * 2 ^ (52 - n.log2) ≤ 2 ^ 53 := by
      calc n * 2 ^ (52 - n.log2) ≤ 2 ^ (n.log2 + 1) * 2 ^ (52 - n.log2) := Nat.mul_le_mul_right _ hhi.le
        _ = 2 ^ 53 := by rw [← Nat.pow_add]; congr 1; omega
    refine ⟨(1022 + n.log2) * 2 ^ 52 + n * 2 ^ (52 - n.log2), by rw [infMag]; omega, ?_⟩
    rw [magUnits_shift hk2 fun _ => hk1, Nat.mul_assoc, ← Nat.pow_add]
    congr 2
    omega

/-- `WT_LEN` as a binary64 value is exact (D20). -/
theorem fOfNat_exact {n : Nat} (h : n ≤ 2 ^ 52) : fFinite (fOfNat n) = true ∧ fNegBit (fOfNat n) = false
    ∧ fUnits (fOfNat n) = n * 2 ^ 1074 := by
  obtain ⟨m, hm, hunits⟩ := exists_magUnits_eq h
  have hround : roundMag (n * 2 ^ 1074) 1 = m := by
    have := roundMag_exact hm Nat.one_pos
    rwa [hunits, Nat.mul_one] at this
  have hlt := hm.trans infMag_lt
  rw [fOfNat, hround]
  exact ⟨by simp only [fFinite, fMag_fPack _ hlt, hm, decide_true], fNegBit_fPack _ hlt,
    by rw [fUnits_eq, fMag_fPack _ hlt, hunits]⟩

theorem fVal_fOfNat {n : Nat} (h : n ≤ 2 ^ 52) : fVal (fOfNat n) = n := by
  obtain ⟨-, hneg, hunits⟩ := fOfNat_exact h
  rw [fVal_eq_sgn, hneg, hunits, sgn, Nat.cast_mul, Nat.cast_pow, Nat.cast_ofNat, if_neg Bool.false_ne_true, Int.cast_one,
    one_mul]
  field_simp

/-- The product check compares the magnitude of the frequency with the midpoint below `2^53`. -/
theorem freqProduct_mag {cfg : Config} (hc : cfg.valid = true) {f : F64} (hf : fFinite f = true) :
    fMag (freqProduct cfg f) < 1076 * 2 ^ 52 ↔ |fVal f| * cfg.wtLen < 2 ^ 53 - 1 / 2 := by
  obtain ⟨-, -, hlen⟩ := valid_wtLen hc
  obtain ⟨hfin, -, hunits⟩ := fOfNat_exact hlen
  have hd : 0 < 2 ^ 1074 := by positivity
  rw [freqProduct, fMul_finite [] hf hfin, fMag_fPack _ (roundMag_lt _ _), hunits,
    roundMag_lt_top_iff (e := 1073) _ hd (by norm_num [infMag]), ← Nat.mul_assoc, Nat.mul_lt_mul_right hd, abs_fVal]
  have h1074 : (2 : ℚ) ^ 1074 = 2 * 2 ^ 1073 := pow_succ' 2 1073
  have hpos : (0 : ℚ) < 2 ^ 1073 := by positivity
  have h54 : ((2 ^ 54 - 1 : Nat) : ℚ) = 2 * 2 ^ 53 - 1 := by norm_num
  have hmid : (2 : ℚ) ^ 53 - 1 / 2 = ((2 ^ 54 - 1) * 2 ^ 1073 : Nat) / 2 ^ 1074 := by
    rw [Nat.cast_mul, h54, Nat.cast_pow, Nat.cast_ofNat, h1074]
    field_simp
  rw [hmid, div_mul_eq_mul_div, div_lt_div_iff_of_pos_right (by positivity)]
  exact_mod_cast Iff.rfl

theorem fKey_fTwo53 : fKey fTwo53 = ((1076 * 2 ^ 52 : Nat) : Int) := by decide

/-- The rounded product of a frequency that is not negative, with its sign and magnitude. -/
theorem freqProduct_nonneg {cfg : Config} (hc : cfg.valid = true) {f : F64} (hf : fFinite f = true) (h0 : 0 ≤ fVal f) :
    fIsNan (freqProduct cfg f) = false ∧ fKey (freqProduct cfg f) = fMag (freqProduct cfg f)
      ∧ 0 ≤ fVal (freqProduct cfg f) := by
  obtain ⟨-, -, hlen⟩ := valid_wtLen hc
  obtain ⟨hfin, hneg, -⟩ := fOfNat_exact hlen
  have hprod := fMul_finite [] hf hfin
  rw [hneg] at hprod
  have hsign : fNegBit (freqProduct cfg f) = fNegBit f := by
    rw [freqProduct, hprod, fNegBit_fPack _ (roundMag_lt _ _), Bool.bne_false]
  have hzero : fNegBit f = true → fMag (freqProduct cfg f) = 0 := fun hs => by
    have hu : fUnits f = 0 := by
      by_contra hne
      exact absurd ((fVal_neg_iff f).mpr ⟨hs, hne⟩) (not_lt.mpr h0)
    rw [freqProduct, hprod, fMag_fPack _ (roundMag_lt _ _), hu, Nat.zero_mul, roundMag_zero (by positivity)]
  refine ⟨by rw [freqProduct, hprod]; exact fIsNan_fPack _ (roundMag_le _ _), ?_, ?_⟩
  · rw [fKey, hsign]
    split
    next hs => rw [hzero hs]; rfl
    · rfl
  · rw [fVal_eq_sgn, hsign, fUnits_eq]
    cases hs : fNegBit f with
    | true => rw [hzero hs, magUnits_zero]; simp
    | false => rw [sgn]; simp only [Bool.false_eq_true, if_false]; positivity

theorem freqProduct_lt_iff {cfg : Config} (hc : cfg.valid = true) {f : F64} (hf : fFinite f = true) (h0 : 0 ≤ fVal f) :
    fLt (freqProduct cfg f) fTwo53 = true ↔ |fVal f| * cfg.wtLen < 2 ^ 53 - 1 / 2 := by
  obtain ⟨hnan, hkey, -⟩ := freqProduct_nonneg hc hf h0
  rw [← freqProduct_mag hc hf, fLt, hnan, hkey, fKey_fTwo53, show fIsNan fTwo53 = false by decide]
  simp only [Bool.not_false, Bool.and_self, Bool.true_and, decide_eq_true_eq, Nat.cast_lt]

theorem carrierOk_iff {cfg : Config} (hc : cfg.valid = true) (f : F64) :
    carrierOk cfg f = true ↔ fFinite f = true ∧ |fVal f| * cfg.wtLen < 2 ^ 53 - 1 / 2 := by
  rw [carrierOk, Bool.and_eq_true]
  refine and_congr_right fun hf => ?_
  rw [freqProduct_lt_iff hc (by rw [fFinite_fAbs, hf]) (by rw [fVal_fAbs]; positivity), fVal_fAbs, abs_abs]

theorem ddsFreqOk_iff {cfg : Config} (hc : cfg.valid = true) (f : F64) :
    ddsFreqOk cfg f = true ↔ fFinite f = true ∧ 0 ≤ fVal f ∧ fVal f * cfg.wtLen < 2 ^ 53 - 1 / 2 := by
  rw [ddsFreqOk, Bool.and_eq_true, Bool.and_eq_true, and_assoc]
  refine and_congr_right fun hf => ?_
  rw [fLe_iff (by decide) hf, fVal_posZero]
  refine and_congr_right fun h0 => ?_
  rw [freqProduct_lt_iff hc hf h0, abs_of_nonneg h0]

/-- Settles O21: one lemma per check. -/
theorem domainChecksAreExactConditions : Obligations.DomainChecksAreExactConditions :=
  fun _ a b hc => ⟨rateOk_iff a, filterRateOk_iff a, cutoffOk_iff a, firCutoffOk_iff a, twiceBelow_iff a b, wetOk_iff a,
    carrierOk_iff hc a, ddsFreqOk_iff hc a⟩

end Sys2Proof.Machine
end

section
/-! PROOFS. The oscillator (`41_dds.md`): what a setup loads (R141), what one step does to the phase and the error (R142,
R144), what any number of steps do (R145), and the symmetry of the carrier (R151, R152). -/

namespace Sys2Proof.Machine

open Sys2Proof

/-! ## The integers a setup computes (R141) -/

theorem fRound_of_nonneg {a : F64} (h : 0 ≤ fVal a) : fRound a = ⌊fVal a + 1 / 2⌋ := by
  rw [fRound_eq_sign_mul_floor, if_neg (not_lt.mpr h), abs_of_nonneg h, one_mul]

theorem toNat_fRound_of_nonneg {a : F64} (h : 0 ≤ fVal a) : ((fRound a).toNat : Int) = ⌊fVal a + 1 / 2⌋ := by
  have hfloor : (0 : Int) ≤ ⌊fVal a + 1 / 2⌋ := Int.floor_nonneg.mpr (by linarith)
  rw [fRound_of_nonneg h, Int.toNat_of_nonneg hfloor]

/-- Below `2^53` the rounded integer is at most `2^53`. -/
theorem floor_add_half_le {v : ℚ} (h : v < 2 ^ 53) : ⌊v + 1 / 2⌋ ≤ 2 ^ 53 := by
  rw [← Int.lt_add_one_iff, Int.floor_lt]
  push_cast
  linarith

theorem natCast_ddsM {fs : F64} (h : rateOk fs = true) : (ddsM fs : Int) = ⌊fVal fs + 1 / 2⌋ := by
  obtain ⟨-, hlo, -⟩ := (rateOk_iff fs).mp h
  exact toNat_fRound_of_nonneg (by linarith)

theorem ddsM_bounds {fs : F64} (h : rateOk fs = true) : 1 ≤ ddsM fs ∧ ddsM fs ≤ 2 ^ 53 := by
  obtain ⟨-, hlo, hhi⟩ := (rateOk_iff fs).mp h
  have hM := natCast_ddsM h
  have hle := floor_add_half_le hhi
  have hge : (1 : Int) ≤ ⌊fVal fs + 1 / 2⌋ := Int.le_floor.mpr (by push_cast; linarith)
  omega

/-- A frequency of the domain has a finite product below `2^53`. -/
theorem freqProduct_of_ddsFreqOk {cfg : Config} (hc : cfg.valid = true) {f : F64} (h : ddsFreqOk cfg f = true) :
    0 ≤ fVal (freqProduct cfg f) ∧ fVal (freqProduct cfg f) < 2 ^ 53 := by
  obtain ⟨hf, h0, hprod⟩ := (ddsFreqOk_iff hc f).mp h
  rw [← abs_of_nonneg h0] at hprod
  have hmag := (freqProduct_mag hc hf).mpr hprod
  have hfin : fFinite (freqProduct cfg f) = true := by
    rw [fFinite, decide_eq_true_eq]
    exact hmag.trans (by norm_num [infMag])
  have hlt := (freqProduct_lt_iff hc hf h0).mpr hprod
  rw [fLt_iff hfin (by decide), fVal_fTwo53] at hlt
  exact ⟨(freqProduct_nonneg hc hf h0).2.2, hlt⟩

theorem natCast_ddsN {cfg : Config} (hc : cfg.valid = true) {f : F64} (h : ddsFreqOk cfg f = true) :
    (ddsN cfg f : Int) = ⌊fVal (freqProduct cfg f) + 1 / 2⌋ :=
  toNat_fRound_of_nonneg (freqProduct_of_ddsFreqOk hc h).1

theorem ddsN_le {cfg : Config} (hc : cfg.valid = true) {f : F64} (h : ddsFreqOk cfg f = true) : ddsN cfg f ≤ 2 ^ 53 := by
  have hN := natCast_ddsN hc h
  have := floor_add_half_le (freqProduct_of_ddsFreqOk hc h).2
  omega

/-! ## The registers after a setup (R141) -/

@[simp] theorem ddsLoad_step (cfg : Config) (d : Dds) (fs f : F64) : (ddsLoad cfg d fs f).step = ddsN cfg f / ddsM fs := by
  simp only [ddsLoad]; split <;> rfl

@[simp] theorem ddsLoad_incS (cfg : Config) (d : Dds) (fs f : F64) :
    (ddsLoad cfg d fs f).incS = 2 * ((ddsN cfg f % ddsM fs : Nat) : Int) := by
  simp only [ddsLoad]; split <;> rfl

@[simp] theorem ddsLoad_incF (cfg : Config) (d : Dds) (fs f : F64) :
    (ddsLoad cfg d fs f).incF = 2 * ((ddsN cfg f % ddsM fs : Nat) : Int) - 2 * (ddsM fs : Int) := by
  simp only [ddsLoad]; split <;> rfl

@[simp] theorem ddsLoad_valid (cfg : Config) (d : Dds) (fs f : F64) : (ddsLoad cfg d fs f).valid = true := by
  simp only [ddsLoad]; split <;> rfl

/-- On the cached rate the phase, the error and the cache are kept. -/
theorem ddsLoad_of_cached {d : Dds} {fs : F64} (h : rateChanged d.src fs = false) (cfg : Config) (f : F64) :
    (ddsLoad cfg d fs f).phase = d.phase ∧ (ddsLoad cfg d fs f).err = d.err ∧ (ddsLoad cfg d fs f).src = d.src := by
  simp [ddsLoad, h]

/-- On another rate they are re-seeded. -/
theorem ddsLoad_of_changed {d : Dds} {fs : F64} (h : rateChanged d.src fs = true) (cfg : Config) (f : F64) :
    (ddsLoad cfg d fs f).phase = 0
      ∧ (ddsLoad cfg d fs f).err = 2 * ((ddsN cfg f % ddsM fs : Nat) : Int) - (ddsM fs : Int)
      ∧ (ddsLoad cfg d fs f).src = some fs := by
  simp [ddsLoad, h]

theorem isStepping_ddsLoad {fs : F64} (h : rateOk fs = true) (cfg : Config) (d : Dds) (f : F64) :
    IsStepping (ddsLoad cfg d fs f) (ddsN cfg f % ddsM fs) (ddsM fs) :=
  ⟨Nat.mod_lt _ (ddsM_bounds h).1, ddsLoad_incS .., ddsLoad_incF ..⟩

/-- A cached rate is one of the domain, and only a DDS that was set up caches one. -/
theorem inv_src {s : State} (hs : s.Inv) {r : F64} (hr : s.dds.src = some r) : rateOk r = true ∧ s.dds.valid = true := by
  have h := hs.2.1
  simp only [ddsOk, hr, Bool.and_eq_true] at h
  exact h.2

theorem fFinite_of_rateOk {fs : F64} (h : rateOk fs = true) : fFinite fs = true := ((rateOk_iff fs).mp h).1

/-- The cache is asked for the value of the rate. -/
theorem rateChanged_some {r fs : F64} (hr : fFinite r = true) (hfs : fFinite fs = true) :
    rateChanged (some r) fs = decide (fVal r ≠ fVal fs) := by
  rw [rateChanged, fEq_eq_decide hfs hr, ← decide_not, decide_eq_decide, ne_eq, eq_comm]

/-- Settles O25: the setup loads the integers of R141, and its rate test compares values. -/
theorem oscillatorSetupComputesTheStepping : Obligations.OscillatorSetupComputesTheStepping := by
  intro s fs f hs hrate hfreq
  have hc := inv_cfg hs
  obtain ⟨-, -, hlen⟩ := valid_wtLen hc
  obtain ⟨hMpos, -⟩ := ddsM_bounds hrate
  refine ⟨fOfNat s.cfg.wtLen, freqProduct s.cfg f, ddsN s.cfg f, ddsM fs, ddsLoad s.cfg s.dds fs f, (fOfNat_exact hlen).1,
    fVal_fOfNat hlen, isProd_fMul _ _ _, natCast_ddsN hc hfreq, natCast_ddsM hrate, hMpos,
    exec_of_completes (.uddsSetup hrate hfreq), ddsLoad_step .., isStepping_ddsLoad hrate .., ddsLoad_valid .., ?cached,
    ?changed⟩
  case cached =>
    rintro ⟨r, hr, hval⟩
    refine ddsLoad_of_cached ?_ _ _
    rw [hr, rateChanged_some (fFinite_of_rateOk (inv_src hs hr).1) (fFinite_of_rateOk hrate)]
    simpa using hval
  case changed =>
    intro hne
    refine ddsLoad_of_changed ?_ _ _
    cases hr : s.dds.src with
    | none => rfl
    | some r =>
      rw [rateChanged_some (fFinite_of_rateOk (inv_src hs hr).1) (fFinite_of_rateOk hrate)]
      simpa using hne r hr

/-! ## One step (R142, R144) -/

/-- A step as one equation: the fast step advances the phase by one more. -/
theorem ddsAdvance_eq (cfg : Config) (d : Dds) : ddsAdvance cfg d = { d with
    phase := (d.phase + d.step + (if d.err < 0 then 0 else 1)) % cfg.wtLen
    err := d.err + (if d.err < 0 then d.incS else d.incF) } := by
  unfold ddsAdvance
  split <;> rfl

/-- Settles O26: UDDS_PROCESS is its equation. -/
theorem oscillatorProcessStepsOnce : Obligations.OscillatorProcessStepsOnce := by
  intro s w hv d x
  rw [exec_of_completes (.uddsProcess hv), ddsAdvance_eq]
  rfl

theorem isStepping_ddsAdvance {cfg : Config} {d : Dds} {R M : Nat} (h : IsStepping d R M) :
    IsStepping (ddsAdvance cfg d) R M := by
  simpa only [IsStepping, ddsAdvance_incS, ddsAdvance_incF] using h

/-- One step changes the error by the stepping, less a full rate where it is fast. -/
theorem ddsAdvance_err {cfg : Config} {d : Dds} {R M : Nat} (h : IsStepping d R M) :
    (ddsAdvance cfg d).err = d.err + 2 * R - 2 * (M * (if d.err < 0 then 0 else 1 : Nat) : Nat) := by
  obtain ⟨-, hS, hF⟩ := h
  rw [ddsAdvance_eq]
  split <;> simp only [*] <;> omega

theorem errInRange_ddsAdvance {cfg : Config} {d : Dds} {R M : Nat} (h : IsStepping d R M) (he : errInRange d) :
    errInRange (ddsAdvance cfg d) := by
  obtain ⟨hRM, hS, hF⟩ := h
  simp only [errInRange, ddsAdvance_incS, ddsAdvance_incF] at *
  rw [ddsAdvance_eq]
  split <;> simp only [*] at * <;> omega

theorem errInRange_ddsReset {d : Dds} {R M : Nat} (h : IsStepping d R M) :
    IsStepping (ddsReset d) R M ∧ errInRange (ddsReset d) ∧ (ddsReset d).err = 2 * (R : Int) - M := by
  have herr : (ddsReset d).err = (d.incS + d.incF) / 2 := rfl
  refine ⟨h, ?_⟩
  obtain ⟨hRM, hS, hF⟩ := h
  rw [errInRange, herr, hS, hF, show (ddsReset d).incF = d.incF from rfl, show (ddsReset d).incS = d.incS from rfl, hS, hF]
  omega

theorem errInRange_ddsLoad {cfg : Config} {d : Dds} {fs : F64} (h : rateOk fs = true) (f : F64)
    (hch : rateChanged d.src fs = true) : errInRange (ddsLoad cfg d fs f) := by
  obtain ⟨hRM, hS, hF⟩ := isStepping_ddsLoad h cfg d f
  obtain ⟨-, herr, -⟩ := ddsLoad_of_changed hch cfg f
  rw [errInRange, herr, hS, hF]
  omega

@[simp] theorem frameDone_dds (s : State) (aL aR : F64) : (frameDone s aL aR).dds = ddsAdvance s.cfg s.dds := rfl

/-- A command that takes one oscillator step. -/
def IsOscillatorStep (i : Instr) : Prop :=
  (∃ w, i = .uddsProcess w) ∨ ∃ silL silR inL inR, i = .processFrame false silL silR inL inR

theorem dds_of_oscillatorStep {i : Instr} {s t : State} (hi : IsOscillatorStep i) (h : exec i s = .next t) :
    t.dds = ddsAdvance s.cfg s.dds ∧ t.cfg = s.cfg := by
  rcases hi with ⟨w, rfl⟩ | ⟨silL, silR, inL, inR, rfl⟩ <;> cases completes_of_exec h <;> exact ⟨rfl, rfl⟩

/-- Settles O30: one step keeps the range, and the resets and a re-seeding setup put the error in its middle. -/
theorem errorTermStaysInRange : Obligations.ErrorTermStaysInRange := by
  intro s t R M hst
  have hstep : ∀ i, IsOscillatorStep i → errInRange s.dds → exec i s = .next t →
      IsStepping t.dds R M ∧ errInRange t.dds := fun i hi he h => by
    rw [(dds_of_oscillatorStep hi h).1]
    exact ⟨isStepping_ddsAdvance hst, errInRange_ddsAdvance hst he⟩
  refine ⟨fun w => hstep _ (.inl ⟨w, rfl⟩), fun silL silR inL inR => hstep _ (.inr ⟨silL, silR, inL, inR, rfl⟩), ?_, ?_⟩
  · rintro (h | h) <;> cases completes_of_exec h <;> exact errInRange_ddsReset hst
  · intro fs f hsrc h
    cases completes_of_exec h with
    | uddsSetup hrate => exact errInRange_ddsLoad hrate f (by rw [hsrc]; rfl)

/-! ## Any number of steps (R145) -/

/-- Where the oscillator stands after `n` steps of which `fastSteps` were fast. -/
theorem ddsAdvance_iterate (cfg : Config) {R M : Nat} (n : Nat) : ∀ d : Dds, IsStepping d R M → d.phase < cfg.wtLen →
    ((ddsAdvance cfg)^[n] d).phase = (d.phase + d.step * n + fastSteps cfg n d) % cfg.wtLen
      ∧ ((ddsAdvance cfg)^[n] d).err = d.err + 2 * (R * n : Nat) - 2 * (M * fastSteps cfg n d : Nat)
      ∧ (errInRange d → errInRange ((ddsAdvance cfg)^[n] d))
      ∧ IsStepping ((ddsAdvance cfg)^[n] d) R M := by
  induction n with
  | zero =>
    intro d hst hph
    exact ⟨by simp [fastSteps, Nat.mod_eq_of_lt hph], by simp [fastSteps], id, hst⟩
  | succ n ih =>
    intro d hst hph
    have hph' : (ddsAdvance cfg d).phase < cfg.wtLen := by
      rw [ddsAdvance_eq]
      exact Nat.mod_lt _ (by omega)
    obtain ⟨hp, he, hr, hs⟩ := ih (ddsAdvance cfg d) (isStepping_ddsAdvance hst) hph'
    rw [Function.iterate_succ_apply, fastSteps]
    refine ⟨?_, ?_, fun h => hr (errInRange_ddsAdvance hst h), hs⟩
    · rw [hp, ddsAdvance_step, ddsAdvance_eq, Nat.add_assoc, Nat.mod_add_mod, Nat.mul_succ]
      congr 1
      ring
    · rw [he, ddsAdvance_err hst]
      push_cast
      ring

/-- A run of oscillator commands is as many steps. -/
theorem dds_of_execAll : ∀ (is : List Instr) (s t : State), (∀ i ∈ is, IsOscillatorStep i) → execAll is s = .next t →
    t.dds = (ddsAdvance s.cfg)^[is.length] s.dds := by
  intro is
  induction is with
  | nil =>
    intro s t _ h
    rw [← eq_of_next h]
    rfl
  | cons i is ih =>
    intro s t hall h
    rw [execAll] at h
    split at h
    next a ha =>
      obtain ⟨hdds, hcfg⟩ := dds_of_oscillatorStep (hall i (List.mem_cons_self ..)) ha
      rw [ih a t (fun j hj => hall j (List.mem_cons_of_mem _ hj)) h, hcfg, hdds, List.length_cons,
        Function.iterate_succ_apply]
    · cases h
    · cases h

/-- The number of fast steps from the seed: an error that stays in a range of `2 M` leaves no other. -/
theorem fastSteps_of_seed {R M n F : Nat} {e : Int} (he : e = 2 * (R : Int) - M + 2 * (R * n : Nat) - 2 * (M * F : Nat))
    (hlo : 2 * (R : Int) - 2 * M ≤ e) (hhi : e < 2 * (R : Int)) : (2 * R * n + M) / (2 * M) = F := by
  have hRn : 2 * R * n = 2 * (R * n) := Nat.mul_assoc ..
  have hMF : F * (2 * M) = 2 * (M * F) := by ring
  have hMF' : (F + 1) * (2 * M) = 2 * (M * F) + 2 * M := by ring
  exact Nat.div_eq_of_lt_le (by omega) (by omega)

/-- Over `M` steps an error that stays in a range of `2 M` comes back after exactly `R` fast ones. -/
theorem fastSteps_of_period {R M F : Nat} {e e' : Int} (he : e' = e + 2 * (R * M : Nat) - 2 * (M * F : Nat))
    (hlo : 2 * (R : Int) - 2 * M ≤ e) (hhi : e < 2 * (R : Int)) (hlo' : 2 * (R : Int) - 2 * M ≤ e')
    (hhi' : e' < 2 * (R : Int)) : F = R := by
  rw [Nat.mul_comm R M] at he
  rcases Nat.lt_trichotomy F R with h | h | h
  · have := Nat.mul_le_mul_left M (Nat.succ_le_of_lt h)
    rw [Nat.mul_succ] at this
    omega
  · exact h
  · have := Nat.mul_le_mul_left M (Nat.succ_le_of_lt h)
    rw [Nat.mul_succ] at this
    omega

theorem add_mod_eq_self_iff {p w x : Nat} (hp : p < w) : (p + x) % w = p ↔ x % w = 0 := by
  rw [← Nat.dvd_iff_mod_eq_zero, ← Nat.add_modEq_left_iff (a := p), Nat.ModEq, Nat.mod_eq_of_lt hp]

/-- Settles O31: the phase and the error after `n` steps, and the one number of fast steps that keeps the error in range. -/
theorem averageFrequencyIsExact : Obligations.AverageFrequencyIsExact := by
  intro s t R M is hv hst hlen hph hall hrun n T
  have hdds := dds_of_execAll is s t hall hrun
  obtain ⟨hphase, herr, hrange, hst'⟩ := ddsAdvance_iterate s.cfg is.length s.dds hst hph
  have hlength : is.length = n := rfl
  rw [← hdds] at hphase herr hrange hst'
  rw [hlength] at hphase herr
  obtain ⟨hRM, hS, hF⟩ := hst
  obtain ⟨-, hS', hF'⟩ := hst'
  simp only [errInRange, hS, hF, hS', hF'] at hrange ⊢
  refine ⟨fun hphase0 herr0 => ?seed, fun hin hn => ?period⟩
  case seed =>
    obtain ⟨hlo, hhi⟩ := hrange (by omega)
    have hfast : (2 * R * n + M) / (2 * M) = fastSteps s.cfg n s.dds := fastSteps_of_seed (by rw [herr, herr0]) hlo hhi
    rw [hfast]
    refine ⟨by rw [hphase, hphase0, Nat.zero_add], rfl, ?_⟩
    have hdiff : (2 * M * (T * n + fastSteps s.cfg n s.dds) : Int) - 2 * n * (T * M + R)
        = 2 * ((M * fastSteps s.cfg n s.dds : Nat) : Int) - 2 * ((R * n : Nat) : Int) := by
      push_cast
      ring
    rw [hdiff, abs_le]
    omega
  case period =>
    obtain ⟨hlo, hhi⟩ := hin
    obtain ⟨hlo', hhi'⟩ := hrange ⟨hlo, hhi⟩
    rw [hn] at herr hphase
    have hfast := fastSteps_of_period herr hlo hhi hlo' hhi'
    have hphase' : t.dds.phase = (s.dds.phase + (T * M + R)) % s.cfg.wtLen := by rw [hphase, hfast, Nat.add_assoc]
    refine ⟨by rw [hn, hfast], ?_, hphase', ?_⟩
    · rw [herr, hfast, Nat.mul_comm R M]
      ring
    · rw [hphase']
      exact add_mod_eq_self_iff hph

/-! ## The carrier (R151, R152) -/

@[simp] theorem fNeg_fNeg (a : F64) : fNeg (fNeg a) = a := eq_of_sign_mag (by simp) (by simp)

theorem getD_of_forall {α : Type} {p : α → Prop} {l : List α} {d : α} (hd : p d) (h : ∀ x ∈ l, p x) (i : Nat) :
    p (l.getD i d) := by
  rcases Nat.lt_or_ge i l.length with hi | hi
  · rw [List.getD_eq_getElem _ _ hi]
    exact h _ (List.getElem_mem hi)
  · rwa [List.getD_eq_default _ _ hi]

/-- Every entry a lookup reads from a table of finite entries is finite. -/
theorem getD_getD_finite {ts : List (List F64)} (h : (ts.all fun t => t.all fFinite) = true) (w i : Nat) :
    fFinite ((ts.getD w []).getD i 0#64) = true := by
  refine getD_of_forall (p := fun v => fFinite v = true) (by decide) ?_ i
  refine getD_of_forall (p := fun t => ∀ v ∈ t, fFinite v = true) (by simp) (fun t ht => ?_) w
  exact List.all_eq_true.mp (List.all_eq_true.mp h t ht)

theorem rom_finite {c : Config} (h : c.valid = true) (w i : Nat) :
    fFinite (c.romD w i) = true ∧ fFinite (c.romH w i) = true := by
  simp only [Config.valid, Config.romsOk, Bool.and_eq_true] at h
  obtain ⟨-, ⟨⟨⟨⟨⟨-, hD⟩, hH⟩, -⟩, -⟩, -⟩, -⟩ := h
  exact ⟨getD_getD_finite hD w i, getD_getD_finite hH w i⟩

theorem lookup_finite {c : Config} (h : c.valid = true) (w : BitVec 8) (p : Nat) :
    fFinite (lookup c w p).1 = true ∧ fFinite (lookup c w p).2 = true := by
  have hD := fun i => (rom_finite h w.toNat i).1
  have hH := fun i => (rom_finite h w.toNat i).2
  have hD3 := fun i => (rom_finite h 3 i).1
  have hH3 := fun i => (rom_finite h 3 i).2
  have h0 : fFinite posZero = true := by decide
  unfold lookup
  simp only
  split_ifs <;> simp only [fFinite_fNeg, hD, hH, hD3, hH3, h0, and_self]

/-- Half a period on, the quarter-wave tables give the negated pair. -/
theorem lookup_half_period {c : Config} (hc : c.valid = true) {w : BitVec 8} (hw : w.toNat < 3) {p : Nat}
    (hp : 2 * p < c.wtLen) :
    lookup c w (p + c.wtLen / 2) = (fNeg (lookup c w p).1, fNeg (lookup c w p).2) := by
  obtain ⟨hlen, -, hq⟩ := valid_quadrants hc
  rw [lookup_quarterWave hc hw (by omega : p < c.wtLen), lookup_quarterWave hc hw (by omega : p + c.wtLen / 2 < c.wtLen)]
  have hhalf : c.wtLen / 2 = 2 * c.q4 := by omega
  rw [hhalf, if_neg (by omega), if_neg (by omega)]
  by_cases hfirst : p < c.q4
  · rw [if_pos (by omega), if_pos hfirst, Nat.add_sub_cancel]
  · rw [if_neg (by omega), if_neg hfirst, if_pos (by omega), show 4 * c.q4 - (p + 2 * c.q4) = 2 * c.q4 - p by omega,
      fNeg_fNeg]

/-- Settles O29. -/
theorem carrierIsHalfWaveAntisymmetricAndFinite : Obligations.CarrierIsHalfWaveAntisymmetricAndFinite := by
  intro c w p hc _
  obtain ⟨hD, hH⟩ := lookup_finite hc w p
  exact ⟨hD, hH, fun hw hp => lookup_half_period hc hw hp⟩

end Sys2Proof.Machine
end

section
/-! PROOFS. Every step keeps the block invariant: what each shared operation keeps of its part, then one case per completed
command (`00_scope.md` R13, `10_state.md` R35-R38, `45_pipeline.md` R262-R266). -/

namespace Sys2Proof.Machine

open Sys2Proof

/-! ## One unit replaced -/

theorem Stereo.forall_get_set {α : Type} {P : α → Prop} {p : Stereo α} {c : Chan} {v : α} (hv : P v)
    (hp : ∀ c', P (p.get c')) (c' : Chan) : P ((p.set c v).get c') := by
  by_cases h : c' = c
  · rw [h, Stereo.get_set_same]; exact hv
  · rw [Stereo.get_set_ne _ _ _ _ h]; exact hp c'

theorem PerKind.forall_get_set {α : Type} {P : FilterKind → α → Prop} {p : PerKind α} {k : FilterKind} {v : α} (hv : P k v)
    (hp : ∀ k', P k' (p.get k')) (k' : FilterKind) : P k' ((p.set k v).get k') := by
  by_cases h : k' = k
  · rw [h, PerKind.get_set_same]; exact hv
  · rw [PerKind.get_set_ne _ _ _ _ h]; exact hp k'

/-! ## FIRs -/

theorem firSized_iff {cfg : Config} {u : Fir} :
    firSized cfg u = true ↔ lineOk cfg.firLen u.dl = true ∧ u.h.length = cfg.firLen := by
  rw [firSized, Bool.and_eq_true, beq_iff_eq]

theorem mapM_option_length {α β : Type} {f : α → Option β} : ∀ {l : List α} {r : List β}, l.mapM f = some r →
    r.length = l.length := by
  intro l
  induction l with
  | nil => intro r h; cases h; rfl
  | cons a l ih =>
    intro r h
    rw [List.mapM_cons, Option.bind_eq_bind, Option.bind_eq_some_iff] at h
    obtain ⟨b, -, h⟩ := h
    rw [Option.bind_eq_bind, Option.bind_eq_some_iff] at h
    obtain ⟨r', hr', h⟩ := h
    cases h
    rw [List.length_cons, List.length_cons, ih hr']

/-- The reference taps of an odd length are that many (R206). -/
theorem refFirCoef_length {len : Nat} (hodd : len % 2 = 1) {kind : FilterKind} {fs fc : F64} {h : List F64}
    (hh : refFirCoef len kind fs fc = some h) : h.length = len := by
  simp only [refFirCoef, Option.map_eq_some_iff] at hh
  obtain ⟨half, hm, rfl⟩ := hh
  have hlen := mapM_option_length hm
  rw [List.length_range] at hlen
  rw [List.length_append, List.length_reverse, List.length_take, hlen]
  omega

/-- `FIR_COEF` gives `FIR_LEN` taps (R207). -/
theorem firCoef_length {cfg : Config} (hc : cfg.valid = true) (k : FilterKind) (fs fc : F64) :
    (firCoef cfg k fs fc).length = cfg.firLen := by
  obtain ⟨-, -, -, -, hodd⟩ := valid_sizes hc
  cases hco : cfg.coefs with
  | implementation => exact firCoef_length_implementation hco k fs fc
  | reference =>
    simp only [firCoef, hco]
    cases href : refFirCoef cfg.firLen k fs fc with
    | none => simp
    | some h => exact refFirCoef_length hodd href

theorem firSized_firLoad {cfg : Config} (hc : cfg.valid = true) {u : Fir} (h : firSized cfg u = true) (k : FilterKind)
    (fs fc : F64) : firSized cfg (firLoad cfg k u fs fc) = true :=
  firSized_iff.mpr ⟨(firSized_iff.mp h).1, firCoef_length hc k fs fc⟩

theorem firSized_firProcess {cfg : Config} {u : Fir} (h : firSized cfg u = true) (t : NanTag) (x : F64) :
    firSized cfg (firProcess t cfg u x).1 = true := by
  rw [firSized_iff] at *
  exact ⟨lineOk_dlEnq h.1 x, h.2⟩

theorem firSized_firReset {cfg : Config} {u : Fir} (h : firSized cfg u = true) : firSized cfg (firReset u) = true := by
  rw [firSized_iff] at *
  exact ⟨lineOk_dlClear h.1, h.2⟩

theorem firOk_firLoad {cfg : Config} {fs fc : F64} (hfs : filterRateOk fs = true) (hfc : firCutoffOk fc = true)
    (hb : twiceBelow fc fs = true) (k : FilterKind) (u : Fir) : firOk k (firLoad cfg k u fs fc) = true := by
  cases k <;> simp [firOk, firLoad, hfs, hfc, hb]

/-! ## The DDS (`10_state.md` R35, `00_scope.md` R13) -/

/-- The DDS invariant, with one part per register. -/
structure DdsParts (cfg : Config) (d : Dds) : Prop where
  phase : d.phase < cfg.wtLen
  step : d.step < 2 ^ 62
  err : -(2 ^ 62) ≤ d.err ∧ d.err < 2 ^ 62
  incS : 0 ≤ d.incS ∧ d.incS < 2 ^ 62
  incF : -(2 ^ 62) ≤ d.incF ∧ d.incF ≤ 0
  idle : d.valid = false → d.step = 0 ∧ d.err = 0 ∧ d.incS = 0 ∧ d.incF = 0
  src : ∀ r, d.src = some r → rateOk r = true ∧ d.valid = true

theorem ddsOk_iff_parts (cfg : Config) (d : Dds) : ddsOk cfg d = true ↔ DdsParts cfg d := by
  obtain ⟨phase, step, err, incS, incF, src, valid⟩ := d
  constructor
  · intro h
    simp only [ddsOk, inRange, Bool.and_eq_true, decide_eq_true_eq] at h
    obtain ⟨⟨⟨⟨⟨⟨⟨⟨hp, hst⟩, he⟩, hS⟩, hF⟩, hS0⟩, hF0⟩, hidle⟩, hsrc⟩ := h
    refine ⟨hp, hst, he, ⟨hS0, hS.2⟩, ⟨hF.1, hF0⟩, fun hv => ?_, fun r hr => ?_⟩
    · simpa [show valid = false from hv, and_assoc] using hidle
    · simpa [show src = some r from hr] using hsrc
  · rintro ⟨hp, hst, he, hS, hF, hidle, hsrc⟩
    simp only [ddsOk, inRange, Bool.and_eq_true, decide_eq_true_eq]
    refine ⟨⟨⟨⟨⟨⟨⟨⟨hp, hst⟩, he⟩, le_trans (by norm_num) hS.1, hS.2⟩, hF.1,
      lt_of_le_of_lt hF.2 (by norm_num)⟩, hS.1⟩, hF.2⟩, ?_⟩, ?_⟩
    · cases valid with
      | true => rfl
      | false => simpa [and_assoc] using hidle rfl
    · cases src with
      | none => rfl
      | some r => simpa using hsrc r rfl

/-- A setup on its domain keeps the ranges: every integer it loads is at most `2^54`. -/
theorem ddsOk_ddsLoad {cfg : Config} (hc : cfg.valid = true) {d : Dds} (h : ddsOk cfg d = true) {fs f : F64}
    (hfs : rateOk fs = true) (hf : ddsFreqOk cfg f = true) : ddsOk cfg (ddsLoad cfg d fs f) = true := by
  rw [ddsOk_iff_parts] at *
  obtain ⟨hM1, hM2⟩ := ddsM_bounds hfs
  have hN := ddsN_le hc hf
  have hdiv : ddsN cfg f / ddsM fs ≤ ddsN cfg f := Nat.div_le_self ..
  have hmod : ddsN cfg f % ddsM fs < ddsM fs := Nat.mod_lt _ hM1
  have hwt := (valid_sizes hc).1
  cases hch : rateChanged d.src fs with
  | true =>
    obtain ⟨hp, he, hs⟩ := ddsLoad_of_changed hch cfg f
    constructor
    case src => rw [hs]; rintro r ⟨⟩; exact ⟨hfs, ddsLoad_valid ..⟩
    case idle => rw [ddsLoad_valid]; nofun
    all_goals simp only [hp, he, ddsLoad_step, ddsLoad_incS, ddsLoad_incF]; omega
  | false =>
    obtain ⟨hp, he, hs⟩ := ddsLoad_of_cached hch cfg f
    constructor
    case src => rw [hs]; exact fun r hr => ⟨(h.src r hr).1, ddsLoad_valid ..⟩
    case idle => rw [ddsLoad_valid]; nofun
    case phase => rw [hp]; exact h.phase
    case err => rw [he]; exact h.err
    all_goals simp only [ddsLoad_step, ddsLoad_incS, ddsLoad_incF]; omega

/-- A step of a DDS that was set up keeps the ranges: the error moves towards zero by at most `2^62`. -/
theorem ddsOk_ddsAdvance {cfg : Config} {d : Dds} (h : ddsOk cfg d = true) (hv : d.valid = true) :
    ddsOk cfg (ddsAdvance cfg d) = true := by
  rw [ddsOk_iff_parts] at *
  have hS := h.incS
  have hF := h.incF
  have he := h.err
  constructor
  case phase => rw [ddsAdvance_eq]; exact Nat.mod_lt _ (Nat.zero_lt_of_lt h.phase)
  case err => rw [ddsAdvance_eq]; split <;> simp only [*] <;> omega
  case step => rw [ddsAdvance_step]; exact h.step
  case incS => rw [ddsAdvance_incS]; exact hS
  case incF => rw [ddsAdvance_incF]; exact hF
  case idle => rw [ddsAdvance_valid, hv]; nofun
  case src => rw [ddsAdvance_src, ddsAdvance_valid]; exact h.src

theorem ddsOk_ddsReset {cfg : Config} {d : Dds} (h : ddsOk cfg d = true) : ddsOk cfg (ddsReset d) = true := by
  rw [ddsOk_iff_parts] at *
  have hS := h.incS
  have hF := h.incF
  refine { phase := Nat.zero_lt_of_lt h.phase, step := h.step, err := ?_, incS := hS, incF := hF, idle := ?_, src := nofun }
  · simp only [ddsReset]; omega
  · intro hv
    obtain ⟨h1, -, h3, h4⟩ := h.idle hv
    exact ⟨h1, by simp [ddsReset, h3, h4], h3, h4⟩

/-! ## Stages -/

/-- What `stageOk` says. -/
theorem stageOk_iff {s : State} {st : Stage} : stageOk s st = true ↔
    (s.fcV.get st = true → cutoffOk (s.fc.get st) = true ∧ (s.srV = true → twiceBelow (s.fc.get st) s.sr = true
      ∧ ∀ c, ((s.iir.get st).get c).coefV = true)) := by
  simp only [stageOk, not_or_eq_true, Bool.and_eq_true, forall_chan, and_assoc]

/-- A stage's readiness is kept where its cutoff and the rate are, and no biquad loses its coefficients. -/
theorem stageOk_mono {s t : State} {st : Stage} (h : stageOk s st = true) (hfc : t.fc = s.fc) (hfcV : t.fcV = s.fcV)
    (hsr : t.sr = s.sr) (hsrV : t.srV = s.srV)
    (hco : ∀ c, ((s.iir.get st).get c).coefV = true → ((t.iir.get st).get c).coefV = true) : stageOk t st = true := by
  rw [stageOk_iff] at *
  rw [hfc, hfcV, hsr, hsrV]
  exact fun hv => ⟨(h hv).1, fun hr => ⟨((h hv).2 hr).1, fun c => hco c (((h hv).2 hr).2 c)⟩⟩

/-- Replacing a biquad by one whose coefficients are valid if they were takes no coefficients away. -/
theorem coefV_setIir {s : State} {st : Stage} {c : Chan} {u : Iir}
    (hu : ((s.iir.get st).get c).coefV = true → u.coefV = true) (st' : Stage) (c' : Chan)
    (h : ((s.iir.get st').get c').coefV = true) : (((setIir s st c u).iir.get st').get c').coefV = true := by
  rw [setIir_iir]
  by_cases hst : st' = st
  · rw [hst, Staged.get_set_same]
    rw [hst] at h
    by_cases hc : c' = c
    · rw [hc, Stereo.get_set_same]; rw [hc] at h; exact hu h
    · rw [Stereo.get_set_ne _ _ _ _ hc]; exact h
  · rw [Staged.get_set_ne _ _ _ _ hst]; exact h

/-! ## The commands with several writes -/

theorem coefV_stageReload {s : State} {fs : F64} {st : Stage} (h : s.fcV.get st = true) (c : Chan) :
    ((stageReload s fs st).get c).coefV = true := by
  rw [stageReload, if_pos h]
  cases c <;> rfl

theorem firParts_firReload {s : State} (h : InvParts s) {fs : F64} (dom : ConfigureDomain s fs) (k : FilterKind) :
    firSized s.cfg (firReload s fs k) = true ∧ firOk k (firReload s fs k) = true := by
  rw [firReload]
  split
  next hv =>
    obtain ⟨hfc, hb, -⟩ := dom.fir k hv
    exact ⟨firSized_firLoad h.cfg (h.firSized k) .., firOk_firLoad (filterRateOk_of_rateOk dom.rate) hfc hb ..⟩
  next => exact ⟨h.firSized k, h.fir k⟩

theorem invParts_configureAll {s : State} (h : InvParts s) {fs : F64} (dom : ConfigureDomain s fs) :
    InvParts (configureAll s fs) where
  cfg := h.cfg
  dry := h.dry
  ht := h.ht
  firSized k := by rw [configureAll_fir_get]; exact (firParts_firReload h dom k).1
  fir k := by rw [configureAll_fir_get]; exact (firParts_firReload h dom k).2
  dds := by
    show ddsOk s.cfg (ddsReload s fs) = true
    rw [ddsReload]
    split
    next hv => exact ddsOk_ddsLoad h.cfg h.dds dom.rate (dom.carrier hv)
    next => exact h.dds
  rate _ := dom.rate
  carrier := h.carrier
  ready _ hv := by
    show (ddsReload s fs).valid = true
    rw [ddsReload, if_pos (show s.cfV = true from hv), ddsLoad_valid]
  stage st := stageOk_iff.mpr fun hv => ⟨(dom.stage st hv).1, fun _ => ⟨(dom.stage st hv).2, fun c => by
    rw [configureAll_iir_get]; exact coefV_stageReload (s := s) hv c⟩⟩
  mix := h.mix

theorem invParts_carrierRegs {s : State} (h : InvParts s) {w : BitVec 8} {f : F64} (dom : carrierOk s.cfg f = true)
    {d : Dds} (hd : ddsOk s.cfg d = true) (hv : s.srV = true → d.valid = true) :
    InvParts { carrierRegs s w f with dds := d } :=
  { h with dds := hd, carrier := fun _ => dom, ready := fun hr _ => hv hr }

theorem invParts_setMix {s : State} (h : InvParts s) {wet : F64} (dom : wetOk wet = true) :
    InvParts { s with wet := wet, dryg := fSub [] fOne wet, mixV := true } :=
  { h with mix := fun _ => ⟨dom, rfl⟩ }

theorem invParts_cutoffRegs_load {s : State} (h : InvParts s) {st : Stage} {hz : F64} (hc : cutoffOk hz = true)
    {p : Stereo Iir} (hr : s.srV = true → twiceBelow hz s.sr = true ∧ ∀ c, (p.get c).coefV = true) :
    InvParts { cutoffRegs s st hz with iir := s.iir.set st p } :=
  { h with
    stage := fun st' => by
      rw [stageOk_iff]
      by_cases hst : st' = st
      · subst hst
        simp only [cutoffRegs_fc, cutoffRegs_sr, cutoffRegs_srV, Staged.get_set_same]
        exact fun _ => ⟨hc, hr⟩
      · simp only [cutoffRegs_fc, cutoffRegs_fcV, cutoffRegs_sr, cutoffRegs_srV, Staged.get_set_ne _ _ _ _ hst]
        exact stageOk_iff.mp (h.stage st') }

/-! ## A frame as one equation (R266) -/

/-- `SW` in a frame. -/
def frameSw (s : State) : Bool := swAfterFrame s.sw (lookup s.cfg s.wf s.dds.phase).2

/-- Channel `c`'s units and output after a frame, its NaN places numbered from `n`. -/
def frameUnits (s : State) (n : Nat) (c : Chan) (a : F64) : ChanUnits × F64 :=
  frameChannel (n :: nanTag s) s.cfg s.wet s.dryg (chanUnits s c) a (selectLower (frameSw s) s.cf)
    (lookup s.cfg s.wf s.dds.phase).1 (lookup s.cfg s.wf s.dds.phase).2

/-- The state with both channels' units replaced. -/
def withChannels (s : State) (l r : ChanUnits) : State :=
  { s with
    dry := ⟨l.dry, r.dry⟩, ht := ⟨l.ht, r.ht⟩
    iir := ⟨⟨l.inHpf, r.inHpf⟩, ⟨l.inLpf, r.inLpf⟩, ⟨l.outHpf, r.outHpf⟩, ⟨l.outLpf, r.outLpf⟩⟩ }

theorem frameDone_eq (s : State) (aL aR : F64) :
    frameDone s aL aR = { withChannels s (frameUnits s 0 .left aL).1 (frameUnits s 1 .right aR).1 with
      dds := ddsAdvance s.cfg s.dds, sw := frameSw s, nanCount := s.nanCount + 1
      resp := some ⟨0x500#64, [(frameUnits s 0 .left aL).2, (frameUnits s 1 .right aR).2]⟩ } := rfl

/-- A channel's units keep the sizes of the lines and the readiness of the biquads. -/
structure KeepsUnits (cfg : Config) (u v : ChanUnits) : Prop where
  dry : lineOk cfg.dryCap v.dry = true
  ht : lineOk cfg.htLen v.ht = true
  inHpf : u.inHpf.coefV = true → v.inHpf.coefV = true
  inLpf : u.inLpf.coefV = true → v.inLpf.coefV = true
  outHpf : u.outHpf.coefV = true → v.outHpf.coefV = true
  outLpf : u.outLpf.coefV = true → v.outLpf.coefV = true

theorem keepsUnits_frameUnits {s : State} (h : InvParts s) (n : Nat) (c : Chan) (a : F64) :
    KeepsUnits s.cfg (chanUnits s c) (frameUnits s n c a).1 :=
  ⟨lineOk_dlEnq (h.dry c) _, lineOk_dlEnq (h.ht c) _, id, id, id, id⟩

theorem invParts_withChannels {s : State} (h : InvParts s) {l r : ChanUnits} (hl : KeepsUnits s.cfg (chanUnits s .left) l)
    (hr : KeepsUnits s.cfg (chanUnits s .right) r) : InvParts (withChannels s l r) :=
  { h with
    dry := forall_chan.mpr ⟨hl.dry, hr.dry⟩
    ht := forall_chan.mpr ⟨hl.ht, hr.ht⟩
    stage := forall_stage.mpr ⟨
      stageOk_mono (h.stage .inHpf) rfl rfl rfl rfl (forall_chan.mpr ⟨hl.inHpf, hr.inHpf⟩),
      stageOk_mono (h.stage .inLpf) rfl rfl rfl rfl (forall_chan.mpr ⟨hl.inLpf, hr.inLpf⟩),
      stageOk_mono (h.stage .outHpf) rfl rfl rfl rfl (forall_chan.mpr ⟨hl.outHpf, hr.outHpf⟩),
      stageOk_mono (h.stage .outLpf) rfl rfl rfl rfl (forall_chan.mpr ⟨hl.outLpf, hr.outLpf⟩)⟩ }

theorem invParts_frameDone {s : State} (h : InvParts s) (ready : FrameReady s) (aL aR : F64) :
    InvParts (frameDone s aL aR) := by
  have hunits := invParts_withChannels h (keepsUnits_frameUnits h 0 .left aL) (keepsUnits_frameUnits h 1 .right aR)
  rw [frameDone_eq]
  exact { hunits with
    dds := ddsOk_ddsAdvance h.dds ready.ddsValid
    ready := fun _ _ => (ddsAdvance_valid ..).trans ready.ddsValid }

theorem invParts_resetAll {s : State} (h : InvParts s) : InvParts (resetAll s) :=
  { h with
    dry := forall_chan.mpr ⟨lineOk_dlClear (h.dry .left), lineOk_dlClear (h.dry .right)⟩
    ht := forall_chan.mpr ⟨lineOk_dlClear (h.ht .left), lineOk_dlClear (h.ht .right)⟩
    firSized := forall_kind.mpr ⟨firSized_firReset (h.firSized .lpf), firSized_firReset (h.firSized .hpf)⟩
    dds := ddsOk_ddsReset h.dds
    stage := fun st => stageOk_mono (h.stage st) rfl rfl rfl rfl fun c hc => by cases st <;> cases c <;> exact hc
    fir := forall_kind.mpr ⟨h.fir .lpf, h.fir .hpf⟩ }

/-! ## Every command, every step -/

theorem invParts_setIir {s : State} (h : InvParts s) {st : Stage} {c : Chan} {u : Iir}
    (hu : ((s.iir.get st).get c).coefV = true → u.coefV = true) : InvParts (setIir s st c u) :=
  { h with stage := fun st' => stageOk_mono (h.stage st') rfl rfl rfl rfl (coefV_setIir hu st') }

theorem invParts_setFir {s : State} (h : InvParts s) {k : FilterKind} {u : Fir} (hsz : firSized s.cfg u = true)
    (hok : firOk k u = true) : InvParts { s with fir := s.fir.set k u } :=
  { h with
    firSized := PerKind.forall_get_set (P := fun _ u => firSized s.cfg u = true) hsz h.firSized
    fir := PerKind.forall_get_set (P := fun k u => firOk k u = true) hok h.fir }

theorem invParts_setDry {s : State} (h : InvParts s) {c : Chan} {u : DelayLine} (hu : lineOk s.cfg.dryCap u = true) :
    InvParts { s with dry := s.dry.set c u } :=
  { h with dry := Stereo.forall_get_set (P := fun u => lineOk s.cfg.dryCap u = true) hu h.dry }

theorem invParts_setHt {s : State} (h : InvParts s) {c : Chan} {u : DelayLine} (hu : lineOk s.cfg.htLen u = true) :
    InvParts { s with ht := s.ht.set c u } :=
  { h with ht := Stereo.forall_get_set (P := fun u => lineOk s.cfg.htLen u = true) hu h.ht }

/-- A DDS that keeps its ranges and does not lose its setup. -/
theorem invParts_setDds {s : State} (h : InvParts s) {d : Dds} (hd : ddsOk s.cfg d = true)
    (hv : s.dds.valid = true → d.valid = true) : InvParts { s with dds := d } :=
  { h with dds := hd, ready := fun hr hc => hv (h.ready hr hc) }

/-- The response, the command port and the NaN count are outside the invariant. -/
theorem invParts_congr {s : State} (h : InvParts s) (n : Nat) (cmds : List Packet) (resp : Option Response) :
    InvParts { s with nanCount := n, cmds := cmds, resp := resp } :=
  { h with }

theorem invParts_respondSilence {s : State} (h : InvParts s) (op : Op) (silL silR : Bool) (qs : List Word) :
    InvParts (respondSilence s op silL silR qs) := invParts_congr h _ _ _

theorem invParts_respondStatus {s : State} (h : InvParts s) (st : Status) (echo : Byte) :
    InvParts (respondStatus s st echo) := invParts_congr h _ _ _

theorem invParts_bumpNan {s : State} (h : InvParts s) : InvParts (bumpNan s) := invParts_congr h _ _ _

theorem invParts_respond {s : State} (h : InvParts s) (op : Op) (qs : List Word) : InvParts (respond s op qs) :=
  invParts_congr h _ _ _

/-- Every completed command keeps the invariant. -/
theorem invParts_of_completes {i : Instr} {s t : State} (h : InvParts s) (hc : Completes i s t) : InvParts t := by
  cases hc with
  | nop | readState | uddsRead | udlRead | setCarrierSame | setCutoffSame | setMixSame => exact invParts_respond h ..
  | udlReadPast => exact invParts_respondStatus h ..
  | bypassFrame => exact invParts_respondSilence h ..
  | umix => exact invParts_respond (invParts_bumpNan h) ..
  | configure dom => exact invParts_respond (invParts_configureAll h dom) ..
  | setCarrierLoad dom hne hr rate freq =>
    exact invParts_respond (invParts_carrierRegs h dom (ddsOk_ddsLoad h.cfg h.dds rate freq) fun _ => ddsLoad_valid ..) ..
  | setCarrierKeep dom hne hno =>
    exact invParts_respond (invParts_carrierRegs h dom h.dds fun hr => h.ready hr (hno hr).1) ..
  | setCutoffLoad dom below hne hr rate =>
    exact invParts_respond (invParts_cutoffRegs_load h dom fun _ => ⟨below, forall_chan.mpr ⟨rfl, rfl⟩⟩) ..
  | @setCutoffKeep st hz _ dom hne hr =>
    have := invParts_cutoffRegs_load (st := st) (hz := hz) (p := s.iir.get st) h dom
      fun hr' => absurd (hr.symm.trans hr') nofun
    rw [Staged.set_get] at this
    exact invParts_respond this ..
  | setMixStore dom => exact invParts_respond (invParts_setMix h dom) ..
  | frame ready => exact invParts_frameDone h ready _ _
  | reset => exact invParts_respond (invParts_resetAll h) ..
  | udlEnqueue => exact invParts_respond (invParts_setDry h (lineOk_dlEnq (h.dry _) _)) ..
  | udlReset => exact invParts_respond (invParts_setDry h (lineOk_dlClear (h.dry _))) ..
  | uddsSetup rate freq =>
    exact invParts_respond (invParts_setDds h (ddsOk_ddsLoad h.cfg h.dds rate freq) fun _ => ddsLoad_valid ..) ..
  | uddsProcess hv =>
    exact invParts_respond (invParts_setDds h (ddsOk_ddsAdvance h.dds hv) fun _ => by rw [ddsAdvance_valid, hv]) ..
  | uddsReset => exact invParts_respond (invParts_setDds h (ddsOk_ddsReset h.dds) id) ..
  | uhtProcess => exact invParts_respond (invParts_bumpNan (invParts_setHt h (lineOk_dlEnq (h.ht _) _))) ..
  | uhtReset => exact invParts_respond (invParts_setHt h (lineOk_dlClear (h.ht _))) ..
  | uiirSetup => exact invParts_respond (invParts_setIir h fun _ => rfl) ..
  | uiirProcess => exact invParts_respond (invParts_bumpNan (invParts_setIir h fun hv => (iirProcess_coefV ..).trans hv)) ..
  | uiirReset => exact invParts_respond (invParts_setIir h fun hv => (iirReset_coefV _).trans hv) ..
  | ufirSetup rate cutoff below =>
    exact invParts_respond (invParts_setFir h (firSized_firLoad h.cfg (h.firSized _) ..)
      (firOk_firLoad rate cutoff below ..)) ..
  | ufirProcess =>
    exact invParts_respond (invParts_bumpNan (invParts_setFir h (firSized_firProcess (h.firSized _) ..) (h.fir _))) ..
  | ufirReset => exact invParts_respond (invParts_setFir h (firSized_firReset (h.firSized _)) (h.fir _)) ..

/-- Every command that completes keeps the invariant. -/
theorem inv_of_exec {i : Instr} {s t : State} (hs : s.Inv) (h : exec i s = .next t) : t.Inv := by
  rw [inv_iff_parts] at *
  exact invParts_of_completes hs (completes_of_exec h)

/-- Settles O12: a step is nothing, one command, or the status of a rejected packet, and the command port is outside the
invariant. -/
theorem stepKeepsTheBlockInvariant : Obligations.StepKeepsTheBlockInvariant := by
  intro s t hs h
  have hport : ∀ cmds, InvParts { s with cmds := cmds } := fun cmds =>
    invParts_congr ((inv_iff_parts s).mp hs) s.nanCount cmds s.resp
  cases hcmds : s.cmds with
  | nil =>
    rw [step_of_idle hcmds] at h
    rwa [← eq_of_next h]
  | cons p rest =>
    rw [inv_iff_parts]
    cases hd : decode p with
    | ok i =>
      rw [step_of_decode_ok hcmds hd] at h
      exact invParts_of_completes (hport rest) (completes_of_exec h)
    | error e =>
      rw [step_of_decode_error hcmds hd] at h
      rw [← eq_of_next h]
      exact invParts_respondStatus (hport rest) ..

end Sys2Proof.Machine
end

section
/-! PROOFS. Refusals (`60_exceptions.md` R302, R304): a command is its requirements in order and then a completion; and the
answer of every command to its packet (`20_memory.md` R76, `30_encoding.md` R92). -/

namespace Sys2Proof.Machine

open Sys2Proof

/-! ## Requirements in order (R302) -/

/-- The answer of a command that makes its requirements in order and then completes with `t`. -/
def answer : List (Bool × Refusal) → State → Result
  | [], t => .next t
  | (b, e) :: rs, t => if !b then .refused e else answer rs t

/-- The same for the checks of CONFIGURE. -/
def checks : List (Bool × Refusal) → Except Refusal Unit
  | [] => .ok ()
  | (b, e) :: rs => if !b then .error e else checks rs

/-- The reason of the first requirement that fails. -/
def firstFailing (rs : List (Bool × Refusal)) : Option Refusal := (rs.find? fun r => !r.1).map fun r => r.2

theorem refusalOf_eq (s : State) (i : Instr) : refusalOf s i = firstFailing (requires s i) := rfl

theorem firstFailing_cons (b : Bool) (e : Refusal) (rs : List (Bool × Refusal)) :
    firstFailing ((b, e) :: rs) = if b then firstFailing rs else some e := by
  cases b <;> simp [firstFailing]

theorem answer_eq (rs : List (Bool × Refusal)) (t : State) :
    answer rs t = match firstFailing rs with | some e => .refused e | none => .next t := by
  induction rs with
  | nil => rfl
  | cons r rs ih =>
    obtain ⟨b, e⟩ := r
    rw [firstFailing_cons]
    cases b with
    | true => simpa [answer] using ih
    | false => rfl

theorem answer_of_failing {rs : List (Bool × Refusal)} {e : Refusal} (h : firstFailing rs = some e) (t : State) :
    answer rs t = .refused e := by rw [answer_eq, h]

theorem answer_of_none {rs : List (Bool × Refusal)} (h : firstFailing rs = none) (t : State) :
    answer rs t = .next t := by rw [answer_eq, h]

/-! ## The commands whose setups the invariant lets succeed (R262-R266) -/

/-- CONFIGURE makes its requirements in the order of R262: the four stages give one reason. -/
theorem configureChecks_eq (s : State) (fs : F64) : configureChecks s fs = checks (requires s (.configure fs)) := by
  have hfour : ∀ (a b c d : Bool) (x y : Except Refusal Unit), (if !(a && b && c && d) then x else y)
      = if !a then x else if !b then x else if !c then x else if !d then x else y := by
    intro a b c d x y
    cases a <;> cases b <;> cases c <;> cases d <;> rfl
  have himp : ∀ a b : Bool, (!(!a || b)) = (a && !b) := by decide
  simp only [configureChecks, requires, firRequires, checks, List.map_cons, List.map_nil, List.cons_append,
    List.nil_append, hfour, himp, PerKind.get_lpf, PerKind.get_hpf]
  rfl

theorem checks_of_failing {rs : List (Bool × Refusal)} {e : Refusal} (h : firstFailing rs = some e) :
    checks rs = .error e := by
  induction rs with
  | nil => cases h
  | cons r rs ih =>
    obtain ⟨b, e'⟩ := r
    rw [firstFailing_cons] at h
    cases b with
    | true => exact ih h
    | false => cases h; rfl

theorem checks_of_none {rs : List (Bool × Refusal)} (h : firstFailing rs = none) : checks rs = .ok () := by
  induction rs with
  | nil => rfl
  | cons r rs ih =>
    obtain ⟨b, e'⟩ := r
    rw [firstFailing_cons] at h
    cases b with
    | true => exact ih h
    | false => cases h

/-- Inside the invariant CONFIGURE's checks give the domain of every setup it runs. -/
theorem configureDomain_of_checks {s : State} (hs : s.Inv) {fs : F64} (h : configureChecks s fs = .ok ()) :
    ConfigureDomain s fs := by
  obtain ⟨hrate, hstage, hfir⟩ := configureChecks_ok h
  exact ⟨hrate, fun st hv => ⟨inv_cutoff hs st hv, hstage st hv⟩, fun hv => ddsFreqOk_fAbs (inv_carrier hs hv),
    fun k hv => ⟨inv_fir_cutoff hs k hv, hfir k hv⟩⟩

theorem exec_configure_answer {s : State} (hs : s.Inv) (fs : F64) :
    ∃ t, exec (.configure fs) s = answer (requires s (.configure fs)) t := by
  cases hf : firstFailing (requires s (.configure fs)) with
  | some e =>
    refine ⟨s, ?_⟩
    rw [answer_of_failing hf]
    simp only [exec, execConfigure, configureChecks_eq, checks_of_failing hf]
    rfl
  | none =>
    have hdom := configureDomain_of_checks hs ((configureChecks_eq s fs).trans (checks_of_none hf))
    exact ⟨_, by rw [answer_of_none hf]; exact exec_of_completes (.configure hdom)⟩

theorem exec_setCarrier_answer {s : State} (hs : s.Inv) (w : BitVec 8) (f : F64) :
    ∃ t, exec (.setCarrier w f) s = answer (requires s (.setCarrier w f)) t := by
  cases hf : carrierOk s.cfg f with
  | false => exact ⟨s, by simp [exec, execSetCarrier, requires, answer, hf]⟩
  | true => exact ⟨_, by simp only [requires, answer, hf]; exact exec_setCarrier hs w hf⟩

/-- SET_CUTOFF completes on its domain, in one of its three ways. -/
theorem exists_completes_setCutoff {s : State} (hs : s.Inv) (st : Stage) {hz : F64} (hc : cutoffOk hz = true)
    (hb : s.srV = true → twiceBelow hz s.sr = true) : ∃ t, Completes (.setCutoff st hz) s t := by
  cases hsame : s.fcV.get st && fEq hz (s.fc.get st) with
  | true =>
    rw [Bool.and_eq_true] at hsame
    exact ⟨_, .setCutoffSame hc hb hsame.1 hsame.2⟩
  | false =>
    cases hr : s.srV with
    | false => exact ⟨_, .setCutoffKeep hc hsame hr⟩
    | true => exact ⟨_, .setCutoffLoad hc (hb hr) hsame hr (filterRateOk_of_rateOk (inv_rate hs hr))⟩

theorem exec_setCutoff_answer {s : State} (hs : s.Inv) (st : Stage) (hz : F64) :
    ∃ t, exec (.setCutoff st hz) s = answer (requires s (.setCutoff st hz)) t := by
  cases hc : cutoffOk hz with
  | false => exact ⟨s, by simp [exec, execSetCutoff, requires, answer, hc]⟩
  | true =>
    cases hb : !s.srV || twiceBelow hz s.sr with
    | false =>
      have hb' : (s.srV && !twiceBelow hz s.sr) = true := by rw [← Bool.not_inj_iff]; simpa using hb
      exact ⟨s, by simp only [exec, execSetCutoff, requires, answer, hc, hb, hb']; rfl⟩
    | true =>
      obtain ⟨t, ht⟩ := exists_completes_setCutoff hs st hc (not_or_eq_true.mp hb)
      exact ⟨t, by simp only [requires, answer, hc, hb]; exact exec_of_completes ht⟩

/-- A configured block has every unit of a frame set up (R266). -/
theorem frameReady_of_inv {s : State} (hs : s.Inv) (hc : configured s = true) (hp : s.resetPending = false) :
    FrameReady s := by
  have h := hc
  simp only [configured, Bool.and_eq_true] at h
  obtain ⟨⟨⟨hsr, hcf⟩, ⟨⟨h0, h1⟩, h2⟩, h3⟩, -⟩ := h
  have hready : ∀ c, chanReady (chanUnits s c) = true := fun c => by
    have hst := fun st hv => inv_stage_ready hs st hv hsr c
    simp only [chanReady, chanUnits, Bool.and_eq_true]
    exact ⟨⟨⟨hst .inHpf h0, hst .inLpf h1⟩, hst .outHpf h2⟩, hst .outLpf h3⟩
  exact ⟨hc, hp, inv_dds_valid hs hsr hcf, hready .left, hready .right⟩

theorem exec_frame_answer {s : State} (hs : s.Inv) (silL silR : Bool) (inL inR : F64) :
    ∃ t, exec (.processFrame false silL silR inL inR) s = answer (requires s (.processFrame false silL silR inL inR)) t := by
  have hconf : (s.srV && s.cfV && s.fcV.inHpf && s.fcV.inLpf && s.fcV.outHpf && s.fcV.outLpf && s.mixV) = configured s := by
    simp only [configured, Bool.and_assoc]
  cases hc : configured s with
  | false => exact ⟨s, by simp [exec, execProcessFrame, requires, answer, hconf, hc]⟩
  | true =>
    cases hp : s.resetPending with
    | true => exact ⟨s, by simp [exec, execProcessFrame, requires, answer, hconf, hc, hp]⟩
    | false =>
      refine ⟨frameDone s (frameInput silL inL) (frameInput silR inR), ?_⟩
      rw [exec_of_completes (.frame (frameReady_of_inv hs hc hp))]
      simp only [requires, answer, hconf, hc, hp]
      rfl

/-! ## The unit commands with requirements (R141, R142, R201, R202, R207, R208) -/

theorem exec_uddsSetup_answer (s : State) (fs f : F64) :
    ∃ t, exec (.uddsSetup fs f) s = answer (requires s (.uddsSetup fs f)) t := by
  refine ⟨respond { s with dds := ddsLoad s.cfg s.dds fs f } .uddsSetup [], ?_⟩
  simp only [exec, execUddsSetup, ddsSetup, requires, answer]
  cases rateOk fs with
  | false => rfl
  | true => cases ddsFreqOk s.cfg f <;> rfl

theorem exec_uiirSetup_answer (s : State) (st : Stage) (c : Chan) (fs fc : F64) :
    ∃ t, exec (.uiirSetup st c fs fc) s = answer (requires s (.uiirSetup st c fs fc)) t := by
  refine ⟨respond (setIir s st c (iirLoad s.cfg st.kind (getIir s st c) fs fc)) .uiirSetup [], ?_⟩
  simp only [exec, execUiirSetup, iirSetup, requires, answer]
  cases filterRateOk fs with
  | false => rfl
  | true => cases cutoffOk fc && twiceBelow fc fs <;> rfl

theorem exec_ufirSetup_answer (s : State) (k : FilterKind) (fs fc : F64) :
    ∃ t, exec (.ufirSetup k fs fc) s = answer (requires s (.ufirSetup k fs fc)) t := by
  refine ⟨respond { s with fir := s.fir.set k (firLoad s.cfg k (s.fir.get k) fs fc) } .ufirSetup [], ?_⟩
  simp only [exec, execUfirSetup, firSetup, requires, answer]
  cases filterRateOk fs with
  | false => rfl
  | true =>
    cases firCutoffOk fc && twiceBelow fc fs with
    | false => rfl
    | true => cases firSumPositive s.cfg.firLen fs fc <;> rfl

/-- Inside the invariant a command is its requirements and then a completion. -/
theorem exec_answer {s : State} (hs : s.Inv) (i : Instr) : ∃ t, exec i s = answer (requires s i) t := by
  cases i with
  | configure fs => exact exec_configure_answer hs fs
  | setCarrier w f => exact exec_setCarrier_answer hs w f
  | setCutoff st hz => exact exec_setCutoff_answer hs st hz
  | setMix wet =>
    simp only [exec, execSetMix, requires, answer]
    cases s.mixV && fEq wet s.wet <;> exact ⟨_, rfl⟩
  | processFrame bypass silL silR inL inR =>
    cases bypass with
    | true => exact ⟨_, rfl⟩
    | false => exact exec_frame_answer hs silL silR inL inR
  | uddsSetup fs f => exact exec_uddsSetup_answer s fs f
  | uiirSetup st c fs fc => exact exec_uiirSetup_answer s st c fs fc
  | ufirSetup k fs fc => exact exec_ufirSetup_answer s k fs fc
  | udlRead c i =>
    simp only [exec, execUdlRead, requires, answer]
    split <;> exact ⟨_, rfl⟩
  | uddsProcess | uiirProcess | ufirProcess => exact ⟨_, rfl⟩
  | nop | reset | readState | udlEnqueue | udlReset | uddsReset | uddsRead | uhtProcess | uhtReset | uiirReset | ufirReset
  | umix => exact ⟨_, rfl⟩

/-- Settles O11: the command is its requirements in order, so the first that fails gives the reason. -/
theorem refusedExactlyWhereARequireFails : Obligations.RefusedExactlyWhereARequireFails := by
  intro i s hs
  obtain ⟨t, ht⟩ := exec_answer hs i
  rw [refusalOf_eq, ht]
  exact ⟨fun e he => answer_of_failing he t, fun hnone => ⟨t, answer_of_none hnone t⟩⟩

/-! ## Every packet is answered once (R76, R92) -/

/-- The fields of a status word. -/
theorem statusWord_fields (st : Status) (echo : Byte) (silL silR : Bool) :
    bitsOf (statusWord st echo silL silR) 15 8 = echo.toNat
      ∧ bitsOf (statusWord st echo silL silR) 63 18 = 0
      ∧ bitsOf (statusWord st echo silL silR) 17 16 = silL.toNat + 2 * silR.toNat := by
  have hcode := statusCode_lt st
  have hecho := echo.isLt
  have hL := silL.toNat_le
  have hR := silR.toNat_le
  simp only [bitsOf, statusWord, BitVec.toNat_ofNat]
  omega

/-- The response of a completed command: its status is OK or OPERAND_RANGE, it echoes the command's opcode, and only a bypass
frame sets silence bits. -/
structure AnswersCommand (i : Instr) (op : Op) (t : State) : Prop where
  opcode : opcField ((encodeWords i).headD 0) = opCode op
  response : ∃ st silL silR qs, t.resp = some ⟨statusWord st (opCode op) silL silR, qs⟩
    ∧ (st = .ok ∨ st = .operandRange)
    ∧ (silL = true ∨ silR = true → ∃ l r inL inR, i = .processFrame true l r inL inR)

theorem answersCommand_respond {i : Instr} {op : Op} (s : State) (qs : List Word)
    (h : opcField ((encodeWords i).headD 0) = opCode op) : AnswersCommand i op (respond s op qs) :=
  ⟨h, .ok, false, false, qs, rfl, .inl rfl, by simp⟩

theorem exists_answersCommand {i : Instr} {s t : State} (h : Completes i s t) : ∃ op, AnswersCommand i op t := by
  cases h with
  | bypassFrame => exact ⟨.processFrame, opcField_headerWord .., .ok, _, _, _, rfl, .inl rfl, fun _ => ⟨_, _, _, _, rfl⟩⟩
  | frame => exact ⟨.processFrame, opcField_headerWord .., .ok, false, false, _, rfl, .inl rfl, by simp⟩
  | udlReadPast => exact ⟨.udlRead, opcField_headerWord .., .operandRange, false, false, _, rfl, .inr rfl, by simp⟩
  | _ => exact ⟨_, answersCommand_respond _ _ (opcField_headerWord ..)⟩

theorem answersCommand_bits {i : Instr} {op : Op} {t : State} (h : AnswersCommand i op t) : ∃ r, t.resp = some r
    ∧ bitsOf r.status 15 8 = bitsOf ((encodeWords i).headD 0) 7 0 ∧ bitsOf r.status 63 18 = 0
    ∧ (bitsOf r.status 7 0 = 0 ∨ bitsOf r.status 7 0 = 5)
    ∧ (bitsOf r.status 17 16 ≠ 0 → ∃ silL silR inL inR, i = .processFrame true silL silR inL inR) := by
  obtain ⟨hop, st, silL, silR, qs, hresp, hst, hsil⟩ := h
  obtain ⟨hecho, hrest, hbits⟩ := statusWord_fields st (opCode op) silL silR
  refine ⟨_, hresp, by rw [hecho, ← hop, toNat_opcField], hrest, ?_, fun hne => hsil ?_⟩
  · rw [bitsOf_statusWord]
    exact hst.imp (fun e => by rw [e]; rfl) (fun e => by rw [e]; rfl)
  · rw [hbits] at hne
    cases silL <;> cases silR <;> simp at hne ⊢

/-- No command takes a packet of the port. -/
theorem cmds_of_completes {i : Instr} {s t : State} (h : Completes i s t) : t.cmds = s.cmds := by
  cases h <;> rfl

/-- Settles O9: the step moves the port past one packet and leaves a response, and the response of a command is its own. -/
theorem eachPacketIsAnsweredOnce : Obligations.EachPacketIsAnsweredOnce := by
  refine ⟨fun s t h => ?_, fun i s t h => ?_⟩
  · cases hcmds : s.cmds with
    | nil =>
      rw [step_of_idle hcmds] at h
      rw [← eq_of_next h, hcmds]
      exact ⟨rfl, fun hne => absurd rfl hne⟩
    | cons p rest =>
      cases hd : decode p with
      | ok i =>
        rw [step_of_decode_ok hcmds hd] at h
        have hdone := completes_of_exec h
        obtain ⟨op, -, st, silL, silR, qs, hresp, -⟩ := exists_answersCommand hdone
        exact ⟨cmds_of_completes hdone, fun _ => by rw [hresp]; nofun⟩
      | error e =>
        rw [step_of_decode_error hcmds hd] at h
        rw [← eq_of_next h]
        exact ⟨rfl, fun _ => nofun⟩
  · obtain ⟨op, hans⟩ := exists_answersCommand (completes_of_exec h)
    exact answersCommand_bits hans

end Sys2Proof.Machine
end

section
/-! PROOFS. The commands on single units: delay lines (`40_delay_line.md`), Hilbert transformers (`42_hilbert.md`) and filters
(`43_filters.md`) as equations, and what any run of enqueues reads back. -/

namespace Sys2Proof.Machine

open Sys2Proof

/-! ## One enqueue (R121-R123) -/

theorem dlEnq_eq {cap : Nat} {u : DelayLine} (h : u.buf.length = cap) (v : F64) :
    dlEnq u v = { buf := u.buf.set ((u.wp + 1) % cap) v, wp := (u.wp + 1) % cap } := by
  rw [← h]
  rfl

/-- Settles O22. -/
theorem enqueueShiftsAndClearZeroesTheDelayLine : Obligations.EnqueueShiftsAndClearZeroesTheDelayLine := by
  intro cap u v h
  obtain ⟨hlen, hwp⟩ := lineOk_iff.mp h
  refine ⟨dlEnq_eq hlen v, lineOk_dlEnq h v, dlRead_dlEnq_zero (by omega) v, fun i hi => ?_, dlClear_eq_lineAtRest hlen,
    fun i _ => dlRead_dlClear u i⟩
  exact dlRead_dlEnq_succ (by omega) v (by omega)

/-! ## Any number of enqueues (R127) -/

theorem lineOk_foldl {cap : Nat} {u : DelayLine} (h : lineOk cap u = true) (vs : List F64) :
    lineOk cap (vs.foldl dlEnq u) = true := by
  induction vs generalizing u with
  | nil => exact h
  | cons v vs ih => exact ih (lineOk_dlEnq h v)

/-- A run of enqueues is a delay in front of what the line held. -/
theorem dlRead_foldl {cap : Nat} {u : DelayLine} (h : lineOk cap u = true) (vs : List F64) : ∀ i < cap,
    dlRead (vs.foldl dlEnq u) i = if h : i < vs.length then vs[vs.length - 1 - i] else dlRead u (i - vs.length) := by
  induction vs using List.reverseRecOn with
  | nil => intro i _; simp
  | append_singleton vs v ih =>
    intro i hi
    obtain ⟨hlen, hwp⟩ := lineOk_iff.mp (lineOk_foldl h vs)
    rw [List.foldl_append, List.foldl_cons, List.foldl_nil]
    cases i with
    | zero => rw [dlRead_dlEnq_zero (by omega)]; simp
    | succ i =>
      rw [dlRead_dlEnq_succ (by omega) _ (by omega), ih i (by omega)]
      simp only [List.length_append, List.length_singleton]
      by_cases hin : i < vs.length
      · rw [dif_pos hin, dif_pos (by omega), List.getElem_append_left (by omega)]
        congr 1
        omega
      · rw [dif_neg hin, dif_neg (by omega)]
        congr 1
        omega

/-- After a clear the line is a pure delay. -/
theorem dlRead_foldl_dlClear {cap : Nat} {u : DelayLine} (h : lineOk cap u = true) (vs : List F64) {i : Nat} (hi : i < cap) :
    dlRead (vs.foldl dlEnq (dlClear u)) i = if h : i < vs.length then vs[vs.length - 1 - i] else posZero := by
  rw [dlRead_foldl (lineOk_dlClear h) vs i hi, dlRead_dlClear]

/-- A line at power-on is a cleared one. -/
theorem powerOn_eq_dlClear (cap : Nat) : DelayLine.powerOn cap = dlClear (DelayLine.powerOn cap) := by
  simp [DelayLine.powerOn, dlClear, posZero]

/-- Settles O23. -/
theorem clearedDelayLineIsAPureDelay : Obligations.ClearedDelayLineIsAPureDelay := by
  intro cap u vs i hi
  refine ⟨fun h => dlRead_foldl_dlClear h vs hi, ?_⟩
  rw [powerOn_eq_dlClear]
  exact dlRead_foldl_dlClear (lineOk_powerOn (by omega)) vs hi

/-! ## The commands on the dry lines (R124-R126) -/

/-- Settles O24: the commands as they complete, on a line of the capacity the invariant gives. -/
theorem delayLineCommandsComplete : Obligations.DelayLineCommandsComplete := by
  intro s c x i hs u w
  obtain ⟨hlen, -⟩ := lineOk_iff.mp (inv_dry hs c)
  refine ⟨?enqueue, ?reset, fun hi => ?read, fun hi => exec_of_completes (.udlReadPast hi)⟩
  case enqueue => rw [exec_of_completes .udlEnqueue, dlEnq_eq hlen]; rfl
  case reset => rw [exec_of_completes .udlReset, dlClear_eq_lineAtRest hlen]; rfl
  case read => rw [exec_of_completes (.udlRead hi), dlRead, hlen]; rfl

/-! ## Hilbert transformers (R181-R186) -/

/-- Settles O32. -/
theorem hilbertCommandsComplete : Obligations.HilbertCommandsComplete := by
  intro s c x hs u
  obtain ⟨hlen, -⟩ := lineOk_iff.mp (inv_ht hs c)
  exact ⟨⟨_, isHtSum_htSum (nanTag s) s.cfg u, exec_of_completes .uhtProcess⟩, exec_uhtReset hlen⟩

theorem execAll_append {is js : List Instr} {s t : State} (h : execAll (is ++ js) s = .next t) :
    ∃ m, execAll is s = .next m ∧ execAll js m = .next t := by
  induction is generalizing s with
  | nil => exact ⟨s, rfl, h⟩
  | cons i is ih =>
    rw [List.cons_append, execAll] at h
    split at h
    next a ha =>
      obtain ⟨m, hm, ht⟩ := ih h
      exact ⟨m, by rw [execAll, ha]; exact hm, ht⟩
    · cases h
    · cases h

theorem execAll_singleton {i : Instr} {s t : State} (h : execAll [i] s = .next t) : exec i s = .next t := by
  rw [execAll] at h
  split at h
  next a ha => rw [ha]; exact h
  · cases h
  · cases h

/-- A run of commands that each do `g` to one part of the state folds `g` over their operands. -/
theorem execAll_map_foldl {α β : Type} (cmd : β → Instr) (part : State → α) (g : α → β → α)
    (hcmd : ∀ x s t, exec (cmd x) s = .next t → part t = g (part s) x) (xs : List β) :
    ∀ s t, execAll (xs.map cmd) s = .next t → part t = xs.foldl g (part s) := by
  induction xs with
  | nil => intro s t h; rw [← eq_of_next h]; rfl
  | cons x xs ih =>
    intro s t h
    obtain ⟨m, hm, ht⟩ := execAll_append (is := [cmd x]) h
    rw [ih m t ht, hcmd x s m (execAll_singleton hm)]
    rfl

theorem ht_of_uhtProcess {c : Chan} (x : F64) {s t : State} (h : exec (.uhtProcess c x) s = .next t) :
    (t.cfg, t.ht.get c) = (s.cfg, dlEnq (s.ht.get c) x) := by
  cases completes_of_exec h
  rw [respond_cfg, respond_ht, bumpNan_cfg, bumpNan_ht, Stereo.get_set_same]

theorem foldl_pair {α β γ : Type} (g : α → β → α) (k : γ) (xs : List β) (a : α) :
    xs.foldl (fun p x => (p.1, g p.2 x)) (k, a) = (k, xs.foldl g a) := by
  induction xs generalizing a with
  | nil => rfl
  | cons x xs ih => exact ih _

/-- The sample read `k` back once the operands of a run have been enqueued, the newest last. -/
theorem dlRead_run {cap : Nat} {u : DelayLine} (h : lineOk cap u = true) (xs : List F64) (x : F64) {k : Nat} (hk : k < cap) :
    dlRead (dlEnq (xs.foldl dlEnq (dlClear u)) x) k
      = if _h : k ≤ xs.length then (xs ++ [x])[xs.length - k]'(by simp) else posZero := by
  have hrun := dlRead_foldl_dlClear h (xs ++ [x]) hk
  rw [List.foldl_append, List.foldl_cons, List.foldl_nil] at hrun
  rw [hrun]
  simp only [List.length_append, List.length_singleton, Nat.add_sub_cancel, Nat.lt_succ_iff]

theorem valid_centreH {c : Config} (h : c.valid = true) : c.centreH < c.htLen := by
  obtain ⟨-, hht, -⟩ := valid_sizes h
  rw [Config.centreH]
  omega

theorem valid_centreF {c : Config} (h : c.valid = true) : c.centreF < c.firLen := by
  obtain ⟨-, -, -, hfir, -⟩ := valid_sizes h
  rw [Config.centreF]
  omega

/-- Settles O33: the run enqueues its operands on a cleared line, and the in-phase output is the read at `C_H`. -/
theorem inPhaseOutputIsTheDelayedInput : Obligations.InPhaseOutputIsTheDelayedInput := by
  intro s a t c xs x hs ha hrun
  rw [List.map_append] at hrun
  obtain ⟨m, hm, ht⟩ := execAll_append hrun
  have hline := execAll_map_foldl (Instr.uhtProcess c) (fun s => (s.cfg, s.ht.get c)) (fun p x => (p.1, dlEnq p.2 x))
    (fun x s t h => ht_of_uhtProcess x h) xs a m hm
  cases completes_of_exec ha
  rw [foldl_pair, respond_cfg, respond_ht, Stereo.get_set_same, Prod.mk.injEq] at hline
  obtain ⟨hcfg, hline⟩ := hline
  cases completes_of_exec (execAll_singleton ht)
  refine ⟨htSum (nanTag m) m.cfg (dlEnq (m.ht.get c) x), ?_⟩
  rw [respond_resp, hline, hcfg, dlRead_run (inv_ht hs c) xs x (valid_centreH (inv_cfg hs))]
  rfl

/-! ## Biquads (R201, R202) -/

theorem stage_kind_eq (st : Stage) : st.kind = if st = .inHpf ∨ st = .outHpf then .hpf else .lpf := by
  cases st <;> rfl

/-- Settles O35. -/
theorem biquadSetupLoadsCoefficients : Obligations.BiquadSetupLoadsCoefficients := by
  intro s st c fs fc hfs hfc hb
  rw [← stage_kind_eq]
  exact exec_of_completes (.uiirSetup hfs hfc hb)

/-- Settles O36. -/
theorem biquadProcessAppliesTheRecurrence : Obligations.BiquadProcessAppliesTheRecurrence := by
  intro s st c x hv u
  exact ⟨_, isIirOut_iirOut (nanTag s) u x, exec_of_completes (.uiirProcess hv)⟩

/-! ## FIRs (R207, R208) -/

theorem firLoad_eq_firWith {cfg : Config} (hp : fFinite cfg.firPassHz = true) (k : FilterKind) (u : Fir) (fs : F64) {fc : F64}
    (hfc : fFinite fc = true) : firLoad cfg k u fs fc = firWith cfg k u fs fc := by
  have hle : fLe cfg.firPassHz fc = decide (fVal cfg.firPassHz ≤ fVal fc) := by
    rw [Bool.eq_iff_iff, fLe_iff hp hfc, decide_eq_true_iff]
  rw [firLoad, firWith, hle]
  cases k <;> rfl

/-- The model's test of the sign is the domain of the cutoff. -/
theorem firSumPositive_of_cutoff (len : Nat) (fs : F64) {fc : F64} (h : firCutoffOk fc = true) :
    firSumPositive len fs fc = true := by
  rw [firCutoffOk, Bool.and_eq_true] at h
  exact h.2

/-- Settles O38: `S` has the sign of the cutoff, and the loaded registers are those of R207. -/
theorem firSetupBuildsTheKernel : Obligations.FirSetupBuildsTheKernel := by
  intro s k fs fc hs hfs hfc hb
  have hc := inv_cfg hs
  obtain ⟨-, -, -, hlen, hodd⟩ := valid_sizes hc
  obtain ⟨hfin, hpos⟩ := (firCutoffOk_iff fc).mp hfc
  obtain ⟨-, hrate⟩ := (filterRateOk_iff fs).mp hfs
  obtain ⟨-, -, hbelow⟩ := (twiceBelow_iff fc fs).mp hb
  refine ⟨fun v hv => (firSum_sign _ fs fc v hv hlen hodd hrate (by linarith) hbelow).mpr hpos, ?_, firCoef_length hc k fs fc⟩
  rw [exec_of_completes (.ufirSetup hfs hfc hb (firSumPositive_of_cutoff _ fs hfc)),
    firLoad_eq_firWith (inv_firPassHz hs) k _ fs hfin]
  rfl

/-- Settles O39. -/
theorem firProcessConvolvesOrDelays : Obligations.FirProcessConvolvesOrDelays := by
  intro s k x hv u dl
  refine ⟨(firProcess (nanTag s) s.cfg u x).2, ?_, exec_of_completes (.ufirProcess hv)⟩
  by_cases hp : u.pass = true
  · rw [if_pos hp]
    exact if_pos hp
  · rw [if_neg hp, show (firProcess (nanTag s) s.cfg u x).2 = firSumOut (nanTag s) s.cfg u dl from if_neg hp]
    exact isFirSum_firSumOut (nanTag s) s.cfg u dl

theorem fir_of_ufirProcess {k : FilterKind} (x : F64) {s t : State} (h : exec (.ufirProcess k x) s = .next t) :
    ((t.cfg, (t.fir.get k).pass), (t.fir.get k).dl) = ((s.cfg, (s.fir.get k).pass), dlEnq (s.fir.get k).dl x) := by
  cases completes_of_exec h
  rw [respond_cfg, respond_fir, bumpNan_cfg, bumpNan_fir, PerKind.get_set_same]
  rfl

/-- Settles O40: as for the in-phase output, with the read at `C_F` that the pass-through bit selects. -/
theorem firPassThroughIsAPureDelay : Obligations.FirPassThroughIsAPureDelay := by
  intro s a t xs x hs hpass ha hrun
  rw [List.map_append] at hrun
  obtain ⟨m, hm, ht⟩ := execAll_append hrun
  have hline := execAll_map_foldl (Instr.ufirProcess .lpf) (fun s => ((s.cfg, (s.fir.get .lpf).pass), (s.fir.get .lpf).dl))
    (fun p x => (p.1, dlEnq p.2 x)) (fun x s t h => fir_of_ufirProcess x h) xs a m hm
  cases completes_of_exec ha
  rw [foldl_pair, respond_cfg, respond_fir, PerKind.get_set_same, Prod.mk.injEq, Prod.mk.injEq] at hline
  obtain ⟨⟨hcfg, hmpass⟩, hline⟩ := hline
  have hmpass : (m.fir.get .lpf).pass = true := hmpass.trans hpass
  cases completes_of_exec (execAll_singleton ht)
  have hout : (firProcess (nanTag m) m.cfg (m.fir.get .lpf) x).2
      = dlRead (dlEnq (m.fir.get .lpf).dl x) m.cfg.centreF := if_pos hmpass
  rw [respond_resp, hout, hline, hcfg, firReset,
    dlRead_run (inv_fir_dl hs .lpf) xs x (valid_centreF (inv_cfg hs))]
  rfl

/-- Settles O34: the four coefficient lists are evaluated. -/
theorem referenceCoefficientsMatchTheExamples : Obligations.ReferenceCoefficientsMatchTheExamples := by
  refine ⟨?_, ?_, ?_, ?_⟩ <;> decide +kernel

end Sys2Proof.Machine
end

section
/-! PROOFS. The commands on the core as a whole (`45_pipeline.md`, `44_mixer.md`): the setters as equations, the switching
flag, and the frame with its wet and dry extremes. -/

namespace Sys2Proof.Machine

open Sys2Proof

/-! ## The switching flag (`44_mixer.md` R241-R245) -/

theorem selectLower_eq_xor (sw : Bool) {f : F64} (hf : fFinite f = true) :
    selectLower sw f = (sw ^^ decide (fVal f < 0)) := by
  rw [selectLower, carrierNeg_eq_decide hf]
  cases sw <;> simp

/-- The flip test keeps the formula: it toggles `SW` exactly where the sign class changes. -/
theorem selectLower_swAfterCarrier (sw : Bool) (cf f : F64) :
    selectLower (swAfterCarrier sw true cf f) f = selectLower sw cf := by
  rw [swAfterCarrier, selectLower, selectLower]
  cases carrierNeg cf <;> cases carrierNeg f <;> cases sw <;> rfl

/-- Settles O42: where the carrier registers change, the flip test has kept the formula. -/
theorem setCarrierNeverChangesTheFormula : Obligations.SetCarrierNeverChangesTheFormula := by
  refine ⟨fun sw f hf => selectLower_eq_xor sw hf, fun s t w f hv h => ?_⟩
  cases completes_of_exec h with
  | setCarrierSame => rfl
  | setCarrierLoad | setCarrierKeep =>
    have := selectLower_swAfterCarrier s.sw s.cf f
    rwa [← hv] at this

theorem swAfterCarrier_ne {sw cfV : Bool} {cf f : F64} (h : swAfterCarrier sw cfV cf f ≠ sw) :
    cfV = true ∧ carrierNeg cf ≠ carrierNeg f := by
  rw [swAfterCarrier] at h
  split at h
  next hflip => rwa [Bool.and_eq_true, bne_iff_ne] at hflip
  next => exact absurd rfl h

theorem swAfterFrame_ne {sw : Bool} {xH : F64} (h : swAfterFrame sw xH ≠ sw) :
    sw = true ∧ swAfterFrame sw xH = false ∧ fLt (fAbs xH) swThresh = true := by
  rw [swAfterFrame] at *
  split at h
  next hclear =>
    rw [if_pos hclear]
    rw [Bool.and_eq_true] at hclear
    exact ⟨hclear.1, rfl, hclear.2⟩
  next => exact absurd rfl h

/-- The clear test compares the magnitude of the quadrature sample with the threshold (R243). -/
theorem clearTest_iff {xH : F64} (h : fFinite xH = true) :
    fLt (fAbs xH) swThresh = true ↔ |fVal xH| < fVal swThresh := by
  rw [fLt_iff (by rw [fFinite_fAbs, h]) (by decide), fVal_fAbs]

theorem signClass_ne {s : State} (hs : s.Inv) {f : F64} (hf : fFinite f = true)
    (h : swAfterCarrier s.sw s.cfV s.cf f ≠ s.sw) : s.cfV = true ∧ (fVal s.cf < 0 ↔ ¬ fVal f < 0) := by
  obtain ⟨hv, hne⟩ := swAfterCarrier_ne h
  rw [carrierNeg_eq_decide (inv_carrier_finite hs hv), carrierNeg_eq_decide hf, ne_eq, decide_eq_decide] at hne
  exact ⟨hv, by tauto⟩

/-- Settles O43: every other command answers a state with the flag it found. -/
theorem onlyThreeCommandsWriteTheSwitchingFlag : Obligations.OnlyThreeCommandsWriteTheSwitchingFlag := by
  intro i s t hs h hne
  cases completes_of_exec h with
  | setCarrierLoad dom | setCarrierKeep dom =>
    obtain ⟨hv, hclass⟩ := signClass_ne hs (fFinite_of_carrierOk dom) hne
    exact .inl ⟨_, _, rfl, hv, hclass⟩
  | frame ready =>
    obtain ⟨hsw, hoff, hclear⟩ := swAfterFrame_ne hne
    exact .inr (.inl ⟨_, _, _, _, rfl, hsw, hoff, (clearTest_iff (lookup_finite (inv_cfg hs) ..).2).mp hclear⟩)
  | reset => exact .inr (.inr ⟨rfl, rfl⟩)
  | _ => exact absurd rfl hne

/-! ## READ_STATE (R268) -/

/-- The number whose binary digits are the list, the least significant first. -/
def packBits (l : List Bool) : Nat := l.foldr Nat.bit 0

theorem testBit_packBits (l : List Bool) (j : Nat) : (packBits l).testBit j = l.getD j false := by
  induction l generalizing j with
  | nil => simp [packBits]
  | cons b l ih =>
    rw [packBits, List.foldr_cons]
    cases j with
    | zero => simp
    | succ j => rw [Nat.testBit_bit_succ, List.getD_cons_succ]; exact ih j

/-- The observation bits in their order. -/
def stateBits (s : State) : List Bool :=
  [s.sw, s.resetPending, s.srV, s.cfV, s.fcV.inHpf, s.fcV.inLpf, s.fcV.outHpf, s.fcV.outLpf, s.mixV, s.dds.valid,
    s.fir.lpf.coefV, s.fir.hpf.coefV, s.fir.lpf.pass, s.fir.hpf.pass]

theorem stateWord_eq_packBits (s : State) : stateWord s = BitVec.ofNat 64 (packBits (stateBits s)) := by
  simp only [stateWord, stateBits, packBits, List.foldr_cons, List.foldr_nil, Nat.bit_val]
  congr 1
  ring

/-- Bit `j` of the observation word. -/
theorem getLsbD_stateWord (s : State) (j : Nat) :
    (stateWord s).getLsbD j = (decide (j < 64) && (stateBits s).getD j false) := by
  rw [stateWord_eq_packBits, BitVec.getLsbD_ofNat, testBit_packBits]

/-- Settles O44: the bits of the observation word are read off its list. -/
theorem nopAndReadStateComplete : Obligations.NopAndReadStateComplete := by
  intro s
  refine ⟨exec_of_completes .nop, stateWord s, exec_of_completes .readState, ?_⟩
  simp only [getLsbD_stateWord]
  refine ⟨rfl, rfl, rfl, rfl, rfl, rfl, rfl, rfl, rfl, rfl, rfl, rfl, rfl, rfl, fun j hj => ?_⟩
  rw [List.getD_eq_default _ _ hj, Bool.and_false]

/-! ## CONFIGURE (R262) -/

theorem firReload_eq_firAfter {s : State} (hs : s.Inv) (fs : F64) (k : FilterKind) : firReload s fs k = firAfter s fs k := by
  rw [firReload, firAfter]
  split
  next hv => exact firLoad_eq_firWith (inv_firPassHz hs) k _ fs ((firCutoffOk_iff _).mp (inv_fir_cutoff hs k hv)).1
  next => rfl

/-- `RESET_PENDING` after CONFIGURE asks for the value of the old rate, where there is one. -/
theorem rateDiffers_eq {s : State} (hs : s.Inv) {fs : F64} (hfs : fFinite fs = true) :
    (s.resetPending || !s.srV || !fEq fs s.sr) = (s.resetPending || !s.srV || decide (fVal fs ≠ fVal s.sr)) := by
  cases hr : s.srV with
  | false => simp
  | true => rw [fEq_eq_decide hfs (fFinite_of_rateOk (inv_rate hs hr)), ← decide_not]

/-- Inside the invariant the domain of CONFIGURE is a bound on each cutoff (R262). -/
theorem configureDomain_of_inv {s : State} (hs : s.Inv) {fs : F64} (hfs : rateOk fs = true)
    (hst : ∀ st, s.fcV.get st = true → 2 * fVal (s.fc.get st) < fVal fs)
    (hfir : ∀ k, (s.fir.get k).coefV = true → 2 * fVal (s.fir.get k).fc < fVal fs) : ConfigureDomain s fs where
  rate := hfs
  stage st hv := by
    have hc := inv_cutoff hs st hv
    exact ⟨hc, (twiceBelow_iff _ _).mpr ⟨((cutoffOk_iff _).mp hc).1, fFinite_of_rateOk hfs, hst st hv⟩⟩
  carrier hv := ddsFreqOk_fAbs (inv_carrier hs hv)
  fir k hv := by
    have hc := inv_fir_cutoff hs k hv
    exact ⟨hc, (twiceBelow_iff _ _).mpr ⟨((firCutoffOk_iff _).mp hc).1, fFinite_of_rateOk hfs, hfir k hv⟩,
      firSumPositive_of_cutoff _ _ hc⟩

/-- Settles O45: CONFIGURE completes with the setups of `configureAll`, which are the statement's. -/
theorem configurePropagatesTheRate : Obligations.ConfigurePropagatesTheRate := by
  intro s fs hs hfs hst hfir
  rw [exec_of_completes (.configure (configureDomain_of_inv hs hfs hst hfir)), ← fAbs_eq_and,
    ← rateDiffers_eq hs (fFinite_of_rateOk hfs), ← firReload_eq_firAfter hs, ← firReload_eq_firAfter hs]
  rfl

/-! ## SET_CUTOFF (R264) -/

theorem cutoffUnchanged_eq {s : State} (hs : s.Inv) (st : Stage) {hz : F64} (hf : fFinite hz = true) :
    (s.fcV.get st && fEq hz (s.fc.get st)) = (s.fcV.get st && decide (fVal hz = fVal (s.fc.get st))) := by
  cases hv : s.fcV.get st with
  | false => rfl
  | true => rw [fEq_eq_decide hf ((cutoffOk_iff _).mp (inv_cutoff hs st hv)).1]

/-- Settles O47: one way of completing for each branch of the statement. -/
theorem setCutoffReloadsTheStage : Obligations.SetCutoffReloadsTheStage := by
  intro s st hz hs hc hb k p
  have hf := ((cutoffOk_iff hz).mp hc).1
  have hbelow : s.srV = true → twiceBelow hz s.sr = true := fun hr =>
    (twiceBelow_iff _ _).mpr ⟨hf, fFinite_of_rateOk (inv_rate hs hr), hb hr⟩
  have hk : k = iirCoef s.cfg st.kind s.sr hz := by rw [stage_kind_eq]
  rw [← cutoffUnchanged_eq hs st hf, hk]
  cases hsame : s.fcV.get st && fEq hz (s.fc.get st) with
  | true =>
    rw [if_pos rfl]
    rw [Bool.and_eq_true] at hsame
    exact exec_of_completes (.setCutoffSame hc hbelow hsame.1 hsame.2)
  | false =>
    rw [if_neg Bool.false_ne_true]
    rcases Bool.eq_false_or_eq_true s.srV with hr | hr
    · rw [if_pos hr]
      exact exec_of_completes (.setCutoffLoad hc (hbelow hr) hsame hr (filterRateOk_of_rateOk (inv_rate hs hr)))
    · rw [if_neg (by simp [hr])]
      exact exec_of_completes (.setCutoffKeep hc hsame hr)

/-! ## SET_MIX (R265) -/

/-- A value other than zero has one pattern. -/
theorem eq_of_fVal_eq {a b : F64} (h : fVal a = fVal b) (h0 : fVal b ≠ 0) : a = b := by
  have hint := (fVal_eq_iff a b).mp h
  have hb : fInt b ≠ 0 := fun hb => h0 (by rw [fVal, hb]; simp)
  simp only [fInt, fUnits_eq] at hint hb
  have hsign : fNegBit a = fNegBit b := by
    cases ha : fNegBit a <;> cases hb' : fNegBit b <;> simp only [ha, hb', Bool.false_eq_true, if_false, if_true] at hint hb ⊢
      <;> omega
  rw [hsign] at hint
  refine eq_of_sign_mag hsign (magUnits_strictMono.injective ?_)
  split at hint <;> omega

/-- A pattern of value zero is one of the two zeros. -/
theorem eq_zero_of_fVal_eq_zero {a : F64} (h : fVal a = 0) : a = 0#64 ∨ a = 0x8000000000000000#64 := by
  rw [← fVal_posZero, fVal_eq_iff, show fInt posZero = 0 by decide] at h
  have hmag : fMag a = 0 := by
    have hu : magUnits (fMag a) = magUnits 0 := by
      rw [magUnits_zero, ← fUnits_eq]
      rw [fInt] at h
      split at h <;> omega
    exact magUnits_strictMono.injective hu
  rw [← fPack_fNegBit_fMag a, hmag]
  cases fNegBit a
  · exact .inl (by decide)
  · exact .inr (by decide)

theorem wetUnchanged_eq {s : State} (hs : s.Inv) {wet : F64} (hf : fFinite wet = true) :
    (s.mixV && fEq wet s.wet) = (s.mixV && decide (fVal wet = fVal s.wet)) := by
  cases hv : s.mixV with
  | false => rfl
  | true => rw [fEq_eq_decide hf ((wetOk_iff _).mp (inv_mix hs hv).1).1]

/-- Settles O48: the complement at the two ends is evaluated, and each branch is one way of completing. -/
theorem setMixStoresBothFractions : Obligations.SetMixStoresBothFractions := by
  intro s wet hs hw
  have hf := ((wetOk_iff wet).mp hw).1
  refine ⟨fSub [] fOne wet, isDiff_fSub [] _ _, fun h0 => ?zero, fun h1 => ?one, ?run⟩
  case zero => rcases eq_zero_of_fVal_eq_zero h0 with rfl | rfl <;> decide +kernel
  case one =>
    have hone : wet = fOne := eq_of_fVal_eq (h1.trans fVal_fOne.symm) (by rw [fVal_fOne]; norm_num)
    rw [hone]
    decide +kernel
  case run =>
    rw [← wetUnchanged_eq hs hf]
    cases hsame : s.mixV && fEq wet s.wet with
    | true =>
      rw [if_pos rfl]
      rw [Bool.and_eq_true] at hsame
      exact exec_of_completes (.setMixSame hw hsame.1 hsame.2)
    | false =>
      rw [if_neg Bool.false_ne_true]
      exact exec_of_completes (.setMixStore hw hsame)

/-! ## Frames (R260, R266) -/

theorem exec_bypassFrame (s : State) (silL silR : Bool) (inL inR : F64) :
    exec (.processFrame true silL silR inL inR) s = .next { s with
      resp := some ⟨BitVec.ofNat 64 (0x500 + 0x10000 * silL.toNat + 0x20000 * silR.toNat),
        [if silL then 0 else inL, if silR then 0 else inR]⟩ } := by
  rw [exec_of_completes .bypassFrame]
  cases silL <;> cases silR <;> rfl

/-- Settles O49: one bypass frame is its equation, and a run of them is an induction on the frames. -/
theorem bypassIsTheIdentity : Obligations.BypassIsTheIdentity := by
  refine ⟨exec_bypassFrame, fun s fs => ?_⟩
  induction fs generalizing s with
  | nil => exact ⟨s.resp, rfl⟩
  | cons f fs ih =>
    rw [List.map_cons, execAll, exec_bypassFrame]
    exact ih _

/-- The clear test of a frame as a condition on the value of its quadrature sample (R243). -/
theorem frameSw_eq {s : State} (hs : s.Inv) :
    frameSw s = (s.sw && !decide (|fVal (lookup s.cfg s.wf s.dds.phase).2| < fVal swThresh)) := by
  have hclear : fLt (fAbs (lookup s.cfg s.wf s.dds.phase).2) swThresh
      = decide (|fVal (lookup s.cfg s.wf s.dds.phase).2| < fVal swThresh) := by
    rw [Bool.eq_iff_iff, clearTest_iff (lookup_finite (inv_cfg hs) ..).2, decide_eq_true_iff]
  rw [frameSw, swAfterFrame, hclear]
  cases s.sw <;> cases decide (|fVal (lookup s.cfg s.wf s.dds.phase).2| < fVal swThresh) <;> rfl

theorem isFrameChannel_frameUnits (s : State) (n : Nat) (c : Chan) (a : F64) :
    IsFrameChannel s (chanUnits s c) (frameUnits s n c a).1 a (selectLower (frameSw s) s.cf)
      (lookup s.cfg s.wf s.dds.phase).1 (lookup s.cfg s.wf s.dds.phase).2 (frameUnits s n c a).2 :=
  isFrameChannel_frameChannel ..

/-- Settles O50: a configured block has its frame ready, and the frame is one equation. -/
theorem frameRunsTheDatapathOnBothChannels : Obligations.FrameRunsTheDatapathOnBothChannels := by
  intro s silL silR inL inR hs hsr hcf hfc hmix hp x sw lower
  have hconf : configured s = true := by
    obtain ⟨h0, h1, h2, h3⟩ := forall_stage.mp hfc
    simp only [Staged.get_inHpf, Staged.get_inLpf, Staged.get_outHpf, Staged.get_outLpf] at h0 h1 h2 h3
    simp only [configured, hsr, hcf, h0, h1, h2, h3, hmix, Bool.and_self]
  have hsw : frameSw s = sw := frameSw_eq hs
  have hlower : selectLower (frameSw s) s.cf = lower := by
    rw [selectLower_eq_xor _ (inv_carrier_finite hs hcf), hsw]
  have hl := isFrameChannel_frameUnits s 0 .left (frameInput silL inL)
  have hr := isFrameChannel_frameUnits s 1 .right (frameInput silR inR)
  rw [hlower] at hl hr
  refine ⟨_, _, _, _, hl, hr, ?_⟩
  rw [exec_of_completes (.frame (frameReady_of_inv hs hconf hp)), frameDone_eq, ddsAdvance_eq, hsw]
  rfl

/-! ## The wet and dry extremes (R270) -/

theorem fUnits_fOne : fUnits fOne = 2 ^ 1074 := by decide +kernel

/-- A rounded multiple of one is the value itself. -/
theorem fMul_fOne (t : NanTag) {v : F64} (hv : fIsNan v = false) : fMul t fOne v = v := by
  cases hi : fIsInf v with
  | true =>
    rw [(fMul_infinite t hi (by decide) (by decide)).2, show fNegBit fOne = false by decide, Bool.bne_false,
      ← fIsInf_iff.mp hi, fPack_fNegBit_fMag]
  | false =>
    have hfin := fFinite_of_not hv hi
    have hmag : fMag v < infMag := by simpa [fFinite] using hfin
    rw [fMul_finite t (by decide) hfin, fUnits_fOne, Nat.mul_comm, fUnits_eq, roundMag_exact hmag (by positivity),
      show fNegBit fOne = false by decide, Bool.false_bne, fPack_fNegBit_fMag]

/-- A zero times a finite value is a zero. -/
theorem fMag_fMul_zero (t : NanTag) {z v : F64} (hz : fMag z = 0) (hv : fFinite v = true) : fMag (fMul t z v) = 0 := by
  have hfin : fFinite z = true := by rw [fFinite, hz]; decide
  rw [fMul_finite t hfin hv, fMag_fPack _ (roundMag_lt _ _), fUnits_eq, hz, magUnits_zero, Nat.zero_mul,
    roundMag_zero (by positivity)]

/-- Adding a zero to a value that is neither a NaN nor `-0.0` gives the value, in either order. -/
theorem fAdd_zero (t : NanTag) {z v : F64} (hz : fMag z = 0) (hv : fIsNan v = false) (hv0 : v ≠ 0x8000000000000000#64) :
    fAdd t z v = v ∧ fAdd t v z = v := by
  have hfz : fFinite z = true := by rw [fFinite, hz]; decide
  have hz0 : fInt z = 0 := by rw [fInt_eq_sgn, hz, magUnits_zero]; simp
  cases hi : fIsInf v with
  | true =>
    exact (fAdd_infinite t hi (fIsNan_of_fFinite hfz) (by rw [fIsInf_of_fFinite hfz]; nofun)).symm
  | false =>
    have hfin := fFinite_of_not hv hi
    have hmag : fMag v < infMag := by simpa [fFinite] using hfin
    have hround : roundMag (fInt v).natAbs 1 = fMag v := by
      have habs : (fInt v).natAbs = magUnits (fMag v) * 1 := by
        rw [fInt, fUnits_eq]
        split <;> omega
      rw [habs, roundMag_exact hmag Nat.one_pos]
    have hsign : ∀ b, (if fInt v = 0 then b && fNegBit v else decide (fInt v < 0)) = fNegBit v := by
      intro b
      by_cases h0 : fInt v = 0
      · have hval : fVal v = 0 := by rw [fVal, h0]; simp
        have hpos : v = 0#64 := (eq_zero_of_fVal_eq_zero hval).resolve_right hv0
        rw [if_pos h0, hpos, show fNegBit 0#64 = false by decide, Bool.and_false]
      · rw [if_neg h0]
        simp only [fInt, fUnits_eq] at h0 ⊢
        rcases Bool.eq_false_or_eq_true (fNegBit v) with hs | hs
        · simp only [hs, if_true, decide_eq_true_eq] at h0 ⊢
          omega
        · simp only [hs, Bool.false_eq_true, if_false, decide_eq_false_iff_not]
          omega
    rw [fAdd_finite t hfz hfin, fAdd_finite t hfin hfz, sumSign, sumSign, hz0, Int.zero_add, Int.add_zero, hround, hsign,
      Bool.and_comm (fNegBit v), hsign, fPack_fNegBit_fMag]
    exact ⟨rfl, rfl⟩

/-- Settles O51: one product is the sample, the other a zero that the sum leaves out. -/
theorem wetAndDryExtremesAreExact : Obligations.WetAndDryExtremesAreExact := by
  intro s u v a lower x xH out h e dd
  obtain ⟨u0, u1, q, m, e0, e1, w, d, -, -, -, -, -, -, -, -, -, -, -, hlast, ⟨tw, hw⟩, ⟨td, hd⟩, ⟨tout, hout⟩⟩ := h
  have he : e = e1 := by
    show v.outLpf.y1 = e1
    rw [hlast]
    rfl
  have hd : d = fMul td s.dryg dd := hd
  rw [← he] at hw
  refine ⟨fun hwet hdry hfin hnan hneg => ?dry, fun hwet hdry hfin hnan hneg => ?wet⟩
  case dry =>
    rw [hdry, show (0x3FF0000000000000#64 : F64) = fOne from rfl, fMul_fOne td hnan] at hd
    rw [hout, hd, hw]
    exact (fAdd_zero tout (fMag_fMul_zero tw hwet hfin) hnan hneg).1
  case wet =>
    rw [hwet, show (0x3FF0000000000000#64 : F64) = fOne from rfl, fMul_fOne tw hnan] at hw
    rw [hout, hd, hw]
    exact (fAdd_zero tout (fMag_fMul_zero td (by rw [hdry]; decide) hfin) hnan hneg).2

end Sys2Proof.Machine
end

section
/-! PROOFS. Reset, repetition, and what each command leaves alone (`45_pipeline.md` R267; `20_memory.md` R77; `10_state.md`
R33, R40; `70_reset_and_hazards.md` R320-R329). Most statements go by the ways of completing that `Completes` lists. -/

namespace Sys2Proof.Machine

open Sys2Proof

/-! ## RESET (R267, R321) -/

/-- A FIR whose delay line holds zeros. -/
def firAtRest (cfg : Config) (u : Fir) : Fir := { u with dl := lineAtRest cfg.firLen }

/-- A stage at rest. -/
def stageAtRest (p : Stereo Iir) : Stereo Iir := ⟨iirAtRest p.left, iirAtRest p.right⟩

/-- The state a RESET answers: everything at rest, the parameters and what setups wrote kept. -/
def restState (s : State) : State :=
  { s with
    dry := ⟨lineAtRest s.cfg.dryCap, lineAtRest s.cfg.dryCap⟩
    ht := ⟨lineAtRest s.cfg.htLen, lineAtRest s.cfg.htLen⟩
    iir := ⟨stageAtRest s.iir.inHpf, stageAtRest s.iir.inLpf, stageAtRest s.iir.outHpf, stageAtRest s.iir.outLpf⟩
    fir := ⟨firAtRest s.cfg s.fir.lpf, firAtRest s.cfg s.fir.hpf⟩
    dds := ddsReset s.dds
    sw := false, resetPending := false, resp := some ⟨0x600#64, []⟩ }

theorem dlClear_stereo {cap : Nat} {p : Stereo DelayLine} (h : ∀ c, lineOk cap (p.get c) = true) :
    (⟨dlClear p.left, dlClear p.right⟩ : Stereo DelayLine) = ⟨lineAtRest cap, lineAtRest cap⟩ := by
  obtain ⟨hl, hr⟩ := forall_chan.mp h
  exact (Stereo.mk.injEq ..).mpr
    ⟨dlClear_eq_lineAtRest (lineOk_iff.mp hl).1, dlClear_eq_lineAtRest (lineOk_iff.mp hr).1⟩

theorem exec_reset {s : State} (hs : s.Inv) : exec .reset s = .next (restState s) := by
  have hfir : ∀ k, firReset (s.fir.get k) = firAtRest s.cfg (s.fir.get k) := fun k => by
    rw [firReset, dlClear_eq_lineAtRest (lineOk_iff.mp (inv_fir_dl hs k)).1, firAtRest]
  obtain ⟨hlpf, hhpf⟩ := forall_kind.mp hfir
  rw [PerKind.get_lpf] at hlpf
  rw [PerKind.get_hpf] at hhpf
  rw [exec_of_completes .reset, restState, ← dlClear_stereo (inv_dry hs), ← dlClear_stereo (inv_ht hs), ← hlpf, ← hhpf]
  rfl

/-- Settles O52: the second RESET runs from the state the first one answers, which is at rest already. -/
theorem resetZeroesTheInternalState : Obligations.ResetZeroesTheInternalState := by
  intro s hs
  exact ⟨restState s, exec_reset hs, exec_reset (inv_of_exec hs (exec_reset hs)), rfl⟩

/-! ## A fresh block with the same parameters (R322) -/

theorem execAll_cons_of_next {i : Instr} {s t : State} (h : exec i s = .next t) (is : List Instr) :
    execAll (i :: is) s = execAll is t := by
  rw [execAll, h]

/-- What a block keeps while it is given the parameters of `s`: the domains of the commands to come ask for no more. -/
structure Booting (s m : State) : Prop where
  inv : m.Inv
  cfg : m.cfg = s.cfg
  sr : m.sr = s.sr

theorem booting_configure {s : State} (hs : s.Inv) (hr : s.srV = true) :
    ∃ m, exec (.configure s.sr) (State.powerOn s.cfg) = .next m ∧ Booting s m := by
  have hp : (State.powerOn s.cfg).Inv := (inv_iff_parts _).mpr (powerOn_invParts (inv_cfg hs))
  have hdom : ConfigureDomain (State.powerOn s.cfg) s.sr :=
    { rate := inv_rate hs hr
      stage := fun st h => by cases st <;> cases h
      carrier := fun h => by cases h
      fir := fun k h => by cases k <;> cases h }
  have hrun := exec_of_completes (.configure hdom)
  exact ⟨_, hrun, inv_of_exec hp hrun, rfl, rfl⟩

theorem booting_setCarrier {s m : State} (hs : s.Inv) (hc : s.cfV = true) (hm : Booting s m) :
    ∃ n, exec (.setCarrier s.wf s.cf) m = .next n ∧ Booting s n := by
  have hok : carrierOk m.cfg s.cf = true := by rw [hm.cfg]; exact inv_carrier hs hc
  have hrun := exec_setCarrier hm.inv s.wf hok
  refine ⟨_, hrun, inv_of_exec hm.inv hrun, ?_, ?_⟩
  · rw [respond_cfg]; split <;> exact hm.cfg
  · rw [respond_sr]; split <;> exact hm.sr

theorem booting_setCutoff {s m : State} (hs : s.Inv) (hr : s.srV = true) (st : Stage) (hv : s.fcV.get st = true)
    (hm : Booting s m) : ∃ n, exec (.setCutoff st (s.fc.get st)) m = .next n ∧ Booting s n := by
  have hbelow := ((stageOk_iff.mp (inv_stage hs st) hv).2 hr).1
  obtain ⟨n, hn⟩ := exists_completes_setCutoff hm.inv (st := st) (inv_cutoff hs st hv) fun _ => by rw [hm.sr]; exact hbelow
  refine ⟨n, exec_of_completes hn, inv_of_exec hm.inv (exec_of_completes hn), ?_, ?_⟩
  · cases hn <;> exact hm.cfg
  · cases hn <;> exact hm.sr

theorem booting_setMix {s m : State} (hs : s.Inv) (hv : s.mixV = true) (hm : Booting s m) :
    ∃ n, exec (.setMix s.wet) m = .next n ∧ Booting s n := by
  have hw := (inv_mix hs hv).1
  have hn : ∃ n, Completes (.setMix s.wet) m n := by
    cases h : m.mixV && fEq s.wet m.wet with
    | true =>
      rw [Bool.and_eq_true] at h
      exact ⟨_, .setMixSame hw h.1 h.2⟩
    | false => exact ⟨_, .setMixStore hw h⟩
  obtain ⟨n, hn⟩ := hn
  refine ⟨n, exec_of_completes hn, inv_of_exec hm.inv (exec_of_completes hn), ?_, ?_⟩
  · cases hn <;> exact hm.cfg
  · cases hn <;> exact hm.sr

/-- The boot commands run to the rest state of a block that has the invariant. -/
theorem execAll_bootCommands {s : State} (hs : s.Inv) (hr : s.srV = true) (hc : s.cfV = true)
    (hfc : ∀ st, s.fcV.get st = true) (hmix : s.mixV = true) :
    ∃ m, m.Inv ∧ execAll (bootCommands s) (State.powerOn s.cfg) = .next (restState m) := by
  obtain ⟨m0, h0, b0⟩ := booting_configure hs hr
  obtain ⟨m1, h1, b1⟩ := booting_setCarrier hs hc b0
  obtain ⟨m2, h2, b2⟩ := booting_setCutoff hs hr .inHpf (hfc _) b1
  obtain ⟨m3, h3, b3⟩ := booting_setCutoff hs hr .inLpf (hfc _) b2
  obtain ⟨m4, h4, b4⟩ := booting_setCutoff hs hr .outHpf (hfc _) b3
  obtain ⟨m5, h5, b5⟩ := booting_setCutoff hs hr .outLpf (hfc _) b4
  obtain ⟨m6, h6, b6⟩ := booting_setMix hs hmix b5
  rw [Staged.get_inHpf] at h2
  rw [Staged.get_inLpf] at h3
  rw [Staged.get_outHpf] at h4
  rw [Staged.get_outLpf] at h5
  refine ⟨m6, b6.inv, ?_⟩
  rw [bootCommands, execAll_cons_of_next h0, execAll_cons_of_next h1, execAll_cons_of_next h2, execAll_cons_of_next h3,
    execAll_cons_of_next h4, execAll_cons_of_next h5, execAll_cons_of_next h6, execAll_cons_of_next (exec_reset b6.inv)]
  rfl

/-- Two blocks at rest with the same parameters and the same registers from setups are the same. -/
theorem restState_eq_of_sameSetup {s m : State} (h : SameSetup s (restState m)) :
    { restState s with cmds := m.cmds, resp := (restState m).resp, nanCount := m.nanCount } = restState m := by
  obtain ⟨hcfg, hsr, hsrV, hcf, hwf, hcfV, hfc, hfcV, hwet, hdry, hmix, hstep, hincS, hincF, hvalid, hiir, hfir⟩ := h
  have hcfg : s.cfg = m.cfg := hcfg
  have hstage : ∀ st, stageAtRest (s.iir.get st) = stageAtRest (m.iir.get st) := fun st => by
    have hl : iirAtRest (s.iir.get st).left = iirAtRest (m.iir.get st).left := by
      have hl := hiir st .left
      cases st <;> exact hl
    have hr : iirAtRest (s.iir.get st).right = iirAtRest (m.iir.get st).right := by
      have hr := hiir st .right
      cases st <;> exact hr
    rw [stageAtRest, hl, hr, stageAtRest]
  have hkind : ∀ k, firAtRest s.cfg (s.fir.get k) = firAtRest m.cfg (m.fir.get k) := fun k => by
    obtain ⟨htaps, hpass, hfs, hcut, hco⟩ := hfir k
    rw [hcfg]
    cases k <;> exact (Fir.mk.injEq ..).mpr ⟨htaps, hpass, hfs, hcut, hco, rfl⟩
  have hdds : ddsReset s.dds = ddsReset m.dds :=
    (Dds.mk.injEq ..).mpr ⟨rfl, hstep, by rw [hincS, hincF]; rfl, hincS, hincF, rfl, hvalid⟩
  obtain ⟨h0, h1, h2, h3⟩ := forall_stage.mp hstage
  obtain ⟨hl, hh⟩ := forall_kind.mp hkind
  have hiir : (restState s).iir = (restState m).iir := (Staged.mk.injEq ..).mpr ⟨h0, h1, h2, h3⟩
  have hfir : (restState s).fir = (restState m).fir := (PerKind.mk.injEq ..).mpr ⟨hl, hh⟩
  have hdryLines : (restState s).dry = (restState m).dry := by rw [restState, restState, hcfg]
  have hhtLines : (restState s).ht = (restState m).ht := by rw [restState, restState, hcfg]
  exact (State.mk.injEq ..).mpr ⟨hcfg, hsr, hsrV, hcf, hwf, hcfV, hfc, hfcV, hwet, hdry, hmix, rfl, rfl, hdds, hdryLines,
    hhtLines, hiir, hfir, rfl, rfl, rfl⟩

/-- Settles O53: both runs end in a rest state. -/
theorem resetLeavesAFreshPipeline : Obligations.ResetLeavesAFreshPipeline := by
  intro s hs hr hc hfc hmix
  obtain ⟨m, -, hrun⟩ := execAll_bootCommands hs hr hc hfc hmix
  exact ⟨restState s, restState m, exec_reset hs, hrun, restState_eq_of_sameSetup⟩

/-! ## Repeated commands (R77) -/

@[simp] theorem dlClear_dlClear (u : DelayLine) : dlClear (dlClear u) = dlClear u := by simp [dlClear]

@[simp] theorem firReset_firReset (u : Fir) : firReset (firReset u) = firReset u := by simp [firReset]

theorem fEq_self {a : F64} (h : fFinite a = true) : fEq a a = true := (fEq_iff h h).mpr rfl

/-- A second setup finds its rate cached. -/
theorem ddsLoad_ddsLoad (cfg : Config) (d : Dds) {fs : F64} (hfs : fFinite fs = true) (f : F64) :
    ddsLoad cfg (ddsLoad cfg d fs f) fs f = ddsLoad cfg d fs f := by
  have hself : rateChanged (some fs) fs = false := by rw [rateChanged, fEq_self hfs]; rfl
  cases h : rateChanged d.src fs with
  | true => simp only [ddsLoad, h, hself, if_true, Bool.false_eq_true, if_false]
  | false => simp only [ddsLoad, h, Bool.false_eq_true, if_false]

theorem stageReload_configureAll (s : State) (fs : F64) (st : Stage) :
    stageReload (configureAll s fs) fs st = stageReload s fs st := by
  rw [stageReload, configureAll_iir_get]
  change (if s.fcV.get st then Stereo.mk (iirLoad s.cfg st.kind (stageReload s fs st).left fs (s.fc.get st))
    (iirLoad s.cfg st.kind (stageReload s fs st).right fs (s.fc.get st)) else stageReload s fs st) = stageReload s fs st
  cases hv : s.fcV.get st with
  | true => simp only [stageReload, hv, if_true]; rfl
  | false => rfl

theorem firReload_configureAll (s : State) (fs : F64) (k : FilterKind) :
    firReload (configureAll s fs) fs k = firReload s fs k := by
  rw [firReload, configureAll_fir_get]
  change (if (firReload s fs k).coefV then firLoad s.cfg k (firReload s fs k) fs (firReload s fs k).fc
    else firReload s fs k) = firReload s fs k
  cases hv : (s.fir.get k).coefV with
  | true => simp only [firReload, hv, if_true]; rfl
  | false => simp only [firReload, hv, Bool.false_eq_true, if_false]

theorem ddsReload_configureAll (s : State) {fs : F64} (hfs : fFinite fs = true) :
    ddsReload (configureAll s fs) fs = ddsReload s fs := by
  change (if s.cfV then ddsLoad s.cfg (ddsReload s fs) fs (fAbs s.cf) else ddsReload s fs) = ddsReload s fs
  cases hv : s.cfV with
  | true => simp only [ddsReload, hv, if_true, ddsLoad_ddsLoad _ _ hfs]
  | false => rfl

theorem configureRate_configureAll (s : State) {fs : F64} (hfs : fFinite fs = true) :
    configureRate (configureAll s fs) fs = configureAll s fs := by
  have hpend : ((configureAll s fs).resetPending || !true || !fEq fs fs) = (configureAll s fs).resetPending := by
    rw [fEq_self hfs]; simp
  rw [configureRate]
  change { configureAll s fs with resetPending := (configureAll s fs).resetPending || !true || !fEq fs fs } = _
  rw [hpend]

theorem configureAll_configureAll (s : State) {fs : F64} (hfs : fFinite fs = true) :
    configureAll (configureAll s fs) fs = configureAll s fs := by
  conv_lhs => rw [configureAll]
  rw [configureRate_configureAll s hfs, ddsReload_configureAll s hfs]
  simp only [stageReload_configureAll, firReload_configureAll]
  rfl

/-- The setups of a second CONFIGURE have their domains: the cutoffs and the carrier are those of the first. -/
theorem configureDomain_configureAll {s : State} {fs : F64} (h : ConfigureDomain s fs) :
    ConfigureDomain (configureAll s fs) fs where
  rate := h.rate
  stage := h.stage
  carrier := h.carrier
  fir k := by
    rw [configureAll_fir_get]
    cases hv : (s.fir.get k).coefV with
    | true =>
      have hk := h.fir k hv
      simp only [firReload, hv, if_true]
      exact fun _ => hk
    | false => simp [firReload, hv]

theorem exec_configure_again {s : State} {fs : F64} (h : ConfigureDomain s fs) :
    exec (.configure fs) (respond (configureAll s fs) .configure []) = .next (respond (configureAll s fs) .configure []) := by
  have hdom : ConfigureDomain (respond (configureAll s fs) .configure []) fs :=
    ⟨h.rate, (configureDomain_configureAll h).stage, h.carrier, (configureDomain_configureAll h).fir⟩
  rw [exec_of_completes (.configure hdom)]
  change (.next (respond (configureAll (configureAll s fs) fs) .configure []) : Result) = _
  rw [configureAll_configureAll s (fFinite_of_rateOk h.rate)]

/-- A SET_CUTOFF finds the cutoff it would store. -/
theorem exec_setCutoff_again {st : Stage} {hz : F64} {t : State} (dom : cutoffOk hz = true)
    (below : t.srV = true → twiceBelow hz t.sr = true) (hfc : t.fc.get st = hz) (hv : t.fcV.get st = true) :
    exec (.setCutoff st hz) t = .next (respond t .setCutoff []) := by
  refine exec_of_completes (.setCutoffSame dom below hv ?_)
  rw [hfc]
  exact fEq_self ((cutoffOk_iff hz).mp dom).1

theorem resetAll_resetAll (s : State) : resetAll (resetAll s) = resetAll s :=
  (State.mk.injEq ..).mpr ⟨rfl, rfl, rfl, rfl, rfl, rfl, rfl, rfl, rfl, rfl, rfl, rfl, rfl, rfl,
    (Stereo.mk.injEq ..).mpr ⟨dlClear_dlClear _, dlClear_dlClear _⟩,
    (Stereo.mk.injEq ..).mpr ⟨dlClear_dlClear _, dlClear_dlClear _⟩, rfl,
    (PerKind.mk.injEq ..).mpr ⟨firReset_firReset _, firReset_firReset _⟩, rfl, rfl, rfl⟩

/-- Settles O54: the first run left what the second one would write. -/
theorem idempotentCommandsRepeatWithoutEffect : Obligations.IdempotentCommandsRepeatWithoutEffect := by
  intro i s t h hi
  cases completes_of_exec h with
  | configure dom => exact exec_configure_again dom
  | setCarrierSame dom hv he hw => exact exec_of_completes (.setCarrierSame dom hv he hw)
  | setCarrierLoad dom => exact exec_of_completes (.setCarrierSame dom rfl (fEq_self (fFinite_of_carrierOk dom)) rfl)
  | setCarrierKeep dom => exact exec_of_completes (.setCarrierSame dom rfl (fEq_self (fFinite_of_carrierOk dom)) rfl)
  | setCutoffSame dom below hv he => exact exec_of_completes (.setCutoffSame dom below hv he)
  | setCutoffLoad dom below => exact exec_setCutoff_again dom (fun _ => below) (Staged.get_set_same ..) (Staged.get_set_same ..)
  | setCutoffKeep dom hne hr =>
    exact exec_setCutoff_again dom (fun h => absurd (hr.symm.trans h) nofun) (Staged.get_set_same ..) (Staged.get_set_same ..)
  | setMixSame dom hv he => exact exec_of_completes (.setMixSame dom hv he)
  | setMixStore dom => exact exec_of_completes (.setMixSame dom rfl (fEq_self ((wetOk_iff _).mp dom).1))
  | reset =>
    rw [exec_of_completes .reset]
    change (.next (respond (resetAll (resetAll s)) .reset []) : Result) = _
    rw [resetAll_resetAll]
  | udlReset =>
    rw [exec_of_completes .udlReset]
    simp only [respond_dry, Stereo.get_set_same, Stereo.set_set, dlClear_dlClear]
    rfl
  | uhtReset =>
    rw [exec_of_completes .uhtReset]
    simp only [respond_ht, Stereo.get_set_same, Stereo.set_set, dlClear_dlClear]
    rfl
  | uddsSetup rate freq =>
    refine (exec_of_completes (.uddsSetup rate ?freq)).trans ?ddsAgain
    case freq => exact freq
    simp only [respond_dds, respond_cfg, ddsLoad_ddsLoad _ _ (fFinite_of_rateOk rate)]
    rfl
  | uddsReset => exact exec_of_completes .uddsReset
  | uiirSetup rate cutoff below =>
    refine (exec_of_completes (.uiirSetup rate cutoff below)).trans ?_
    simp only [getIir, setIir, respond_iir, respond_cfg, Staged.get_set_same, Staged.set_set, Stereo.get_set_same,
      Stereo.set_set]
    rfl
  | uiirReset =>
    rw [exec_of_completes .uiirReset]
    simp only [getIir, setIir, respond_iir, respond_cfg, Staged.get_set_same, Staged.set_set, Stereo.get_set_same,
      Stereo.set_set]
    rfl
  | ufirSetup rate cutoff below pos =>
    refine (exec_of_completes (.ufirSetup rate cutoff below ?pos)).trans ?firAgain
    case pos => exact pos
    simp only [respond_fir, respond_cfg, PerKind.get_set_same, PerKind.set_set]
    rfl
  | ufirReset =>
    rw [exec_of_completes .ufirReset]
    simp only [respond_fir, PerKind.get_set_same, PerKind.set_set, firReset_firReset]
    rfl
  | _ => exact hi.elim

/-! ## Commands without side effects (R77) -/

/-- Settles O55: what such a command answers differs from the state it ran on in the response and the NaN count. -/
theorem observationCommandsChangeNoState : Obligations.ObservationCommandsChangeNoState := by
  intro i s hi
  cases i with
  | nop => exact ⟨_, exec_of_completes .nop, rfl⟩
  | readState => exact ⟨_, exec_of_completes .readState, rfl⟩
  | uddsRead => exact ⟨_, exec_of_completes .uddsRead, rfl⟩
  | umix => exact ⟨_, exec_of_completes .umix, rfl⟩
  | udlRead c i =>
    rcases Nat.lt_or_ge i.toNat s.cfg.dryCap with hin | hpast
    · exact ⟨_, exec_of_completes (.udlRead hin), rfl⟩
    · exact ⟨_, exec_of_completes (.udlReadPast hpast), rfl⟩
  | processFrame bypass =>
    cases bypass with
    | true => exact ⟨_, exec_of_completes .bypassFrame, rfl⟩
    | false => exact hi.elim
  | _ => exact hi.elim

/-! ## The parameters (R325) -/

theorem bitsOf_opHeader (op : Op) (unit imm : Byte) (ws : List Word) :
    bitsOf ((opHeader op unit imm :: ws).headD 0) 7 0 = (opCode op).toNat := by
  rw [← toNat_opcField, List.headD_cons, opHeader, opcField_headerWord]

/-- Settles O56: the other commands have an opcode below 0x20, and these write other registers. -/
theorem unitCommandsKeepTheParameters : Obligations.UnitCommandsKeepTheParameters := by
  intro i s t hop h
  cases completes_of_exec h with
  | nop | configure | setCarrierSame | setCarrierLoad | setCarrierKeep | setCutoffSame | setCutoffLoad | setCutoffKeep
  | setMixSame | setMixStore | bypassFrame | frame | reset | readState =>
    rw [encodeWords, bitsOf_opHeader] at hop
    exact absurd hop (by decide)
  | _ => exact ⟨rfl, rfl, rfl, rfl, rfl, rfl, rfl, rfl, rfl, rfl, rfl, rfl⟩

/-! ## What one unit's commands leave alone (R40) -/

/-- Writing one biquad leaves the others. -/
theorem getIir_setIir_ne {s : State} {st st' : Stage} {c c' : Chan} (h : c' ≠ c ∨ st' ≠ st) (u : Iir) :
    getIir (setIir s st c u) st' c' = getIir s st' c' := by
  by_cases hst : st' = st
  · subst hst
    have hc : c' ≠ c := h.resolve_right fun h => h rfl
    simp only [getIir, setIir, Staged.get_set_same, Stereo.get_set_ne _ _ _ _ hc]
  · simp only [getIir, setIir, Staged.get_set_ne _ _ _ _ hst]

/-- Settles O57: each command stores one unit. -/
theorem unitInstancesShareNoState : Obligations.UnitInstancesShareNoState := by
  intro s t c c' st st' k k' x y w
  refine ⟨?dryOnly, ?htOnly, ?iirOnly, ?firOnly, ?ddsOnly, fun hne => ?dryOther, fun hne => ?htOther, fun hne => ?iirOther,
    fun hne => ?firOther⟩
  case dryOnly => rintro (h | h) <;> cases completes_of_exec h <;> rfl
  case htOnly => rintro (h | h) <;> cases completes_of_exec h <;> rfl
  case iirOnly => rintro (h | h | h) <;> cases completes_of_exec h <;> rfl
  case firOnly => rintro (h | h | h) <;> cases completes_of_exec h <;> rfl
  case ddsOnly => rintro (h | h | h) <;> cases completes_of_exec h <;> rfl
  case dryOther => rintro (h | h) <;> cases completes_of_exec h <;> exact Stereo.get_set_ne _ _ _ _ hne
  case htOther => rintro (h | h) <;> cases completes_of_exec h <;> exact Stereo.get_set_ne _ _ _ _ hne
  case iirOther => rintro (h | h | h) <;> cases completes_of_exec h <;> exact getIir_setIir_ne hne _
  case firOther => rintro (h | h | h) <;> cases completes_of_exec h <;> exact PerKind.get_set_ne _ _ _ _ hne

/-! ## A pending reset (R33, R324) -/

/-- No command but RESET clears a pending reset; the frame, which keeps the register, is refused while it is set. -/
theorem resetPending_of_completes {i : Instr} {s t : State} (h : Completes i s t) (hp : s.resetPending = true)
    (hi : i ≠ .reset) : t.resetPending = true := by
  cases h with
  | configure => simp [configureAll, configureRate, hp]
  | frame ready => exact absurd (hp.symm.trans ready.noResetPending) nofun
  | reset => exact absurd rfl hi
  | _ => exact hp

/-- Settles O58. -/
theorem rateChangeRefusesFramesUntilReset : Obligations.RateChangeRefusesFramesUntilReset := by
  refine ⟨fun s t fs hs h hch => ?set, fun i s t h hp hi => resetPending_of_completes (completes_of_exec h) hp hi,
    fun s silL silR inL inR hp => ?refuse⟩
  case set =>
    cases completes_of_exec h with
    | configure dom =>
      change (s.resetPending || !s.srV || !fEq fs s.sr) = true
      rw [rateDiffers_eq hs (fFinite_of_rateOk dom.rate)]
      rcases hch with hr | hne
      · simp [hr]
      · simp [hne]
  case refuse =>
    change execProcessFrame false silL silR inL inR s = .refused (if configured s then .resetPending else .notConfigured)
    cases hc : configured s <;> simp [execProcessFrame, hc, hp]

/-! ## Live retuning (R326) -/

/-- Settles O59: on the cached rate the DDS is re-loaded without its signal registers, and a biquad always is. -/
theorem liveRetuningKeepsTheSignalState : Obligations.LiveRetuningKeepsTheSignalState := by
  refine ⟨fun s t w f r hs hr hsame h => ?carrier, fun s t st hz h => ?cutoff⟩
  case carrier =>
    cases completes_of_exec h with
    | setCarrierSame => exact ⟨rfl, rfl, rfl, rfl⟩
    | setCarrierKeep => exact ⟨rfl, rfl, rfl, rfl⟩
    | setCarrierLoad dom hne hrv rate freq =>
      have hcached : rateChanged s.dds.src s.sr = false := by
        rw [hr, rateChanged_some (fFinite_of_rateOk (inv_src hs hr).1) (fFinite_of_rateOk rate)]
        simp [hsame]
      obtain ⟨hphase, herr, hsrc⟩ := ddsLoad_of_cached hcached s.cfg (fAbs f)
      exact ⟨hphase, herr, hsrc, rfl⟩
  case cutoff =>
    cases completes_of_exec h with
    | setCutoffSame => exact ⟨rfl, fun _ _ => ⟨rfl, rfl⟩, fun _ _ => ⟨rfl, rfl, rfl, rfl, fun _ => rfl⟩⟩
    | setCutoffKeep =>
      exact ⟨rfl, fun _ hne => ⟨Staged.get_set_ne _ _ _ _ hne, Staged.get_set_ne _ _ _ _ hne⟩,
        fun _ _ => ⟨rfl, rfl, rfl, rfl, fun _ => rfl⟩⟩
    | setCutoffLoad =>
      refine ⟨rfl, fun _ hne => ⟨Staged.get_set_ne _ _ _ _ hne, Staged.get_set_ne _ _ _ _ hne⟩, ?_⟩
      intro st' c u v
      by_cases hst : st' = st
      · have hv : v = iirLoad s.cfg st.kind u s.sr hz := by
          subst hst
          change ((s.iir.set st' _).get st').get c = _
          rw [Staged.get_set_same]
          cases c <;> rfl
        rw [hv]
        exact ⟨rfl, rfl, rfl, rfl, fun h => absurd hst h⟩
      · have hv : v = u := congrArg (fun p => Stereo.get p c) (Staged.get_set_ne _ _ _ _ hst)
        rw [hv]
        exact ⟨rfl, rfl, rfl, rfl, fun _ => rfl⟩

/-! ## The first setup after a RESET (R329) -/

/-- A setup on an invalid cache seeds the phase and the error, and caches its rate. -/
theorem ddsLoad_seed {d : Dds} (h : d.src = none) (cfg : Config) (fs f : F64) :
    (ddsLoad cfg d fs f).phase = 0
      ∧ 2 * (ddsLoad cfg d fs f).err = (ddsLoad cfg d fs f).incS + (ddsLoad cfg d fs f).incF
      ∧ (ddsLoad cfg d fs f).src ≠ none := by
  obtain ⟨hphase, herr, hsrc⟩ := ddsLoad_of_changed (fs := fs) (by rw [h]; rfl) cfg f
  refine ⟨hphase, ?_, by rw [hsrc]; nofun⟩
  rw [herr, ddsLoad_incS, ddsLoad_incF]
  ring

/-- A carrier of another value is not taken for the one that is set. -/
theorem not_fEq_of_carrier_changed {s : State} (hs : s.Inv) {f : F64} (hf : carrierOk s.cfg f = true)
    (h : s.cfV = false ∨ fVal f ≠ fVal s.cf) : (s.cfV && fEq f s.cf) = false := by
  rw [carrierUnchanged_eq hs (fFinite_of_carrierOk hf)]
  rcases h with h | h <;> simp [h]

/-- Settles O60: RESET empties the cache, a frame keeps it, and each of the three sources of a setup then seeds. -/
theorem firstSetupAfterResetReseedsThePhase : Obligations.FirstSetupAfterResetReseedsThePhase := by
  refine ⟨fun s t h => ?reset, fun s t b silL silR inL inR hsrc h => ?frame, fun s t i hs hsrc h hi => ?setup⟩
  case reset => cases completes_of_exec h; rfl
  case frame =>
    cases completes_of_exec h with
    | bypassFrame => exact hsrc
    | frame => rw [frameDone_dds, ddsAdvance_src]; exact hsrc
  case setup =>
    rcases hi with ⟨fs, rfl, hc⟩ | ⟨w, f, rfl, hr, hch⟩ | ⟨fs, f, rfl⟩
    · cases completes_of_exec h with
      | configure =>
        have hd : ddsReload s fs = ddsLoad s.cfg s.dds fs (fAbs s.cf) := by rw [ddsReload, if_pos hc]
        change (ddsReload s fs).phase = 0 ∧ 2 * (ddsReload s fs).err = (ddsReload s fs).incS + (ddsReload s fs).incF
          ∧ (ddsReload s fs).src ≠ none
        rw [hd]
        exact ddsLoad_seed hsrc ..
    · cases completes_of_exec h with
      | setCarrierSame dom hv he =>
        have hno := not_fEq_of_carrier_changed hs dom hch
        rw [hv, he] at hno
        cases hno
      | setCarrierKeep dom hne hno =>
        have hdiff := not_fEq_of_carrier_changed hs dom hch
        rw [(hno hr).1, (hno hr).2] at hdiff
        cases hdiff
      | setCarrierLoad => exact ddsLoad_seed hsrc ..
    · cases completes_of_exec h with
      | uddsSetup => exact ddsLoad_seed hsrc ..

end Sys2Proof.Machine
end
